-- ==== Sys2Proof/Word.lean ====
section
/-! DEFINITION. The words of the machine: a register's 32 bits (10_state.md R20, R25, R28) and a byte of program
text (30_encoding.md R60). -/

namespace Sys2Proof

/-- The 32 bits of one data, trellis or trellis history register (R20, R25, R28). -/
abbrev Word := BitVec 32

/-- One byte of assembly text, the level at which the spec gives the instructions (R60). -/
abbrev Byte := BitVec 8

end Sys2Proof
end

