-- ==== Sys2Proof/Syntax.lean ====
section
/-! DEFINITION. The abstract syntax of the CLU instruction set: one constructor per form of Listing 4-2
(30_encoding.md R75), and the names its operands are made of. -/

namespace Sys2Proof

/-- The two compute blocks (00_scope.md R1, R5). -/
inductive BlockId where
  | x
  | y
deriving DecidableEq, Repr

/-- The field `blk` of every form: the blocks that execute it (R64). -/
inductive BlockSel where
  | x
  | y
  | xy
deriving DecidableEq, Repr

/-- Whether a slot's `blk` selects the block (46_line_execution.md R181). -/
def BlockSel.has : BlockSel → BlockId → Bool
  | .x, .x => true
  | .x, .y => false
  | .y, .x => false
  | .y, .y => true
  | .xy, _ => true

/-- The three register files of a compute block: data, trellis, trellis history (R20, R25, R28). -/
inductive RegFile where
  | r
  | tr
  | thr
deriving DecidableEq, Repr

/-- How many registers a file holds (00_scope.md R5: NREG, NTR, NTHR). -/
def RegFile.size : RegFile → Nat
  | .r => 32
  | .tr => 32
  | .thr => 4

/-- One 32-bit register of a block (00_scope.md R9). -/
structure Reg where
  file : RegFile
  idx : Nat
deriving DecidableEq, Repr

/-- The CUT option of the XCORRS forms: `none`, `imm k` or `reg` (R71). -/
inductive Cut where
  | none
  | imm (k : Int)
  | reg
deriving DecidableEq, Repr

/-- The 26 forms of Listing 4-2 in the order of R75. Index fields hold the low register number of the operand. -/
inductive Instr where
  /-- `{S}TRsd = TMAX(TRmd + Rmq_h, TRnd + Rmq_l);` (R95) -/
  | tmaxAdd (blk : BlockSel) (short : Bool) (trs trm trn rq : Nat)
  /-- `{S}TRsd = TMAX(TRmd - Rmq_h, TRnd - Rmq_l);` (R96) -/
  | tmaxSub (blk : BlockSel) (short : Bool) (trs trm trn rq : Nat)
  /-- `{S}Rs = TMAX(TRm, TRn);` (R97, C3) -/
  | tmaxTr (blk : BlockSel) (short : Bool) (rs trm trn : Nat)
  /-- `{S}TRsd = MAX(TRmd + Rmq_h, TRnd + Rmq_l);` (R98) -/
  | maxAdd (blk : BlockSel) (short : Bool) (trs trm trn rq : Nat)
  /-- `{S}TRsd = MAX(TRmd - Rmq_h, TRnd - Rmq_l);` (R99) -/
  | maxSub (blk : BlockSel) (short : Bool) (trs trm trn rq : Nat)
  /-- `Rs = TRm;` (R151) -/
  | movRTr (blk : BlockSel) (rs trm : Nat)
  /-- `Rsd = TRmd;` (R152) -/
  | movRdTrd (blk : BlockSel) (rs trm : Nat)
  /-- `Rsq = TRmq;` (R153) -/
  | movRqTrq (blk : BlockSel) (rs trm : Nat)
  /-- `TRs = Rm;` (R154) -/
  | movTrR (blk : BlockSel) (trs rm : Nat)
  /-- `TRsd = Rmd;` (R155) -/
  | movTrdRd (blk : BlockSel) (trs rm : Nat)
  /-- `TRsq = Rmq;` (R156, C5) -/
  | movTrqRq (blk : BlockSel) (trs rm : Nat)
  /-- `Rs = THRm;` (R157) -/
  | movRThr (blk : BlockSel) (rs thrm : Nat)
  /-- `Rsd = THRmd;` (R158) -/
  | movRdThrd (blk : BlockSel) (rs thrm : Nat)
  /-- `Rsq = THRmq;`, reserved; the source is always THR3:0 (R159) -/
  | movRqThrq (blk : BlockSel) (rs : Nat)
  /-- `THRs = Rm;` (R160, C7) -/
  | movThrR (blk : BlockSel) (thrs rm : Nat)
  /-- `THRsd = Rmd {(i)};` (R161, R163) -/
  | movThrdRd (blk : BlockSel) (thrs rm : Nat) (optI : Bool)
  /-- `THRsq = Rmq;`, reserved; the destination is always THR3:0 (R162) -/
  | movThrqRq (blk : BlockSel) (rm : Nat)
  /-- `TRs = DESPREAD (Rmq, THRd) + TRn;` (R124, C1) -/
  | despreadAcc (blk : BlockSel) (trs rq thrd trn : Nat)
  /-- `Rs = TRs, TRs = DESPREAD (Rmq, THRd);` (R125) -/
  | despreadMov (blk : BlockSel) (rs trs rq thrd : Nat)
  /-- `Rsd = TRsd, TRsd = DESPREAD (Rmq, THRd);` (R126) -/
  | despreadMovd (blk : BlockSel) (rs trs rq thrd : Nat)
  /-- `TRsa = XCORRS (Rmq, THRnq) {(CUT <Imm> | R)} {(CLR)} {(EXT)};` (R138) -/
  | xcorrs (blk : BlockSel) (base rq : Nat) (cut : Cut) (clr ext : Bool)
  /-- `Rsq = TRbq, TRsa = XCORRS (Rmq, THRnq) {(CUT <Imm> | R)} {(CLR)} {(EXT)};` (R139) -/
  | xcorrsMov (blk : BlockSel) (rs trb base rq : Nat) (cut : Cut) (clr ext : Bool)
  /-- `{S}TRsq = ACS (TRmd, TRnd, Rm) {(TMAX)};` (R112) -/
  | acs (blk : BlockSel) (short : Bool) (trs trm trn rm : Nat) (tmax : Bool)
  /-- `Rsq = TRaq, {S}TRsq = ACS (TRmd, TRnd, Rm) {(TMAX)};` (R113) -/
  | acsMov (blk : BlockSel) (rs tra : Nat) (short : Bool) (trs trm trn rm : Nat) (tmax : Bool)
  /-- `Rsd = PERMUTE (Rmd, Rn);` (R171) -/
  | permuteD (blk : BlockSel) (rs rm rn : Nat)
  /-- `Rsq = PERMUTE (Rmd, -Rmd, Rn);` (R172) -/
  | permuteQ (blk : BlockSel) (rs rm rn : Nat)
deriving DecidableEq, Repr

/-- An instruction line: the slots that issue together (R61). -/
abbrev Line := List Instr

/-- The block selection of a slot (R75: every constructor has the field `blk`). -/
def Instr.blk : Instr → BlockSel
  | .tmaxAdd blk _ _ _ _ _ => blk
  | .tmaxSub blk _ _ _ _ _ => blk
  | .tmaxTr blk _ _ _ _ => blk
  | .maxAdd blk _ _ _ _ _ => blk
  | .maxSub blk _ _ _ _ _ => blk
  | .movRTr blk _ _ => blk
  | .movRdTrd blk _ _ => blk
  | .movRqTrq blk _ _ => blk
  | .movTrR blk _ _ => blk
  | .movTrdRd blk _ _ => blk
  | .movTrqRq blk _ _ => blk
  | .movRThr blk _ _ => blk
  | .movRdThrd blk _ _ => blk
  | .movRqThrq blk _ => blk
  | .movThrR blk _ _ => blk
  | .movThrdRd blk _ _ _ => blk
  | .movThrqRq blk _ => blk
  | .despreadAcc blk _ _ _ _ => blk
  | .despreadMov blk _ _ _ _ => blk
  | .despreadMovd blk _ _ _ _ => blk
  | .xcorrs blk _ _ _ _ _ => blk
  | .xcorrsMov blk _ _ _ _ _ _ _ => blk
  | .acs blk _ _ _ _ _ _ => blk
  | .acsMov blk _ _ _ _ _ _ _ _ => blk
  | .permuteD blk _ _ _ => blk
  | .permuteQ blk _ _ _ => blk

end Sys2Proof
end

