-- ==== Sys2Proof/Config.lean ====
section
/-! DEFINITION. What an implementation fixes: the parameters of 00_scope.md R5, each at the value the spec's own
decision gives it, and the values the spec leaves open, as constants without a body. -/

namespace Sys2Proof

/-- The two readings of `CLU_SAT` (R5, D6). -/
inductive SatMode where
  | on
  | wrap
deriving DecidableEq, Repr

/-- The two readings of `TMAX_SUB_ORDER` (R5, D8). -/
inductive SubOrder where
  | firstMinusSecond
  | secondMinusFirst
deriving DecidableEq, Repr

/-- `CLU_SAT`: on, always, signed (R5, D6). DESIGN CHOICE of the spec, log 10, unsafe: the source does not say how
saturation is selected. -/
def Config.cluSat : SatMode := .on

/-- `TMAX_SUB_ORDER`: first operand minus second (R5, D8). DESIGN CHOICE of the spec, log 11, unsafe. -/
def Config.tmaxSubOrder : SubOrder := .firstMinusSecond

/-- `THR_SHIFT_FILL`: zeros (R5, R31, D11). DESIGN CHOICE of the spec, log 9, unsafe: the source names no fill. -/
def Config.thrShiftFill : BitVec 16 := 0

/-- `CUT_IMM_RANGE`, the lowest admitted CUT immediate (R5, R74, D14). DESIGN CHOICE of the spec, log 16, safe. -/
def Config.cutImmMin : Int := -22

/-- `CUT_IMM_RANGE`, the highest admitted CUT immediate (R5, R74, D14). DESIGN CHOICE of the spec, log 16, safe. -/
def Config.cutImmMax : Int := 22

/-- `CutOf : CMCTL → Int`, OPEN: which bits of CMCTL hold the CUT value is not in the source (R33, D15; log 6, safe).
CMCTL's contents are a natural number because its width is not in the source either (log 5). -/
opaque Config.cutOf : Nat → Int

/-- The free choice of R165: whether TROV keeps its old value after the transfer that is the `n`-th draw of a block,
or becomes 0 (D20, U7; log 7, safe). -/
opaque Config.trovKept : BlockId → Nat → Bool

/-- `XSTAT_TROV_BIT`, OPEN: the position of TROV in XSTAT/YSTAT (R5, U18; log 30, safe). No rule reads it. -/
opaque Config.xstatTrovBit : Nat

/-- `XSTAT_TRSOV_BIT`, OPEN: the position of TRSOV in XSTAT/YSTAT (R5, U18; log 30, safe). No rule reads it. -/
opaque Config.xstatTrsovBit : Nat

end Sys2Proof
end

