-- ==== Sys2Proof/WellFormed.lean ====
section
/-! DEFINITION. Well-formed instructions: the named checks of 30_encoding.md R68 on register operands and the range
of the CUT immediate (R74). -/

namespace Sys2Proof

/-- The named checks of R68, and the CUT range of R74. -/
inductive Check where
  /-- a data register index is 0..31 (D3) -/
  | idxR
  /-- a trellis register index is 0..31 -/
  | idxTR
  /-- a trellis history register index is 0..3 -/
  | idxTHR
  /-- the low index of a double is even (D4) -/
  | dblEven
  /-- the low index of a quad is a multiple of 4 (D4) -/
  | quadMult4
  /-- `TRsa` is `TR15:0` or `TR31:16` -/
  | grp16
  /-- `THRnq` is `THR3:0`; the abstract terms hold no field for it, so only the transcriber can fail it -/
  | thrq0
  /-- `THRd` is `THR1:0` or `THR3:2` -/
  | thrd
  /-- the CUT immediate is in −22..22 (R74) -/
  | cutImm
deriving DecidableEq, Repr

/-- Checks of a single data register. -/
def Check.forR (i : Nat) : List (Check × Bool) := [(.idxR, decide (i ≤ 31))]

/-- Checks of a data register double. -/
def Check.forRd (i : Nat) : List (Check × Bool) := [(.idxR, decide (i ≤ 31)), (.dblEven, decide (i % 2 = 0))]

/-- Checks of a data register quad. -/
def Check.forRq (i : Nat) : List (Check × Bool) := [(.idxR, decide (i ≤ 31)), (.quadMult4, decide (i % 4 = 0))]

/-- Checks of a single trellis register. -/
def Check.forTr (i : Nat) : List (Check × Bool) := [(.idxTR, decide (i ≤ 31))]

/-- Checks of a trellis double. -/
def Check.forTrd (i : Nat) : List (Check × Bool) := [(.idxTR, decide (i ≤ 31)), (.dblEven, decide (i % 2 = 0))]

/-- Checks of a trellis quad. -/
def Check.forTrq (i : Nat) : List (Check × Bool) := [(.idxTR, decide (i ≤ 31)), (.quadMult4, decide (i % 4 = 0))]

/-- Checks of the sixteen-register group `TRsa`. -/
def Check.forTra (i : Nat) : List (Check × Bool) := [(.grp16, decide (i = 0 ∨ i = 16))]

/-- Checks of a single trellis history register. -/
def Check.forThr (i : Nat) : List (Check × Bool) := [(.idxTHR, decide (i ≤ 3))]

/-- Checks of a trellis history double. -/
def Check.forThrd (i : Nat) : List (Check × Bool) := [(.thrd, decide (i = 0 ∨ i = 2))]

/-- The check of the CUT option. -/
def Check.forCut : Cut → List (Check × Bool)
  | .none => []
  | .imm k => [(.cutImm, decide (Config.cutImmMin ≤ k ∧ k ≤ Config.cutImmMax))]
  | .reg => []

/-- Every check of an instruction with its outcome, operand by operand (the "Operands" lines of the rules R95 to R172). -/
def Instr.checks : Instr → List (Check × Bool)
  | .tmaxAdd _ _ trs trm trn rq => Check.forTrd trs ++ Check.forTrd trm ++ Check.forTrd trn ++ Check.forRq rq
  | .tmaxSub _ _ trs trm trn rq => Check.forTrd trs ++ Check.forTrd trm ++ Check.forTrd trn ++ Check.forRq rq
  | .tmaxTr _ _ rs trm trn => Check.forR rs ++ Check.forTr trm ++ Check.forTr trn
  | .maxAdd _ _ trs trm trn rq => Check.forTrd trs ++ Check.forTrd trm ++ Check.forTrd trn ++ Check.forRq rq
  | .maxSub _ _ trs trm trn rq => Check.forTrd trs ++ Check.forTrd trm ++ Check.forTrd trn ++ Check.forRq rq
  | .movRTr _ rs trm => Check.forR rs ++ Check.forTr trm
  | .movRdTrd _ rs trm => Check.forRd rs ++ Check.forTrd trm
  | .movRqTrq _ rs trm => Check.forRq rs ++ Check.forTrq trm
  | .movTrR _ trs rm => Check.forTr trs ++ Check.forR rm
  | .movTrdRd _ trs rm => Check.forTrd trs ++ Check.forRd rm
  | .movTrqRq _ trs rm => Check.forTrq trs ++ Check.forRq rm
  | .movRThr _ rs thrm => Check.forR rs ++ Check.forThr thrm
  | .movRdThrd _ rs thrm => Check.forRd rs ++ Check.forThrd thrm
  | .movRqThrq _ rs => Check.forRq rs
  | .movThrR _ thrs rm => Check.forThr thrs ++ Check.forR rm
  | .movThrdRd _ thrs rm _ => Check.forThrd thrs ++ Check.forRd rm
  | .movThrqRq _ rm => Check.forRq rm
  | .despreadAcc _ trs rq thrd trn => Check.forTr trs ++ Check.forRq rq ++ Check.forThrd thrd ++ Check.forTr trn
  | .despreadMov _ rs trs rq thrd => Check.forR rs ++ Check.forTr trs ++ Check.forRq rq ++ Check.forThrd thrd
  | .despreadMovd _ rs trs rq thrd => Check.forRd rs ++ Check.forTrd trs ++ Check.forRq rq ++ Check.forThrd thrd
  | .xcorrs _ base rq cut _ _ => Check.forTra base ++ Check.forRq rq ++ Check.forCut cut
  | .xcorrsMov _ rs trb base rq cut _ _ =>
    Check.forRq rs ++ Check.forTrq trb ++ Check.forTra base ++ Check.forRq rq ++ Check.forCut cut
  | .acs _ _ trs trm trn rm _ => Check.forTrq trs ++ Check.forTrd trm ++ Check.forTrd trn ++ Check.forR rm
  | .acsMov _ rs tra _ trs trm trn rm _ =>
    Check.forRq rs ++ Check.forTrq tra ++ Check.forTrq trs ++ Check.forTrd trm ++ Check.forTrd trn ++ Check.forR rm
  | .permuteD _ rs rm rn => Check.forRd rs ++ Check.forRd rm ++ Check.forR rn
  | .permuteQ _ rs rm rn => Check.forRq rs ++ Check.forRd rm ++ Check.forR rn

/-- The first check of a list that fails. -/
def Check.firstFailed : List (Check × Bool) → Option Check
  | [] => none
  | (_, true) :: rest => Check.firstFailed rest
  | (c, false) :: _ => some c

/-- The first check of R68 and R74 an instruction fails, by name. -/
def Instr.failedCheck (i : Instr) : Option Check := Check.firstFailed i.checks

/-- A well-formed instruction passes every check (R68). -/
abbrev WellFormed (i : Instr) : Prop := i.failedCheck = none

end Sys2Proof
end

