-- ==== Sys2Proof/Decode.lean ====
section
/-! DEFINITION. The transcriber: from the bytes of one line of assembly text to a line of abstract instructions, or a
refusal by name (30_encoding.md R60 to R85), and the encoder, which writes the canonical text of R85. The source has
no binary encoding (R60, N1), so assembly text is the one encoding there is. -/

namespace Sys2Proof

/-- Why the transcriber refuses a line (R81: "refused by the transcriber by name and line"). -/
inductive TextError where
  /-- a byte that no name, number or punctuation mark of R62 holds -/
  | badCharacter
  /-- a comment that is opened and not closed (R62) -/
  | unclosedComment
  /-- the last slot is not closed by `;;` (R61) -/
  | notClosed
  /-- a slot without text, or a line without a slot (R61); text after the closing `;;` is here too (DESIGN CHOICE, log 37) -/
  | emptySlot
  /-- a word that is no register, number or keyword of Listing 4-2 (R76, R81), wherever in the slot it stands (DESIGN CHOICE,
  log 37) -/
  | unknownWord
  /-- the slot matches no form of R75 (R76, R81); a register group of another length than the form's operand is here too,
  and not under a check of R68 (DESIGN CHOICE, log 37) -/
  | noSuchForm
  /-- a block letter on a register that is not the slot's first (R62, R64) -/
  | misplacedBlock
  /-- `_h` and `_l` name different quads (R69) -/
  | halvesDiffer
  /-- the two halves of a DESPREAD dual operation name different trellis registers (R125, R126) -/
  | dualOperandsDiffer
  /-- the plain and the negated operand of PERMUTE differ (R75, R172) -/
  | negatedOperandDiffers
  /-- an option the form does not have, or options out of order (R70); any other text left over after a complete transfer or
  function is here too, and not under `noSuchForm` (DESIGN CHOICE, log 37) -/
  | badOption
  /-- a check of R68 or R74 fails; of several the first in operand order gives the name (DESIGN CHOICE, log 37) -/
  | failed (c : Check)
deriving DecidableEq, Repr

/-! ## Characters and words -/

/-- A byte as a character, letters in upper case: names are compared without regard to case (R66, D30; log 19). -/
def charOfByte (b : Byte) : Char :=
  Char.ofNat (if 97 ≤ b.toNat ∧ b.toNat ≤ 122 then b.toNat - 32 else b.toNat)

/-- Where the comment reader stands (R62: comments are written `/* … */`). -/
inductive CommentMode where
  | text
  | slash
  | comment
  | star
deriving DecidableEq, Repr

/-- The text with each comment replaced by one blank (R62). -/
def stripComments : CommentMode → List Char → Except TextError (List Char)
  | .text, [] => .ok []
  | .slash, [] => .error .badCharacter
  | .comment, [] => .error .unclosedComment
  | .star, [] => .error .unclosedComment
  | .text, c :: cs =>
    if c = '/' then stripComments .slash cs else (stripComments .text cs).map (c :: ·)
  | .slash, c :: cs =>
    if c = '*' then (stripComments .comment cs).map (' ' :: ·) else .error .badCharacter
  | .comment, c :: cs => stripComments (if c = '*' then .star else .comment) cs
  | .star, c :: cs =>
    stripComments (if c = '/' then .text else if c = '*' then .star else .comment) cs

/-- The tokens of a line: words (names, register groups, numbers) and the punctuation of R62. -/
inductive Token where
  | word (w : List Char)
  | eq
  | plus
  | minus
  | comma
  | lpar
  | rpar
  | semi
deriving DecidableEq, Repr

/-- A decimal digit. -/
def isDigit (c : Char) : Bool := decide (48 ≤ c.toNat ∧ c.toNat ≤ 57)

/-- A letter; the text is upper case by now. -/
def isLetter (c : Char) : Bool := decide (65 ≤ c.toNat ∧ c.toNat ≤ 90)

/-- The characters of a word: `R7:4_h` is one word (R67, R69). -/
def isWordChar (c : Char) : Bool := isDigit c || isLetter c || c = ':' || c = '_'

/-- A blank, a tab or a line break. -/
def isBlank (c : Char) : Bool := c = ' ' || c = '\t' || c = '\n' || c = '\r'

/-- The token of a punctuation mark. -/
def punctuation (c : Char) : Option Token :=
  if c = '=' then some .eq
  else if c = '+' then some .plus
  else if c = '-' then some .minus
  else if c = ',' then some .comma
  else if c = '(' then some .lpar
  else if c = ')' then some .rpar
  else if c = ';' then some .semi
  else none

/-- The word read so far, if there is one, before the tokens that follow it. -/
def flushWord (cur : List Char) (ts : List Token) : List Token :=
  match cur with
  | [] => ts
  | c :: cs => .word (c :: cs) :: ts

/-- Text to tokens; `cur` is the word being read. Blanks separate words and mean nothing else (log 19). -/
def tokens (cur : List Char) : List Char → Except TextError (List Token)
  | [] => .ok (flushWord cur [])
  | c :: cs =>
    if isWordChar c then tokens (cur ++ [c]) cs
    else if isBlank c then (tokens [] cs).map (flushWord cur)
    else match punctuation c with
      | some t => (tokens [] cs).map fun ts => flushWord cur (t :: ts)
      | none => .error .badCharacter

/-- The slots of a line: each closed by `;`, the last by `;;` (R61). Text after the `;;` is refused as `emptySlot`, and a
line without any text as `notClosed` (DESIGN CHOICE, log 37). -/
def slotsOf (cur : List Token) : List Token → Except TextError (List (List Token))
  | [] => .error .notClosed
  | t :: ts =>
    if t = .semi then
      match cur with
      | [] => if ts = [] then .ok [] else .error .emptySlot
      | c :: cs => (slotsOf [] ts).map ((c :: cs) :: ·)
    else slotsOf (cur ++ [t]) ts

/-! ## Words as registers, numbers and keywords -/

/-- The function and option names of Listing 4-2 (R70, R76). -/
inductive Keyword where
  | tmax
  | max
  | despread
  | xcorrs
  | acs
  | permute
  | cut
  | clr
  | ext
  | i
  | r
deriving DecidableEq, Repr

/-- The size of a register operand as its spelling gives it (R66, R67); any other length of group is `irregular`, an
operand of no form (log 37). -/
inductive GroupSize where
  | one
  | two
  | four
  | sixteen
  | irregular
deriving DecidableEq, Repr

/-- Which half of a quad a name selects (R69). -/
inductive Half where
  | whole
  | high
  | low
deriving DecidableEq, Repr

/-- A register name as it is spelled: `{X|Y|XY}{S}<file><hi>:<lo>{_h|_l}` (R66, R67, R69). -/
structure RegText where
  blk : Option BlockSel
  short : Bool
  file : RegFile
  size : GroupSize
  low : Nat
  half : Half
deriving DecidableEq, Repr

/-- The longest run of characters of a kind, and what follows it. -/
def spanWhile (p : Char → Bool) : List Char → List Char × List Char
  | [] => ([], [])
  | c :: cs => if p c then (c :: (spanWhile p cs).1, (spanWhile p cs).2) else ([], c :: cs)

/-- The value of a run of digits read after the digits of `acc`. -/
def decimalFrom (acc : Nat) : List Char → Option Nat
  | [] => some acc
  | c :: cs => if isDigit c then decimalFrom (acc * 10 + (c.toNat - 48)) cs else none

/-- A decimal number; leading zeros are allowed (R66: "no leading zero required"). -/
def readNat : List Char → Option Nat
  | [] => none
  | c :: cs => decimalFrom 0 (c :: cs)

/-- The block letters at the head of a name (R64). -/
def readBlk : List Char → Option BlockSel × List Char
  | 'X' :: 'Y' :: cs => (some .xy, cs)
  | 'X' :: cs => (some .x, cs)
  | 'Y' :: cs => (some .y, cs)
  | cs => (none, cs)

/-- The size letter `S` (R65). -/
def readShort : List Char → Bool × List Char
  | 'S' :: cs => (true, cs)
  | cs => (false, cs)

/-- The name of a register file (R66). -/
def readFile : List Char → Option RegFile
  | ['R'] => some .r
  | ['T', 'R'] => some .tr
  | ['T', 'H', 'R'] => some .thr
  | _ => none

/-- The half of a quad (R69). -/
def readHalf : List Char → Option Half
  | [] => some .whole
  | ['_', 'H'] => some .high
  | ['_', 'L'] => some .low
  | _ => none

/-- The size of the group `hi:lo` (R67, and the `hi = lo + 1`, `hi = lo + 3` part of the checks of R68). -/
def groupSize (hi lo : Nat) : GroupSize :=
  if hi = lo + 1 then .two
  else if hi = lo + 3 then .four
  else if hi = lo + 15 then .sixteen
  else .irregular

/-- What follows the first number of a register name. -/
def readGroup (first : Nat) : List Char → Option (GroupSize × Nat × Half)
  | [] => some (.one, first, .whole)
  | ':' :: cs =>
    match readNat (spanWhile isDigit cs).1, readHalf (spanWhile isDigit cs).2 with
    | some lo, some h => some (groupSize first lo, lo, h)
    | _, _ => none
  | _ => none

/-- A word as a register name (R66, R67, R69). -/
def readReg (w : List Char) : Option RegText :=
  let name := spanWhile isLetter w
  let number := spanWhile isDigit name.2
  let blk := readBlk name.1
  let short := readShort blk.2
  match readFile short.2, readNat number.1 with
  | some f, some first =>
    match readGroup first number.2 with
    | some (z, lo, h) => some ⟨blk.1, short.1, f, z, lo, h⟩
    | none => none
  | _, _ => none

/-- The keywords as they are spelled. -/
def keywordText : Keyword → List Char
  | .tmax => ['T', 'M', 'A', 'X']
  | .max => ['M', 'A', 'X']
  | .despread => ['D', 'E', 'S', 'P', 'R', 'E', 'A', 'D']
  | .xcorrs => ['X', 'C', 'O', 'R', 'R', 'S']
  | .acs => ['A', 'C', 'S']
  | .permute => ['P', 'E', 'R', 'M', 'U', 'T', 'E']
  | .cut => ['C', 'U', 'T']
  | .clr => ['C', 'L', 'R']
  | .ext => ['E', 'X', 'T']
  | .i => ['I']
  | .r => ['R']

/-- A word as a keyword. -/
def readKeyword (w : List Char) : Option Keyword :=
  [Keyword.tmax, .max, .despread, .xcorrs, .acs, .permute, .cut, .clr, .ext, .i, .r].find?
    fun k => decide (keywordText k = w)

/-- The items of a slot: tokens whose words have been read. -/
inductive Item where
  | reg (t : RegText)
  | num (n : Nat)
  | kw (k : Keyword)
  | eq
  | plus
  | minus
  | comma
  | lpar
  | rpar
deriving DecidableEq, Repr

/-- A token as an item. -/
def itemOf : Token → Except TextError Item
  | .word w =>
    match readReg w with
    | some t => .ok (.reg t)
    | none =>
      match readNat w with
      | some n => .ok (.num n)
      | none =>
        match readKeyword w with
        | some k => .ok (.kw k)
        | none => .error .unknownWord
  | .eq => .ok .eq
  | .plus => .ok .plus
  | .minus => .ok .minus
  | .comma => .ok .comma
  | .lpar => .ok .lpar
  | .rpar => .ok .rpar
  | .semi => .error .noSuchForm

/-- The items of a slot. -/
def itemsOf : List Token → Except TextError (List Item)
  | [] => .ok []
  | t :: ts =>
    match itemOf t with
    | .error e => .error e
    | .ok it => (itemsOf ts).map (it :: ·)

/-! ## Operands of a form -/

/-- A whole register operand of a file and size, without `S`: its low index. A group of another length is no such operand,
so its text is refused as `noSuchForm` and not under `thrd`, `grp16`, `dblEven` or `quadMult4`, the part `hi = lo + 1`,
`hi = lo + 3` of which R68 also fails: the spec does not say which name (DESIGN CHOICE, log 37, safe). -/
def RegText.operand (t : RegText) (f : RegFile) (z : GroupSize) : Option Nat :=
  if t.file = f ∧ t.size = z ∧ t.short = false ∧ t.half = .whole then some t.low else none

/-- A result register that may carry `S` (R65): the flag `short` and its low index. -/
def RegText.result (t : RegText) (f : RegFile) (z : GroupSize) : Option (Bool × Nat) :=
  if t.file = f ∧ t.size = z ∧ t.half = .whole then some (t.short, t.low) else none

/-- One half of a data register quad (R69): the quad's low index. -/
def RegText.halfOf (t : RegText) (h : Half) : Option Nat :=
  if t.file = .r ∧ t.size = .four ∧ t.short = false ∧ t.half = h then some t.low else none

/-- A form that has no options is followed by nothing (R70). Whatever follows is refused as `badOption`, be it an option or
any other text (`XR0 = R1 + R2;;`, or `+ TR4` after the accumulate spelling `TRs += DESPREAD (…)`), and before the operands
are looked at: the spec does not say which name (DESIGN CHOICE, log 37, safe). -/
def withoutOptions (rest : List Item) (i : Except TextError Instr) : Except TextError Instr :=
  if rest = [] then i else .error .badOption

/-- The four forms `TRsd = TMAX/MAX(TRmd ± Rmq_h, TRnd ± Rmq_l)` (R75 rows 1, 2, 4, 5). -/
def trellisForm (blk : BlockSel) (isTmax isAdd : Bool) (d a h b l : RegText) : Except TextError Instr :=
  match d.result .tr .two, a.operand .tr .two, h.halfOf .high, b.operand .tr .two, l.halfOf .low with
  | some (short, trs), some trm, some hq, some trn, some lq =>
    if hq = lq then
      .ok (match isTmax, isAdd with
        | true, true => .tmaxAdd blk short trs trm trn hq
        | true, false => .tmaxSub blk short trs trm trn hq
        | false, true => .maxAdd blk short trs trm trn hq
        | false, false => .maxSub blk short trs trm trn hq)
    else .error .halvesDiffer
  | _, _, _, _, _ => .error .noSuchForm

/-- `{S}Rs = TMAX(TRm, TRn)` (R75 row 3). -/
def tmaxTrForm (blk : BlockSel) (d a b : RegText) : Except TextError Instr :=
  match d.result .r .one, a.operand .tr .one, b.operand .tr .one with
  | some (short, rs), some trm, some trn => .ok (.tmaxTr blk short rs trm trn)
  | _, _, _ => .error .noSuchForm

/-- The arguments of `TMAX` and `MAX` (R76 (3)). -/
def parseTrellis (blk : BlockSel) (isTmax : Bool) (d : RegText) : List Item → Except TextError Instr
  | .lpar :: .reg a :: .plus :: .reg h :: .comma :: .reg b :: .plus :: .reg l :: .rpar :: rest =>
    withoutOptions rest (trellisForm blk isTmax true d a h b l)
  | .lpar :: .reg a :: .minus :: .reg h :: .comma :: .reg b :: .minus :: .reg l :: .rpar :: rest =>
    withoutOptions rest (trellisForm blk isTmax false d a h b l)
  | .lpar :: .reg a :: .comma :: .reg b :: .rpar :: rest =>
    if isTmax then withoutOptions rest (tmaxTrForm blk d a b) else .error .noSuchForm
  | _ => .error .noSuchForm

/-- The source of a THR quad transfer and the code operand of XCORRS can only be `THR3:0` (R68 `thrq0`, R138, R159); any
other register there is refused as `thrq0` (DESIGN CHOICE, log 37). -/
def thrQuad (t : RegText) (i : Instr) : Except TextError Instr :=
  if t.operand .thr .four = some 0 then .ok i else .error (.failed .thrq0)

/-- The transfers (R75 rows 6 to 17, R76 (4)). -/
def transferForm (blk : BlockSel) (d s : RegText) (optI : Bool) : Except TextError Instr :=
  if d.short ∨ s.short ∨ d.half ≠ .whole ∨ s.half ≠ .whole then .error .noSuchForm
  else match d.file, d.size, s.file, s.size with
    | .thr, .two, .r, .two => .ok (.movThrdRd blk d.low s.low optI)
    | .r, .one, .tr, .one => if optI then .error .badOption else .ok (.movRTr blk d.low s.low)
    | .r, .two, .tr, .two => if optI then .error .badOption else .ok (.movRdTrd blk d.low s.low)
    | .r, .four, .tr, .four => if optI then .error .badOption else .ok (.movRqTrq blk d.low s.low)
    | .tr, .one, .r, .one => if optI then .error .badOption else .ok (.movTrR blk d.low s.low)
    | .tr, .two, .r, .two => if optI then .error .badOption else .ok (.movTrdRd blk d.low s.low)
    | .tr, .four, .r, .four => if optI then .error .badOption else .ok (.movTrqRq blk d.low s.low)
    | .r, .one, .thr, .one => if optI then .error .badOption else .ok (.movRThr blk d.low s.low)
    | .r, .two, .thr, .two => if optI then .error .badOption else .ok (.movRdThrd blk d.low s.low)
    | .r, .four, .thr, .four => if optI then .error .badOption else thrQuad s (.movRqThrq blk d.low)
    | .thr, .one, .r, .one => if optI then .error .badOption else .ok (.movThrR blk d.low s.low)
    | .thr, .four, .r, .four => if optI then .error .badOption else thrQuad d (.movThrqRq blk s.low)
    | _, _, _, _ => .error .noSuchForm

/-- `TRs = DESPREAD (Rmq, THRd) + TRn` (R75 row 18). -/
def despreadAccForm (blk : BlockSel) (d q t n : RegText) : Except TextError Instr :=
  match d.operand .tr .one, q.operand .r .four, t.operand .thr .two, n.operand .tr .one with
  | some trs, some rq, some thrd, some trn => .ok (.despreadAcc blk trs rq thrd trn)
  | _, _, _, _ => .error .noSuchForm

/-- The two DESPREAD dual operations (R75 rows 19, 20); both halves name one trellis operand. -/
def despreadDualForm (blk : BlockSel) (d s d2 q t : RegText) : Except TextError Instr :=
  match q.operand .r .four, t.operand .thr .two with
  | some rq, some thrd =>
    match d.operand .r .one, s.operand .tr .one, d2.operand .tr .one with
    | some rs, some old, some trs =>
      if old = trs then .ok (.despreadMov blk rs trs rq thrd) else .error .dualOperandsDiffer
    | _, _, _ =>
      match d.operand .r .two, s.operand .tr .two, d2.operand .tr .two with
      | some rs, some old, some trs =>
        if old = trs then .ok (.despreadMovd blk rs trs rq thrd) else .error .dualOperandsDiffer
      | _, _, _ => .error .noSuchForm
  | _, _ => .error .noSuchForm

/-- The CUT option, if the items begin with one (R70, R71, R74). -/
def cutOption : List Item → Cut × List Item
  | .lpar :: .kw .cut :: .num n :: .rpar :: rest => (.imm n, rest)
  | .lpar :: .kw .cut :: .plus :: .num n :: .rpar :: rest => (.imm n, rest)
  | .lpar :: .kw .cut :: .minus :: .num n :: .rpar :: rest => (.imm (-(n : Int)), rest)
  | .lpar :: .kw .cut :: .kw .r :: .rpar :: rest => (.reg, rest)
  | rest => (.none, rest)

/-- An option that is one keyword in parentheses, if the items begin with it (R70). -/
def flagOption (k : Keyword) : List Item → Bool × List Item
  | .lpar :: .kw k' :: .rpar :: rest => if k' = k then (true, rest) else (false, .lpar :: .kw k' :: .rpar :: rest)
  | rest => (false, rest)

/-- The options of XCORRS in the listing's order CUT, CLR, EXT (R70). Any text left over, an option or not, is refused as
`badOption` (DESIGN CHOICE, log 37). -/
def xcorrsOptions (rest : List Item) : Except TextError (Cut × Bool × Bool) :=
  let cut := cutOption rest
  let clr := flagOption .clr cut.2
  let ext := flagOption .ext clr.2
  if ext.2 = [] then .ok (cut.1, clr.1, ext.1) else .error .badOption

/-- `TRsa = XCORRS (Rmq, THRnq) …` (R75 row 21). -/
def xcorrsForm (blk : BlockSel) (d q t : RegText) (rest : List Item) : Except TextError Instr :=
  match d.operand .tr .sixteen, q.operand .r .four, xcorrsOptions rest with
  | some base, some rq, .ok (cut, clr, ext) => thrQuad t (.xcorrs blk base rq cut clr ext)
  | some _, some _, .error e => .error e
  | _, _, _ => .error .noSuchForm

/-- `Rsq = TRbq, TRsa = XCORRS (Rmq, THRnq) …` (R75 row 22). -/
def xcorrsDualForm (blk : BlockSel) (d s d2 q t : RegText) (rest : List Item) : Except TextError Instr :=
  match d.operand .r .four, s.operand .tr .four, d2.operand .tr .sixteen, q.operand .r .four, xcorrsOptions rest with
  | some rs, some trb, some base, some rq, .ok (cut, clr, ext) =>
    thrQuad t (.xcorrsMov blk rs trb base rq cut clr ext)
  | some _, some _, some _, some _, .error e => .error e
  | _, _, _, _, _ => .error .noSuchForm

/-- The option `(TMAX)` of ACS (R70). Any text left over, an option or not, is refused as `badOption` (DESIGN CHOICE,
log 37). -/
def acsOption (rest : List Item) : Except TextError Bool :=
  let tmax := flagOption .tmax rest
  if tmax.2 = [] then .ok tmax.1 else .error .badOption

/-- `{S}TRsq = ACS (TRmd, TRnd, Rm) {(TMAX)}` (R75 row 23). -/
def acsForm (blk : BlockSel) (d m n r : RegText) (rest : List Item) : Except TextError Instr :=
  match d.result .tr .four, m.operand .tr .two, n.operand .tr .two, r.operand .r .one, acsOption rest with
  | some (short, trs), some trm, some trn, some rm, .ok tmax => .ok (.acs blk short trs trm trn rm tmax)
  | some _, some _, some _, some _, .error e => .error e
  | _, _, _, _, _ => .error .noSuchForm

/-- `Rsq = TRaq, {S}TRsq = ACS (TRmd, TRnd, Rm) {(TMAX)}` (R75 row 24). -/
def acsDualForm (blk : BlockSel) (d s d2 m n r : RegText) (rest : List Item) : Except TextError Instr :=
  match d.operand .r .four, s.operand .tr .four, acsForm blk d2 m n r rest with
  | some rs, some tra, .ok (.acs _ short trs trm trn rm tmax) => .ok (.acsMov blk rs tra short trs trm trn rm tmax)
  | some _, some _, .error e => .error e
  | _, _, _ => .error .noSuchForm

/-- `Rsd = PERMUTE (Rmd, Rn)` (R75 row 25). -/
def permuteDForm (blk : BlockSel) (d m n : RegText) : Except TextError Instr :=
  match d.operand .r .two, m.operand .r .two, n.operand .r .one with
  | some rs, some rm, some rn => .ok (.permuteD blk rs rm rn)
  | _, _, _ => .error .noSuchForm

/-- `Rsq = PERMUTE (Rmd, -Rmd, Rn)` (R75 row 26); the double is named twice (R75). -/
def permuteQForm (blk : BlockSel) (d m m2 n : RegText) : Except TextError Instr :=
  match d.operand .r .four, m.operand .r .two, m2.operand .r .two, n.operand .r .one with
  | some rs, some rm, some rm2, some rn =>
    if rm = rm2 then .ok (.permuteQ blk rs rm rn) else .error .negatedOperandDiffers
  | _, _, _, _ => .error .noSuchForm

/-! ## Slots and lines -/

/-- A slot that is no dual operation, after its `=` (R62 `single`, R76). -/
def parseSingle (blk : BlockSel) (d : RegText) : List Item → Except TextError Instr
  | .reg s :: rest =>
    let optI := flagOption .i rest
    withoutOptions optI.2 (transferForm blk d s optI.1)
  | .kw .tmax :: rest => parseTrellis blk true d rest
  | .kw .max :: rest => parseTrellis blk false d rest
  | .kw .despread :: .lpar :: .reg q :: .comma :: .reg t :: .rpar :: .plus :: .reg n :: rest =>
    withoutOptions rest (despreadAccForm blk d q t n)
  | .kw .xcorrs :: .lpar :: .reg q :: .comma :: .reg t :: .rpar :: rest => xcorrsForm blk d q t rest
  | .kw .acs :: .lpar :: .reg m :: .comma :: .reg n :: .comma :: .reg r :: .rpar :: rest => acsForm blk d m n r rest
  | .kw .permute :: .lpar :: .reg m :: .comma :: .reg n :: .rpar :: rest =>
    withoutOptions rest (permuteDForm blk d m n)
  | .kw .permute :: .lpar :: .reg m :: .comma :: .minus :: .reg m2 :: .comma :: .reg n :: .rpar :: rest =>
    withoutOptions rest (permuteQForm blk d m m2 n)
  | _ => .error .noSuchForm

/-- The compute half of a dual operation, after its `=` (R62 `dual`, R63). -/
def parseDual (blk : BlockSel) (d s d2 : RegText) : List Item → Except TextError Instr
  | .kw .despread :: .lpar :: .reg q :: .comma :: .reg t :: .rpar :: rest =>
    withoutOptions rest (despreadDualForm blk d s d2 q t)
  | .kw .xcorrs :: .lpar :: .reg q :: .comma :: .reg t :: .rpar :: rest => xcorrsDualForm blk d s d2 q t rest
  | .kw .acs :: .lpar :: .reg m :: .comma :: .reg n :: .comma :: .reg r :: .rpar :: rest =>
    acsDualForm blk d s d2 m n r rest
  | _ => .error .noSuchForm

/-- The text `TRs += DESPREAD (Rmq, THRd)`, the other spelling of the accumulate form with n = s (R84, C1). -/
def parseAccumulate (blk : BlockSel) (d : RegText) : List Item → Except TextError Instr
  | .kw .despread :: .lpar :: .reg q :: .comma :: .reg t :: .rpar :: rest =>
    withoutOptions rest (despreadAccForm blk d q t d)
  | _ => .error .noSuchForm

/-- A slot's items after the block has been taken off (R62, R76 (1)). -/
def parseSlot (blk : BlockSel) : List Item → Except TextError Instr
  | .reg d :: .eq :: .reg s :: .comma :: .reg d2 :: .eq :: rest => parseDual blk d s d2 rest
  | .reg d :: .eq :: rest => parseSingle blk d rest
  | .reg d :: .plus :: .eq :: rest => parseAccumulate blk d rest
  | _ => .error .noSuchForm

/-- Whether an item is a register that carries a block letter. -/
def Item.hasBlk : Item → Bool
  | .reg t => t.blk.isSome
  | _ => false

/-- The block of a slot, written once before its first register name; omitted it is `XY` (R62, R64, D2; log 18). -/
def blkOf : List Item → Except TextError BlockSel
  | .reg d :: rest => if rest.any Item.hasBlk then .error .misplacedBlock else .ok (d.blk.getD .xy)
  | _ => .error .noSuchForm

/-- The checks of R68 and R74, by name. -/
def checked (i : Instr) : Except TextError Instr :=
  match i.failedCheck with
  | none => .ok i
  | some c => .error (.failed c)

/-- One slot's tokens to an instruction. -/
def decodeSlot (ts : List Token) : Except TextError Instr :=
  match itemsOf ts with
  | .error e => .error e
  | .ok items =>
    match blkOf items with
    | .error e => .error e
    | .ok blk =>
      match parseSlot blk items with
      | .error e => .error e
      | .ok i => checked i

/-- The slots of a line, in order. -/
def decodeSlots : List (List Token) → Except TextError Line
  | [] => .ok []
  | ts :: rest =>
    match decodeSlot ts with
    | .error e => .error e
    | .ok i => (decodeSlots rest).map (i :: ·)

/-- The characters of a line to its slots (R61). -/
def slotTokens (cs : List Char) : Except TextError (List (List Token)) :=
  match stripComments .text cs with
  | .error e => .error e
  | .ok text =>
    match tokens [] text with
    | .error e => .error e
    | .ok ts => slotsOf [] ts

/-- The transcriber: the bytes of one line of assembly text to the line, or a refusal by name (R60, R81). -/
def decodeLine (bytes : List Byte) : Except TextError Line :=
  match slotTokens (bytes.map charOfByte) with
  | .error e => .error e
  | .ok [] => .error .emptySlot
  | .ok (s :: ss) => decodeSlots (s :: ss)

/-- The text held in a number: its bytes from bit 0 upward, the first character lowest, up to the first zero byte
(log 1). -/
def textOfWord (nbits w : Nat) : List Byte :=
  ((List.range ((nbits + 7) / 8)).map fun k => BitVec.ofNat 8 (w / 2 ^ (8 * k))).takeWhile fun b => decide (b ≠ 0)

/-- The instruction the transcriber reads from a one-slot line whose text is held in `w` (log 1). -/
def decodeTableWord (nbits w : Nat) : Option Instr :=
  match decodeLine (textOfWord nbits w) with
  | .ok [i] => some i
  | _ => none

/-! ## The encoder: canonical text (R85) -/

/-- A piece of canonical text: a word or one separating character. -/
inductive Piece where
  | word (w : List Char)
  | sep (c : Char)
deriving DecidableEq, Repr

/-- The characters of a piece. -/
def Piece.text : Piece → List Char
  | .word w => w
  | .sep c => [c]

/-- A decimal numeral without leading zeros. -/
def numText (n : Nat) : List Char := Nat.toDigits 10 n

/-- The block letters; canonical text always writes them (R85). -/
def blkText : BlockSel → List Char
  | .x => ['X']
  | .y => ['Y']
  | .xy => ['X', 'Y']

/-- The size letter (R65). -/
def shortText (short : Bool) : List Char := if short then ['S'] else []

/-- The name of a register file. -/
def fileText : RegFile → List Char
  | .r => ['R']
  | .tr => ['T', 'R']
  | .thr => ['T', 'H', 'R']

/-- A single register (R66). -/
def oneText (f : RegFile) (i : Nat) : List Char := fileText f ++ numText i

/-- A register group `hi:lo` of `k + 1` registers (R67). -/
def groupText (f : RegFile) (k i : Nat) : List Char := fileText f ++ numText (i + k) ++ ':' :: numText i

/-- A blank, and the marks with the blanks of R85 around them. -/
def Piece.blank : Piece := .sep ' '

/-- ` = ` -/
def Piece.assign : List Piece := [.blank, .sep '=', .blank]

/-- ` + ` or ` - ` -/
def Piece.sign (isAdd : Bool) : List Piece := [.blank, .sep (if isAdd then '+' else '-'), .blank]

/-- `, ` -/
def Piece.next : List Piece := [.sep ',', .blank]

/-- A keyword. -/
def Piece.kw (k : Keyword) : Piece := .word (keywordText k)

/-- The add and subtract forms of TMAX and MAX. -/
def trellisPieces (k : Keyword) (isAdd : Bool) (blk : BlockSel) (short : Bool) (trs trm trn rq : Nat) : List Piece :=
  [.word (blkText blk ++ shortText short ++ groupText .tr 1 trs)] ++ Piece.assign ++ [.kw k, .sep '(',
    .word (groupText .tr 1 trm)] ++ Piece.sign isAdd ++ [.word (groupText .r 3 rq ++ ['_', 'h'])] ++ Piece.next ++
    [.word (groupText .tr 1 trn)] ++ Piece.sign isAdd ++ [.word (groupText .r 3 rq ++ ['_', 'l']), .sep ')']

/-- A transfer. -/
def transferPieces (blk : BlockSel) (dest source : List Char) : List Piece :=
  [.word (blkText blk ++ dest)] ++ Piece.assign ++ [.word source]

/-- An option in its own parentheses, one blank before it. -/
def optionPieces (ps : List Piece) : List Piece := [.blank, .sep '('] ++ ps ++ [.sep ')']

/-- An option that is one keyword. -/
def flagPieces (present : Bool) (k : Keyword) : List Piece := if present then optionPieces [.kw k] else []

/-- The CUT option (R70, R71). -/
def cutPieces : Cut → List Piece
  | .none => []
  | .imm k =>
    optionPieces ([.kw .cut, .blank] ++ (if k < 0 then [.sep '-'] else []) ++ [.word (numText k.natAbs)])
  | .reg => optionPieces [.kw .cut, .blank, .kw .r]

/-- `DESPREAD (Rmq, THRd)` -/
def despreadPieces (rq thrd : Nat) : List Piece :=
  [.kw .despread, .blank, .sep '(', .word (groupText .r 3 rq)] ++ Piece.next ++ [.word (groupText .thr 1 thrd), .sep ')']

/-- `TRsa = XCORRS (Rmq, THR3:0)` and its options, the destination already written. -/
def xcorrsPieces (rq : Nat) (cut : Cut) (clr ext : Bool) : List Piece :=
  [.kw .xcorrs, .blank, .sep '(', .word (groupText .r 3 rq)] ++ Piece.next ++ [.word (groupText .thr 3 0), .sep ')'] ++
    cutPieces cut ++ flagPieces clr .clr ++ flagPieces ext .ext

/-- `ACS (TRmd, TRnd, Rm)` and its option. -/
def acsPieces (trm trn rm : Nat) (tmax : Bool) : List Piece :=
  [.kw .acs, .blank, .sep '(', .word (groupText .tr 1 trm)] ++ Piece.next ++ [.word (groupText .tr 1 trn)] ++ Piece.next ++
    [.word (oneText .r rm), .sep ')'] ++ flagPieces tmax .tmax

/-- The move half of a dual operation and the comma after it. -/
def movePieces (blk : BlockSel) (dest source : List Char) : List Piece := transferPieces blk dest source ++ Piece.next

/-- The canonical text of a slot without its semicolon (R75, R85). -/
def slotPieces : Instr → List Piece
  | .tmaxAdd blk short trs trm trn rq => trellisPieces .tmax true blk short trs trm trn rq
  | .tmaxSub blk short trs trm trn rq => trellisPieces .tmax false blk short trs trm trn rq
  | .tmaxTr blk short rs trm trn =>
    [.word (blkText blk ++ shortText short ++ oneText .r rs)] ++ Piece.assign ++
      [.kw .tmax, .sep '(', .word (oneText .tr trm)] ++ Piece.next ++ [.word (oneText .tr trn), .sep ')']
  | .maxAdd blk short trs trm trn rq => trellisPieces .max true blk short trs trm trn rq
  | .maxSub blk short trs trm trn rq => trellisPieces .max false blk short trs trm trn rq
  | .movRTr blk rs trm => transferPieces blk (oneText .r rs) (oneText .tr trm)
  | .movRdTrd blk rs trm => transferPieces blk (groupText .r 1 rs) (groupText .tr 1 trm)
  | .movRqTrq blk rs trm => transferPieces blk (groupText .r 3 rs) (groupText .tr 3 trm)
  | .movTrR blk trs rm => transferPieces blk (oneText .tr trs) (oneText .r rm)
  | .movTrdRd blk trs rm => transferPieces blk (groupText .tr 1 trs) (groupText .r 1 rm)
  | .movTrqRq blk trs rm => transferPieces blk (groupText .tr 3 trs) (groupText .r 3 rm)
  | .movRThr blk rs thrm => transferPieces blk (oneText .r rs) (oneText .thr thrm)
  | .movRdThrd blk rs thrm => transferPieces blk (groupText .r 1 rs) (groupText .thr 1 thrm)
  | .movRqThrq blk rs => transferPieces blk (groupText .r 3 rs) (groupText .thr 3 0)
  | .movThrR blk thrs rm => transferPieces blk (oneText .thr thrs) (oneText .r rm)
  | .movThrdRd blk thrs rm optI =>
    transferPieces blk (groupText .thr 1 thrs) (groupText .r 1 rm) ++ (if optI then optionPieces [.word ['i']] else [])
  | .movThrqRq blk rm => transferPieces blk (groupText .thr 3 0) (groupText .r 3 rm)
  | .despreadAcc blk trs rq thrd trn =>
    [.word (blkText blk ++ oneText .tr trs)] ++ Piece.assign ++ despreadPieces rq thrd ++ Piece.sign true ++
      [.word (oneText .tr trn)]
  | .despreadMov blk rs trs rq thrd =>
    movePieces blk (oneText .r rs) (oneText .tr trs) ++ [.word (oneText .tr trs)] ++ Piece.assign ++
      despreadPieces rq thrd
  | .despreadMovd blk rs trs rq thrd =>
    movePieces blk (groupText .r 1 rs) (groupText .tr 1 trs) ++ [.word (groupText .tr 1 trs)] ++ Piece.assign ++
      despreadPieces rq thrd
  | .xcorrs blk base rq cut clr ext =>
    [.word (blkText blk ++ groupText .tr 15 base)] ++ Piece.assign ++ xcorrsPieces rq cut clr ext
  | .xcorrsMov blk rs trb base rq cut clr ext =>
    movePieces blk (groupText .r 3 rs) (groupText .tr 3 trb) ++ [.word (groupText .tr 15 base)] ++ Piece.assign ++
      xcorrsPieces rq cut clr ext
  | .acs blk short trs trm trn rm tmax =>
    [.word (blkText blk ++ shortText short ++ groupText .tr 3 trs)] ++ Piece.assign ++ acsPieces trm trn rm tmax
  | .acsMov blk rs tra short trs trm trn rm tmax =>
    movePieces blk (groupText .r 3 rs) (groupText .tr 3 tra) ++ [.word (shortText short ++ groupText .tr 3 trs)] ++
      Piece.assign ++ acsPieces trm trn rm tmax
  | .permuteD blk rs rm rn =>
    [.word (blkText blk ++ groupText .r 1 rs)] ++ Piece.assign ++ [.kw .permute, .blank, .sep '(',
      .word (groupText .r 1 rm)] ++ Piece.next ++ [.word (oneText .r rn), .sep ')']
  | .permuteQ blk rs rm rn =>
    [.word (blkText blk ++ groupText .r 3 rs)] ++ Piece.assign ++ [.kw .permute, .blank, .sep '(',
      .word (groupText .r 1 rm)] ++ Piece.next ++ [.sep '-', .word (groupText .r 1 rm)] ++ Piece.next ++
      [.word (oneText .r rn), .sep ')']

/-- The canonical text of a line: `;` after a slot, `;;` after the last (R61, R85). -/
def linePieces : Line → List Piece
  | [] => []
  | [i] => slotPieces i ++ [.sep ';', .sep ';']
  | i :: j :: is => slotPieces i ++ [.sep ';', .blank] ++ linePieces (j :: is)

/-- The bytes of a line's canonical text. -/
def encodeLine (l : Line) : List Byte :=
  ((linePieces l).flatMap Piece.text).map fun c => BitVec.ofNat 8 c.toNat

/-- The bytes of the line that holds one instruction. -/
def encode (i : Instr) : List Byte := encodeLine [i]

end Sys2Proof
end

