-- ==== Sys2Proof/Machine/State.lean ====
section
/-! DEFINITION. The state of the machine as plain data (10_state.md), the state at launch, and the reasons a step can
stop. The two compute blocks hold everything of R42; the pc and the program are shared (60_exceptions.md R212). -/

namespace Sys2Proof.Machine

/-- The state of one compute block (R42). -/
structure Block where
  /-- the data registers R0..R31 (R20) -/
  r : Vector Word 32
  /-- the trellis registers TR0..TR31 (R25) -/
  tr : Vector Word 32
  /-- the trellis history registers THR0..THR3 (R28) -/
  thr : Vector Word 4
  /-- the contents of CMCTL as a number; its width is not in the source (R32; log 5) -/
  cmctl : Nat
  /-- TROV of XSTAT/YSTAT (R35) -/
  trov : Bool
  /-- TRSOV of XSTAT/YSTAT (R36) -/
  trsov : Bool
  /-- the model's own: how many free values this block has drawn (R165; log 8) -/
  draws : Nat
deriving DecidableEq, Repr

/-- The state of the machine: both compute blocks, the pc (R40) and the program, a list of lines of assembly text
(R40, R43; log 1). -/
structure State where
  x : Block
  y : Block
  pc : Nat
  program : List (List Byte)
deriving DecidableEq, Repr

/-- The machine's one fault. -/
inductive Fault where
  /-- Raised by `step` when the pc has reached the end of the program: the run has ended (R190, D35; log 4). Safe: the
  spec says nothing of what follows. -/
  | endOfRun
deriving DecidableEq, Repr

/-- Why a step is refused (00_scope.md R12, 46_line_execution.md R191). -/
inductive Refusal where
  /-- Raised by an arm of `exec` for an instruction that has no meaning yet; no arm raises it. Safe. -/
  | notModelled (mnemonic : String)
  /-- Raised by `step`: the transcriber refuses the line's text (R81; log 19). Safe. -/
  | transcriber (e : TextError)
  /-- Raised by every meaning for a term that fails a check of R68 or R74; no text decodes to one (log 34). Safe. -/
  | illFormed (c : Check)
  /-- Raised by `step`: a line of no slot or of more than four (R61, R186; log 21). Safe. -/
  | slotCount
  /-- Raised by `step`: the block's slots are none of the combinations of R186 (log 21). Safe. -/
  | notAdmitted (b : BlockId)
  /-- Raised by `step`: two slots of the block write one register (R192; log 21). Safe. -/
  | writeConflict (b : BlockId)
  /-- Raised by ACS and its dual operation: semantics not in the source (R112, R113, D17; log 23). Safe. -/
  | acsNotInSource
  /-- Raised by both PERMUTE forms: semantics not in the source (R171, R172, D18; log 24). Safe. -/
  | permuteNotInSource
  /-- Raised by the two forms "Not implemented, but syntax reserved" (R80, R159, R162; log 25). Safe. -/
  | reservedForm
  /-- Raised by `THRsd = Rmd (i)`: the option's meaning is not in the source (R163, D19; log 26). Safe. -/
  | optionINotInSource
  /-- Raised by the XCORRS forms with `(EXT)`: layout not in the source (R141, D16; log 27). Safe. -/
  | extNotInSource
deriving DecidableEq, Repr

/-- A block at launch. The spec gives no value (R42, R220: "unspecified"): every register zero and both flags clear is
the model's DESIGN CHOICE, unsafe (log 3). The draw counter is the model's own (log 8). -/
def Block.reset : Block where
  r := Vector.replicate 32 0
  tr := Vector.replicate 32 0
  thr := Vector.replicate 4 0
  cmctl := 0
  trov := false
  trsov := false
  draws := 0

/-- The machine at launch: `pc` at 0, the first line (R42, R221), no program loaded (log 2). -/
def State.reset : State where
  x := Block.reset
  y := Block.reset
  pc := 0
  program := []

end Sys2Proof.Machine
end

