-- ==== Sys2Proof/Machine/Ops.lean ====
section
/-! DEFINITION. The named operations on registers and blocks, and the two ways a meaning ends: completing on the
selected blocks, or being refused. The machine has no memory (20_memory.md R50, R52) and takes no exception
(60_exceptions.md R200, R206), so there is no memory operation and no exception entry. -/

namespace Sys2Proof.Machine

/-! ## Registers (R9, R23, R30) -/

/-- `x[i]`, a read of one register (R9). Well-formed operands never reach the zero past the end of a file. -/
def Block.read (b : Block) : RegFile → Nat → Word
  | .r, i => b.r[i]?.getD 0
  | .tr, i => b.tr[i]?.getD 0
  | .thr, i => b.thr[i]?.getD 0

/-- `x[i] <- v`, a write of one register (R9). -/
def Block.write (b : Block) : RegFile → Nat → Word → Block
  | .r, i, v => { b with r := b.r.setIfInBounds i v }
  | .tr, i, v => { b with tr := b.tr.setIfInBounds i v }
  | .thr, i, v => { b with thr := b.thr.setIfInBounds i v }

/-- `Xd(i) = {X[i+1], X[i]}` (R9). -/
def Block.readD (b : Block) (f : RegFile) (i : Nat) : BitVec 64 :=
  b.read f (i + 1) ++ b.read f i

/-- `Xq(i) = {X[i+3], X[i+2], X[i+1], X[i]}` (R9). -/
def Block.readQ (b : Block) (f : RegFile) (i : Nat) : BitVec 128 :=
  b.readD f (i + 2) ++ b.readD f i

/-- `Xd(i) <- v` (R9). -/
def Block.writeD (b : Block) (f : RegFile) (i : Nat) (v : BitVec 64) : Block :=
  (b.write f i (v.extractLsb' 0 32)).write f (i + 1) (v.extractLsb' 32 32)

/-- `Xq(i) <- v` (R9). -/
def Block.writeQ (b : Block) (f : RegFile) (i : Nat) (v : BitVec 128) : Block :=
  (b.writeD f i (v.extractLsb' 0 64)).writeD f (i + 2) (v.extractLsb' 64 64)

/-- Consecutive registers from `i` on, the first value to `X[i]`. -/
def Block.writeGroup (b : Block) (f : RegFile) (i : Nat) : List Word → Block
  | [] => b
  | v :: vs => (b.write f i v).writeGroup f (i + 1) vs

/-! ## Blocks (R181) -/

/-- The state of block `b`. -/
def State.block (s : State) : BlockId → Block
  | .x => s.x
  | .y => s.y

/-- A per-block effect on every block the slot's `blk` selects, each on its own state (R181, R58, D28; log 32). -/
def State.onBlocks (s : State) (sel : BlockSel) (f : BlockId → Block → Block) : State :=
  { s with
    x := if sel.has .x then f .x s.x else s.x
    y := if sel.has .y then f .y s.y else s.y }

/-! ## Outcomes (R12) -/

/-- A meaning that completes: `f` on every selected block. A term that fails a check of R68 or R74 is refused by the
name of the check; the grammar refuses its text earlier (log 34). -/
def complete (i : Instr) (f : BlockId → Block → Block) (s : State) : Host.Outcome State Fault Refusal :=
  match i.failedCheck with
  | none => .next (s.onBlocks i.blk f)
  | some c => .refused (.illFormed c)

/-- A meaning the spec refuses (R12, R191), after the checks of R68. -/
def refuse (i : Instr) (r : Refusal) : Host.Outcome State Fault Refusal :=
  match i.failedCheck with
  | none => .refused r
  | some c => .refused (.illFormed c)

/-! ## Fetch (R180, R190) -/

/-- The text of the line at index `pc`; none when the run has ended (R190). -/
def State.fetch (s : State) : Option (List Byte) := s.program[s.pc]?

/-- The program with `text` as the line at index `pc`; lines below `pc` that do not exist become empty text. -/
def State.placeLine (s : State) (text : List Byte) : State :=
  { s with
    program := s.program.take s.pc ++ List.replicate (s.pc - s.program.length) [] ++ text :: s.program.drop (s.pc + 1) }

/-- After an admitted line, `pc <- pc + 1` (R190). -/
def State.advance (s : State) : State := { s with pc := s.pc + 1 }

end Sys2Proof.Machine
end

