-- ==== Sys2Proof/Machine/Acs.lean ====
section
/-! DEFINITION. The ACS instructions (41_acs.md R110 to R113). The spec refuses both: their semantics is not in the
source (D17; log 23). -/

namespace Sys2Proof.Machine

/-- `{S}TRsq = ACS (TRmd, TRnd, Rm) {(TMAX)}`: refused (R112, D17; log 23). -/
def execAcs (blk : BlockSel) (short : Bool) (trs trm trn rm : Nat) (tmax : Bool) (_s : State) :
    Host.Outcome State Fault Refusal :=
  refuse (.acs blk short trs trm trn rm tmax) .acsNotInSource

/-- `Rsq = TRaq, {S}TRsq = ACS (TRmd, TRnd, Rm) {(TMAX)}`: refused; the move half is not executed alone (R113, D17;
log 23). -/
def execAcsMov (blk : BlockSel) (rs tra : Nat) (short : Bool) (trs trm trn rm : Nat) (tmax : Bool) (_s : State) :
    Host.Outcome State Fault Refusal :=
  refuse (.acsMov blk rs tra short trs trm trn rm tmax) .acsNotInSource

end Sys2Proof.Machine
end

