-- ==== Sys2Proof/Machine/Operands.lean ====
section
/-! DEFINITION. The operand forms: lanes and their saturation, complex data and codes, the THR shift, the CUT option,
and the tables of the registers each form reads and writes (10_state.md R21, R26, R29). -/

namespace Sys2Proof.Machine

/-! ## Lanes (R8, R11, R94) -/

/-- `lane_N(v, j) = v[N*j+N-1 : N*j]` (R8). -/
def lane {w : Nat} (n : Nat) (v : BitVec w) (j : Nat) : BitVec n := v.extractLsb' (n * j) n

/-- The vector whose lanes are the listed ones, lane 0 first. -/
def packLanes (w : Nat) {n : Nat} : List (BitVec n) → BitVec w
  | [] => 0
  | v :: vs => v.setWidth w ||| (packLanes w vs <<< n)

/-- The lane width: 16 with the `S` prefix, 32 without (R65, R94, D5; log 13). -/
def laneWidth (short : Bool) : Nat := if short then 16 else 32

/-- `sat_N(z)` under a saturation mode (R11). -/
def satWith (mode : SatMode) (n : Nat) (z : Int) : BitVec n × Bool :=
  if z > 2 ^ (n - 1) - 1 then
    (match mode with
      | .on => BitVec.ofInt n (2 ^ (n - 1) - 1)
      | .wrap => BitVec.ofInt n z, true)
  else if z < -2 ^ (n - 1) then
    (match mode with
      | .on => BitVec.ofInt n (-2 ^ (n - 1))
      | .wrap => BitVec.ofInt n z, true)
  else (BitVec.ofInt n z, false)

/-- `sat_N(z)`: the N-bit result and the lane's overflow bit (R11; log 10). -/
def sat (n : Nat) (z : Int) : BitVec n × Bool := satWith Config.cluSat n z

/-! ## Complex data and codes (R121, R122, R131, R132) -/

/-- The real part of complex short `m` of `D` (R121). -/
def sampleRe (d : BitVec 128) (m : Nat) : Int := (d.extractLsb' (16 * m) 8).toInt

/-- The imaginary part of complex short `m` of `D` (R121). -/
def sampleIm (d : BitVec 128) (m : Nat) : Int := (d.extractLsb' (16 * m + 8) 8).toInt

/-- A code bit: +1 when clear, −1 when set (R122). -/
def codeBit {w : Nat} (t : BitVec w) (k : Nat) : Int := if t.getLsbD k then -1 else 1

/-- The real part of code `c`, bit `2c` (R122, R132; logs 14, 15). -/
def codeRe {w : Nat} (t : BitVec w) (c : Nat) : Int := codeBit t (2 * c)

/-- The imaginary part of code `c`, bit `2c+1` (R122, R132; logs 14, 15). -/
def codeIm {w : Nat} (t : BitVec w) (c : Nat) : Int := codeBit t (2 * c + 1)

/-- The real part of `D[m] * C[c]` (R123, R131). -/
def productRe {w : Nat} (d : BitVec 128) (t : BitVec w) (m c : Nat) : Int :=
  codeRe t c * sampleRe d m - codeIm t c * sampleIm d m

/-- The imaginary part of `D[m] * C[c]` (R123, R131). -/
def productIm {w : Nat} (d : BitVec 128) (t : BitVec w) (m c : Nat) : Int :=
  codeRe t c * sampleIm d m + codeIm t c * sampleRe d m

/-- The real short of a complex word (R8). -/
def wordRe (c : Word) : Int := (c.extractLsb' 0 16).toInt

/-- The imaginary short of a complex word (R8). -/
def wordIm (c : Word) : Int := (c.extractLsb' 16 16).toInt

/-- `{zq, zi}`: the complex word of two saturated parts, and whether either overflowed (R124, R138). -/
def satComplex (i q : Int) : Word × Bool :=
  ((sat 16 q).1 ++ (sat 16 i).1, (sat 16 i).2 || (sat 16 q).2)

/-- `shr16_W(v) = {fill16, v[W-1:16]}` (R31; log 9). -/
def shr16 {w : Nat} (v : BitVec w) : BitVec w :=
  (Config.thrShiftFill.setWidth w <<< (w - 16)) ||| (v >>> 16)

/-! ## The CUT option (R133 to R135) -/

/-- `fCUT(cut, w)` (R133, C2). -/
def fCut (cut : Int) (w : Nat) : Bool :=
  if cut = 0 then true
  else if 0 < cut then decide ((w : Int) < cut)
  else decide (-cut ≤ (w : Int))

/-- The CUT value: 0 without the option, the immediate, or `CutOf(CMCTL)` of the executing block (R134, R135; log 6). -/
def cutValue (b : Block) : Cut → Int
  | .none => 0
  | .imm k => k
  | .reg => Config.cutOf b.cmctl

/-! ## Which registers a form reads and writes (R21, R26, R29) -/

/-- The `k` registers of file `f` from `i` on. -/
def regRange (f : RegFile) (i k : Nat) : List Reg := (List.range k).map fun j => ⟨f, i + j⟩

/-- The registers a form writes with a result or a copy (R21, R26, R29). The two reserved forms list none ("reserved, not
implemented"); the rows of ACS and PERMUTE stand as the tables give them, although the machine refuses these forms. -/
def resultsOf : Instr → List Reg
  | .tmaxAdd _ _ trs _ _ _ => regRange .tr trs 2
  | .tmaxSub _ _ trs _ _ _ => regRange .tr trs 2
  | .tmaxTr _ _ rs _ _ => regRange .r rs 1
  | .maxAdd _ _ trs _ _ _ => regRange .tr trs 2
  | .maxSub _ _ trs _ _ _ => regRange .tr trs 2
  | .movRTr _ rs _ => regRange .r rs 1
  | .movRdTrd _ rs _ => regRange .r rs 2
  | .movRqTrq _ rs _ => regRange .r rs 4
  | .movTrR _ trs _ => regRange .tr trs 1
  | .movTrdRd _ trs _ => regRange .tr trs 2
  | .movTrqRq _ trs _ => regRange .tr trs 4
  | .movRThr _ rs _ => regRange .r rs 1
  | .movRdThrd _ rs _ => regRange .r rs 2
  | .movRqThrq _ _ => []
  | .movThrR _ thrs _ => regRange .thr thrs 1
  | .movThrdRd _ thrs _ _ => regRange .thr thrs 2
  | .movThrqRq _ _ => []
  | .despreadAcc _ trs _ _ _ => regRange .tr trs 1
  | .despreadMov _ rs trs _ _ => regRange .r rs 1 ++ regRange .tr trs 1
  | .despreadMovd _ rs trs _ _ => regRange .r rs 2 ++ regRange .tr trs 2
  | .xcorrs _ base _ _ _ _ => regRange .tr base 16
  | .xcorrsMov _ rs _ base _ _ _ _ => regRange .r rs 4 ++ regRange .tr base 16
  | .acs _ _ trs _ _ _ _ => regRange .tr trs 4
  | .acsMov _ rs _ _ trs _ _ _ _ => regRange .r rs 4 ++ regRange .tr trs 4
  | .permuteD _ rs _ _ => regRange .r rs 2
  | .permuteQ _ rs _ _ => regRange .r rs 4

/-- The trellis history registers a form shifts (R29, R31). Which of them ACS writes is not in the source (R29, R111). -/
def shiftedOf : Instr → List Reg
  | .tmaxAdd _ _ _ _ _ _ => []
  | .tmaxSub _ _ _ _ _ _ => []
  | .tmaxTr _ _ _ _ _ => []
  | .maxAdd _ _ _ _ _ _ => []
  | .maxSub _ _ _ _ _ _ => []
  | .movRTr _ _ _ => []
  | .movRdTrd _ _ _ => []
  | .movRqTrq _ _ _ => []
  | .movTrR _ _ _ => []
  | .movTrdRd _ _ _ => []
  | .movTrqRq _ _ _ => []
  | .movRThr _ _ _ => []
  | .movRdThrd _ _ _ => []
  | .movRqThrq _ _ => []
  | .movThrR _ _ _ => []
  | .movThrdRd _ _ _ _ => []
  | .movThrqRq _ _ => []
  | .despreadAcc _ _ _ thrd _ => regRange .thr thrd 2
  | .despreadMov _ _ _ _ thrd => regRange .thr thrd 2
  | .despreadMovd _ _ _ _ thrd => regRange .thr thrd 2
  | .xcorrs _ _ _ _ _ _ => regRange .thr 0 4
  | .xcorrsMov _ _ _ _ _ _ _ _ => regRange .thr 0 4
  | .acs _ _ _ _ _ _ _ => []
  | .acsMov _ _ _ _ _ _ _ _ _ => []
  | .permuteD _ _ _ _ => []
  | .permuteQ _ _ _ _ => []

/-- Every register a form writes. -/
def writesOf (i : Instr) : List Reg := resultsOf i ++ shiftedOf i

/-- The registers a form reads (R21, R26, R29), the refused forms as in `resultsOf`. With `(CLR)` the old accumulators are
not read (R26, R136). -/
def readsOf : Instr → List Reg
  | .tmaxAdd _ _ _ trm trn rq => regRange .tr trm 2 ++ regRange .tr trn 2 ++ regRange .r rq 4
  | .tmaxSub _ _ _ trm trn rq => regRange .tr trm 2 ++ regRange .tr trn 2 ++ regRange .r rq 4
  | .tmaxTr _ _ _ trm trn => regRange .tr trm 1 ++ regRange .tr trn 1
  | .maxAdd _ _ _ trm trn rq => regRange .tr trm 2 ++ regRange .tr trn 2 ++ regRange .r rq 4
  | .maxSub _ _ _ trm trn rq => regRange .tr trm 2 ++ regRange .tr trn 2 ++ regRange .r rq 4
  | .movRTr _ _ trm => regRange .tr trm 1
  | .movRdTrd _ _ trm => regRange .tr trm 2
  | .movRqTrq _ _ trm => regRange .tr trm 4
  | .movTrR _ _ rm => regRange .r rm 1
  | .movTrdRd _ _ rm => regRange .r rm 2
  | .movTrqRq _ _ rm => regRange .r rm 4
  | .movRThr _ _ thrm => regRange .thr thrm 1
  | .movRdThrd _ _ thrm => regRange .thr thrm 2
  | .movRqThrq _ _ => []
  | .movThrR _ _ rm => regRange .r rm 1
  | .movThrdRd _ _ rm _ => regRange .r rm 2
  | .movThrqRq _ _ => []
  | .despreadAcc _ _ rq thrd trn => regRange .r rq 4 ++ regRange .thr thrd 2 ++ regRange .tr trn 1
  | .despreadMov _ _ trs rq thrd => regRange .r rq 4 ++ regRange .thr thrd 2 ++ regRange .tr trs 1
  | .despreadMovd _ _ trs rq thrd => regRange .r rq 4 ++ regRange .thr thrd 2 ++ regRange .tr trs 2
  | .xcorrs _ base rq _ clr _ =>
    regRange .r rq 4 ++ regRange .thr 0 4 ++ (if clr then [] else regRange .tr base 16)
  | .xcorrsMov _ _ trb base rq _ clr _ =>
    regRange .r rq 4 ++ regRange .thr 0 4 ++ regRange .tr trb 4 ++ (if clr then [] else regRange .tr base 16)
  | .acs _ _ _ trm trn rm _ => regRange .tr trm 2 ++ regRange .tr trn 2 ++ regRange .r rm 1
  | .acsMov _ _ tra _ _ trm trn rm _ =>
    regRange .tr trm 2 ++ regRange .tr trn 2 ++ regRange .r rm 1 ++ regRange .tr tra 4
  | .permuteD _ _ rm rn => regRange .r rm 2 ++ regRange .r rn 1
  | .permuteQ _ _ rm rn => regRange .r rm 2 ++ regRange .r rn 1

end Sys2Proof.Machine
end

