-- ==== Sys2Proof/Machine/Flags.lean ====
section
/-! DEFINITION. The two CLU flags of XSTAT/YSTAT (10_state.md R34 to R36): what an arithmetic form writes
(46_line_execution.md R184, R185) and what a transfer leaves (44_transfers.md R165). -/

namespace Sys2Proof.Machine

/-- An arithmetic form writes TROV with the OR of its lanes' overflow bits and ORs it into TRSOV (R184, R185). -/
def Block.setFlags (b : Block) (ov : Bool) : Block :=
  { b with trov := ov, trsov := b.trsov || ov }

/-- After a transfer TROV is a draw from {its old value, 0} and TRSOV is unchanged (R165, D20, U7). The draw is the free
value `Config.trovKept` at the block's own counter, which the transfer advances (logs 7, 8). -/
def Block.drawTrov (b : Block) (id : BlockId) : Block :=
  { b with trov := b.trov && Config.trovKept id b.draws, draws := b.draws + 1 }

end Sys2Proof.Machine
end

