-- ==== Sys2Proof/Machine/Despread.lean ====
section
/-! DEFINITION. The DESPREAD instructions (42_despread.md R120 to R128). -/

namespace Sys2Proof.Machine

/-- The real part of `dsum(D, T, lo, hi)` (R123). -/
def dsumRe (d : BitVec 128) (t : BitVec 64) (lo hi : Nat) : Int :=
  ((List.range' lo (hi + 1 - lo)).map fun n => productRe d t n n).sum

/-- The imaginary part of `dsum(D, T, lo, hi)` (R123). -/
def dsumIm (d : BitVec 128) (t : BitVec 64) (lo hi : Nat) : Int :=
  ((List.range' lo (hi + 1 - lo)).map fun n => productIm d t n n).sum

/-- `THRd(thrd) <- shr16_64(T)`, the post-shift of every DESPREAD form (R123, R127). -/
def Block.shiftThrd (b : Block) (thrd : Nat) : Block := b.writeD .thr thrd (shr16 (b.readD .thr thrd))

/-- `TRs = DESPREAD (Rmq, THRd) + TRn` on one block (R124). -/
def despreadAccBlock (trs rq thrd trn : Nat) (b : Block) : Block :=
  let d := b.readQ .r rq
  let t := b.readD .thr thrd
  let c := b.read .tr trn
  let z := satComplex (dsumRe d t 0 7 + wordRe c) (dsumIm d t 0 7 + wordIm c)
  ((b.write .tr trs z.1).shiftThrd thrd).setFlags z.2

/-- `Rs = TRs, TRs = DESPREAD (Rmq, THRd)` on one block (R125, C6). -/
def despreadMovBlock (rs trs rq thrd : Nat) (b : Block) : Block :=
  let d := b.readQ .r rq
  let t := b.readD .thr thrd
  let z := satComplex (dsumRe d t 0 7) (dsumIm d t 0 7)
  (((b.write .r rs (b.read .tr trs)).write .tr trs z.1).shiftThrd thrd).setFlags z.2

/-- `Rsd = TRsd, TRsd = DESPREAD (Rmq, THRd)` on one block (R126): samples 0..3 to the lower register, 4..7 to the
upper. Each half-sum fits 16 bits, and TROV is written with 0. -/
def despreadMovdBlock (rs trs rq thrd : Nat) (b : Block) : Block :=
  let d := b.readQ .r rq
  let t := b.readD .thr thrd
  let r0 := BitVec.ofInt 16 (dsumIm d t 0 3) ++ BitVec.ofInt 16 (dsumRe d t 0 3)
  let r1 := BitVec.ofInt 16 (dsumIm d t 4 7) ++ BitVec.ofInt 16 (dsumRe d t 4 7)
  ((((b.writeD .r rs (b.readD .tr trs)).write .tr trs r0).write .tr (trs + 1) r1).shiftThrd thrd).setFlags false

/-- `TRs = DESPREAD (Rmq, THRd) + TRn` (R124). -/
def execDespreadAcc (blk : BlockSel) (trs rq thrd trn : Nat) (s : State) : Host.Outcome State Fault Refusal :=
  complete (.despreadAcc blk trs rq thrd trn) (fun _ b => despreadAccBlock trs rq thrd trn b) s

/-- `Rs = TRs, TRs = DESPREAD (Rmq, THRd)` (R125). -/
def execDespreadMov (blk : BlockSel) (rs trs rq thrd : Nat) (s : State) : Host.Outcome State Fault Refusal :=
  complete (.despreadMov blk rs trs rq thrd) (fun _ b => despreadMovBlock rs trs rq thrd b) s

/-- `Rsd = TRsd, TRsd = DESPREAD (Rmq, THRd)` (R126). -/
def execDespreadMovd (blk : BlockSel) (rs trs rq thrd : Nat) (s : State) : Host.Outcome State Fault Refusal :=
  complete (.despreadMovd blk rs trs rq thrd) (fun _ b => despreadMovdBlock rs trs rq thrd b) s

end Sys2Proof.Machine
end

