-- ==== Sys2Proof/Machine/Permute.lean ====
section
/-! DEFINITION. The PERMUTE instructions (45_permute.md R170 to R172). The spec refuses both: their semantics is not in
the source (D18; log 24). -/

namespace Sys2Proof.Machine

/-- `Rsd = PERMUTE (Rmd, Rn)`: refused (R171, D18; log 24). -/
def execPermuteD (blk : BlockSel) (rs rm rn : Nat) (_s : State) : Host.Outcome State Fault Refusal :=
  refuse (.permuteD blk rs rm rn) .permuteNotInSource

/-- `Rsq = PERMUTE (Rmd, -Rmd, Rn)`: refused (R172, D18; log 24). -/
def execPermuteQ (blk : BlockSel) (rs rm rn : Nat) (_s : State) : Host.Outcome State Fault Refusal :=
  refuse (.permuteQ blk rs rm rn) .permuteNotInSource

end Sys2Proof.Machine
end

