-- ==== Sys2Proof/Machine/Transfers.lean ====
section
/-! DEFINITION. The register transfers (44_transfers.md R150 to R165): bit-for-bit copies within a block, TROV a draw
afterwards; the two reserved forms and the option `(i)` are refused. -/

namespace Sys2Proof.Machine

/-- The shared shape of a transfer: a copy within the block, then the flags of R165. -/
def transfer (i : Instr) (copy : Block → Block) (s : State) : Host.Outcome State Fault Refusal :=
  complete i (fun id b => (copy b).drawTrov id) s

/-- `Rs = TRm`: `R[rs] <- TR[trm]` (R151). -/
def execMovRTr (blk : BlockSel) (rs trm : Nat) (s : State) : Host.Outcome State Fault Refusal :=
  transfer (.movRTr blk rs trm) (fun b => b.write .r rs (b.read .tr trm)) s

/-- `Rsd = TRmd`: `Rd(rs) <- TRd(trm)` (R152). -/
def execMovRdTrd (blk : BlockSel) (rs trm : Nat) (s : State) : Host.Outcome State Fault Refusal :=
  transfer (.movRdTrd blk rs trm) (fun b => b.writeD .r rs (b.readD .tr trm)) s

/-- `Rsq = TRmq`: `Rq(rs) <- TRq(trm)` (R153). -/
def execMovRqTrq (blk : BlockSel) (rs trm : Nat) (s : State) : Host.Outcome State Fault Refusal :=
  transfer (.movRqTrq blk rs trm) (fun b => b.writeQ .r rs (b.readQ .tr trm)) s

/-- `TRs = Rm`: `TR[trs] <- R[rm]` (R154). -/
def execMovTrR (blk : BlockSel) (trs rm : Nat) (s : State) : Host.Outcome State Fault Refusal :=
  transfer (.movTrR blk trs rm) (fun b => b.write .tr trs (b.read .r rm)) s

/-- `TRsd = Rmd`: `TRd(trs) <- Rd(rm)` (R155). -/
def execMovTrdRd (blk : BlockSel) (trs rm : Nat) (s : State) : Host.Outcome State Fault Refusal :=
  transfer (.movTrdRd blk trs rm) (fun b => b.writeD .tr trs (b.readD .r rm)) s

/-- `TRsq = Rmq`: `TRq(trs) <- Rq(rm)` (R156). -/
def execMovTrqRq (blk : BlockSel) (trs rm : Nat) (s : State) : Host.Outcome State Fault Refusal :=
  transfer (.movTrqRq blk trs rm) (fun b => b.writeQ .tr trs (b.readQ .r rm)) s

/-- `Rs = THRm`: `R[rs] <- THR[thrm]` (R157). -/
def execMovRThr (blk : BlockSel) (rs thrm : Nat) (s : State) : Host.Outcome State Fault Refusal :=
  transfer (.movRThr blk rs thrm) (fun b => b.write .r rs (b.read .thr thrm)) s

/-- `Rsd = THRmd`: `Rd(rs) <- THRd(thrm)` (R158). -/
def execMovRdThrd (blk : BlockSel) (rs thrm : Nat) (s : State) : Host.Outcome State Fault Refusal :=
  transfer (.movRdThrd blk rs thrm) (fun b => b.writeD .r rs (b.readD .thr thrm)) s

/-- `Rsq = THRmq`: "Not implemented, but syntax reserved", refused (R159, R80, D27; log 25). -/
def execMovRqThrq (blk : BlockSel) (rs : Nat) (_s : State) : Host.Outcome State Fault Refusal :=
  refuse (.movRqThrq blk rs) .reservedForm

/-- `THRs = Rm`: `THR[thrs] <- R[rm]` (R160). -/
def execMovThrR (blk : BlockSel) (thrs rm : Nat) (s : State) : Host.Outcome State Fault Refusal :=
  transfer (.movThrR blk thrs rm) (fun b => b.write .thr thrs (b.read .r rm)) s

/-- `THRsd = Rmd`: `THRd(thrs) <- Rd(rm)` (R161); with `(i)` refused (R163, D19; log 26). -/
def execMovThrdRd (blk : BlockSel) (thrs rm : Nat) (optI : Bool) (s : State) : Host.Outcome State Fault Refusal :=
  if optI then refuse (.movThrdRd blk thrs rm optI) .optionINotInSource
  else transfer (.movThrdRd blk thrs rm optI) (fun b => b.writeD .thr thrs (b.readD .r rm)) s

/-- `THRsq = Rmq`: "Not implemented, but syntax reserved", refused (R162, R80, D27; log 25). -/
def execMovThrqRq (blk : BlockSel) (rm : Nat) (_s : State) : Host.Outcome State Fault Refusal :=
  refuse (.movThrqRq blk rm) .reservedForm

end Sys2Proof.Machine
end

