-- ==== Sys2Proof/Machine/Trellis.lean ====
section
/-! DEFINITION. The TMAX function and the TMAX/MAX trellis instructions (40_tmax_max.md R90 to R99). -/

namespace Sys2Proof.Machine

/-! ## The TMAX function (R90 to R93) -/

/-- Table 4-1: the correction for the table input `t`, in units of 1/32 (R92); 0 beyond seven bits (R91). -/
def tmaxTab (t : Nat) : Int :=
  if t ≤ 1 then 22
  else if t ≤ 3 then 21
  else if t ≤ 5 then 20
  else if t ≤ 7 then 19
  else if t ≤ 9 then 18
  else if t ≤ 11 then 17
  else if t ≤ 15 then 16
  else if t ≤ 19 then 14
  else if t ≤ 23 then 13
  else if t ≤ 27 then 12
  else if t ≤ 31 then 11
  else if t ≤ 35 then 10
  else if t ≤ 39 then 8
  else if t ≤ 47 then 7
  else if t ≤ 55 then 6
  else if t ≤ 63 then 5
  else if t ≤ 79 then 3
  else if t ≤ 95 then 2
  else if t ≤ 127 then 1
  else 0

/-- The table input of a compare-subtract result: `d`, or its bitwise inversion `-d - 1` when negative (R91). -/
def tmaxIndex (d : Int) : Nat := if 0 ≤ d then d.toNat else (-d - 1).toNat

/-- The compare-subtract, exact (R91, D8; log 11). -/
def compareSub (order : SubOrder) (a b : Int) : Int :=
  match order with
  | .firstMinusSecond => a - b
  | .secondMinusFirst => b - a

/-- `corr(a, b)` (R91). -/
def corr (a b : Int) : Int := tmaxTab (tmaxIndex (compareSub Config.tmaxSubOrder a b))

/-- `tmax(a, b) = max(a, b) + corr(a, b)` (R93). -/
def tmax (a b : Int) : Int := max a b + corr a b

/-! ## Lanes (R94, R95, R96, R98) -/

/-- A lane of the sum or difference, saturated (R95, R96; the trellis lane is the minuend). -/
def addSubLane {n : Nat} (isAdd : Bool) (a h : BitVec n) : BitVec n × Bool :=
  sat n (if isAdd then a.toInt + h.toInt else a.toInt - h.toInt)

/-- A lane of the selection: TMAX saturated again, or the signed maximum, which cannot overflow (R95, R98, D7; log 12). -/
def selectLane {n : Nat} (isTmax : Bool) (p r : BitVec n) : BitVec n × Bool :=
  if isTmax then sat n (tmax p.toInt r.toInt) else (BitVec.ofInt n (max p.toInt r.toInt), false)

/-- One lane of the add and subtract forms: the result and the OR of its overflow bits (R95). -/
def trellisLane {n : Nat} (isTmax isAdd : Bool) (a h b l : BitVec n) : BitVec n × Bool :=
  let p := addSubLane isAdd a h
  let r := addSubLane isAdd b l
  let z := selectLane isTmax p.1 r.1
  (z.1, p.2 || r.2 || z.2)

/-- All lanes of the add and subtract forms; lane j of every operand pairs with lane j (R94, D9; log 13). -/
def trellisLanes (isTmax isAdd : Bool) (n : Nat) (a h b l : BitVec 64) : List (BitVec n × Bool) :=
  (List.range (64 / n)).map fun j => trellisLane isTmax isAdd (lane n a j) (lane n h j) (lane n b j) (lane n l j)

/-- All lanes of `TMAX(TRm, TRn)` (R97). -/
def tmaxTrLanes (n : Nat) (a b : Word) : List (BitVec n × Bool) :=
  (List.range (32 / n)).map fun j => selectLane true (lane n a j) (lane n b j)

/-- The effect of an add or subtract form on one block (R95, R96, R98, R99): `H = Q[127:64]`, `L = Q[63:0]`. -/
def trellisBlock (isTmax isAdd short : Bool) (trs trm trn rq : Nat) (b : Block) : Block :=
  let q := b.readQ .r rq
  let out := trellisLanes isTmax isAdd (laneWidth short) (b.readD .tr trm) (q.extractLsb' 64 64) (b.readD .tr trn)
    (q.extractLsb' 0 64)
  (b.writeD .tr trs (packLanes 64 (out.map Prod.fst))).setFlags (out.any Prod.snd)

/-- The effect of `TMAX(TRm, TRn)` on one block (R97). -/
def tmaxTrBlock (short : Bool) (rs trm trn : Nat) (b : Block) : Block :=
  let out := tmaxTrLanes (laneWidth short) (b.read .tr trm) (b.read .tr trn)
  (b.write .r rs (packLanes 32 (out.map Prod.fst))).setFlags (out.any Prod.snd)

/-! ## The instructions -/

/-- `{S}TRsd = TMAX(TRmd + Rmq_h, TRnd + Rmq_l)` (R95). -/
def execTmaxAdd (blk : BlockSel) (short : Bool) (trs trm trn rq : Nat) (s : State) :
    Host.Outcome State Fault Refusal :=
  complete (.tmaxAdd blk short trs trm trn rq) (fun _ b => trellisBlock true true short trs trm trn rq b) s

/-- `{S}TRsd = TMAX(TRmd - Rmq_h, TRnd - Rmq_l)` (R96). -/
def execTmaxSub (blk : BlockSel) (short : Bool) (trs trm trn rq : Nat) (s : State) :
    Host.Outcome State Fault Refusal :=
  complete (.tmaxSub blk short trs trm trn rq) (fun _ b => trellisBlock true false short trs trm trn rq b) s

/-- `{S}Rs = TMAX(TRm, TRn)` (R97, C3). -/
def execTmaxTr (blk : BlockSel) (short : Bool) (rs trm trn : Nat) (s : State) : Host.Outcome State Fault Refusal :=
  complete (.tmaxTr blk short rs trm trn) (fun _ b => tmaxTrBlock short rs trm trn b) s

/-- `{S}TRsd = MAX(TRmd + Rmq_h, TRnd + Rmq_l)` (R98). -/
def execMaxAdd (blk : BlockSel) (short : Bool) (trs trm trn rq : Nat) (s : State) :
    Host.Outcome State Fault Refusal :=
  complete (.maxAdd blk short trs trm trn rq) (fun _ b => trellisBlock false true short trs trm trn rq b) s

/-- `{S}TRsd = MAX(TRmd - Rmq_h, TRnd - Rmq_l)` (R99). -/
def execMaxSub (blk : BlockSel) (short : Bool) (trs trm trn rq : Nat) (s : State) :
    Host.Outcome State Fault Refusal :=
  complete (.maxSub blk short trs trm trn rq) (fun _ b => trellisBlock false false short trs trm trn rq b) s

end Sys2Proof.Machine
end

