-- ==== Sys2Proof/Machine/Xcorrs.lean ====
section
/-! DEFINITION. The XCORRS instructions (43_xcorrs.md R130 to R142). -/

namespace Sys2Proof.Machine

/-- The samples `m` of delay `k` whose term the CUT value keeps; the code index is `w = m − k + 15`, in 0..22 (R131,
R133). -/
def keptSamples (cut : Int) (k : Nat) : List Nat := (List.range 8).filter fun m => fCut cut (m + 15 - k)

/-- The real part of delay `k`'s sum (R131, R138). -/
def delayRe (d t : BitVec 128) (cut : Int) (k : Nat) : Int :=
  ((keptSamples cut k).map fun m => productRe d t m (m + 15 - k)).sum

/-- The imaginary part of delay `k`'s sum (R131, R138). -/
def delayIm (d t : BitVec 128) (cut : Int) (k : Nat) : Int :=
  ((keptSamples cut k).map fun m => productIm d t m (m + 15 - k)).sum

/-- The new accumulator of delay `k` and its overflow bit (R138): from zero with CLR (R136), saturated once after the
last term (D34; log 10). -/
def xcorrsDelay (d t : BitVec 128) (cut : Int) (clr : Bool) (old : Word) (k : Nat) : Word × Bool :=
  satComplex ((if clr then 0 else wordRe old) + delayRe d t cut k) ((if clr then 0 else wordIm old) + delayIm d t cut k)

/-- The sixteen new accumulators (R138). -/
def xcorrsOut (base rq : Nat) (cut : Cut) (clr : Bool) (b : Block) : List (Word × Bool) :=
  (List.range 16).map fun k =>
    xcorrsDelay (b.readQ .r rq) (b.readQ .thr 0) (cutValue b cut) clr (b.read .tr (base + k)) k

/-- `TRsa = XCORRS (Rmq, THR3:0)` on one block (R138); `THR3:0 = THR3:0 >> 16` once per instruction. -/
def xcorrsBlock (base rq : Nat) (cut : Cut) (clr : Bool) (b : Block) : Block :=
  let out := xcorrsOut base rq cut clr b
  ((b.writeGroup .tr base (out.map Prod.fst)).writeQ .thr 0 (shr16 (b.readQ .thr 0))).setFlags (out.any Prod.snd)

/-- `TRsa = XCORRS (Rmq, THRnq) …` (R138); with `(EXT)` refused (R141, D16; log 27). -/
def execXcorrs (blk : BlockSel) (base rq : Nat) (cut : Cut) (clr ext : Bool) (s : State) :
    Host.Outcome State Fault Refusal :=
  if ext then refuse (.xcorrs blk base rq cut clr ext) .extNotInSource
  else complete (.xcorrs blk base rq cut clr ext) (fun _ b => xcorrsBlock base rq cut clr b) s

/-- `Rsq = TRbq, TRsa = XCORRS (Rmq, THRnq) …` (R139): the move takes the value before the operation; with `(EXT)`
refused (R141, D16; log 27). -/
def execXcorrsMov (blk : BlockSel) (rs trb base rq : Nat) (cut : Cut) (clr ext : Bool) (s : State) :
    Host.Outcome State Fault Refusal :=
  if ext then refuse (.xcorrsMov blk rs trb base rq cut clr ext) .extNotInSource
  else complete (.xcorrsMov blk rs trb base rq cut clr ext)
    (fun _ b => (xcorrsBlock base rq cut clr b).writeQ .r rs (b.readQ .tr trb)) s

end Sys2Proof.Machine
end

