-- ==== Sys2Proof/Machine/Dispatch.lean ====
section
/-! DEFINITION. The dispatch of one slot to the rule of its form (46_line_execution.md R182): no default arm. -/

namespace Sys2Proof.Machine

def exec (i : Instr) (s : State) : Host.Outcome State Fault Refusal :=
  match i with
  | .tmaxAdd blk short trs trm trn rq => Sys2Proof.Machine.execTmaxAdd blk short trs trm trn rq s
  | .tmaxSub blk short trs trm trn rq => Sys2Proof.Machine.execTmaxSub blk short trs trm trn rq s
  | .tmaxTr blk short rs trm trn => Sys2Proof.Machine.execTmaxTr blk short rs trm trn s
  | .maxAdd blk short trs trm trn rq => Sys2Proof.Machine.execMaxAdd blk short trs trm trn rq s
  | .maxSub blk short trs trm trn rq => Sys2Proof.Machine.execMaxSub blk short trs trm trn rq s
  | .movRTr blk rs trm => Sys2Proof.Machine.execMovRTr blk rs trm s
  | .movRdTrd blk rs trm => Sys2Proof.Machine.execMovRdTrd blk rs trm s
  | .movRqTrq blk rs trm => Sys2Proof.Machine.execMovRqTrq blk rs trm s
  | .movTrR blk trs rm => Sys2Proof.Machine.execMovTrR blk trs rm s
  | .movTrdRd blk trs rm => Sys2Proof.Machine.execMovTrdRd blk trs rm s
  | .movTrqRq blk trs rm => Sys2Proof.Machine.execMovTrqRq blk trs rm s
  | .movRThr blk rs thrm => Sys2Proof.Machine.execMovRThr blk rs thrm s
  | .movRdThrd blk rs thrm => Sys2Proof.Machine.execMovRdThrd blk rs thrm s
  | .movRqThrq blk rs => Sys2Proof.Machine.execMovRqThrq blk rs s
  | .movThrR blk thrs rm => Sys2Proof.Machine.execMovThrR blk thrs rm s
  | .movThrdRd blk thrs rm optI => Sys2Proof.Machine.execMovThrdRd blk thrs rm optI s
  | .movThrqRq blk rm => Sys2Proof.Machine.execMovThrqRq blk rm s
  | .despreadAcc blk trs rq thrd trn => Sys2Proof.Machine.execDespreadAcc blk trs rq thrd trn s
  | .despreadMov blk rs trs rq thrd => Sys2Proof.Machine.execDespreadMov blk rs trs rq thrd s
  | .despreadMovd blk rs trs rq thrd => Sys2Proof.Machine.execDespreadMovd blk rs trs rq thrd s
  | .xcorrs blk base rq cut clr ext => Sys2Proof.Machine.execXcorrs blk base rq cut clr ext s
  | .xcorrsMov blk rs trb base rq cut clr ext => Sys2Proof.Machine.execXcorrsMov blk rs trb base rq cut clr ext s
  | .acs blk short trs trm trn rm tmax => Sys2Proof.Machine.execAcs blk short trs trm trn rm tmax s
  | .acsMov blk rs tra short trs trm trn rm tmax => Sys2Proof.Machine.execAcsMov blk rs tra short trs trm trn rm tmax s
  | .permuteD blk rs rm rn => Sys2Proof.Machine.execPermuteD blk rs rm rn s
  | .permuteQ blk rs rm rn => Sys2Proof.Machine.execPermuteQ blk rs rm rn s

end Sys2Proof.Machine
end

