-- ==== Sys2Proof/Machine/Line.lean ====
section
/-! DEFINITION. The execution of an instruction line: which slots may share it (46_line_execution.md R186, R192), the
slots executed on the state before the line (R188), their results joined block by block (R187, R189), refusal (R191). -/

namespace Sys2Proof.Machine

/-- What a slot is to the admission rule R186; (b) and (c) name the arithmetic forms and the loads. -/
inductive SlotKind where
  /-- the TMAX/MAX forms of (b) -/
  | trellis
  /-- the DESPREAD and XCORRS forms of (c) -/
  | correlator
  /-- a load of trellis registers -/
  | trLoad
  /-- a load of trellis history registers, without `(i)` -/
  | thrLoad
  /-- any other form: alone in its block -/
  | alone
deriving DecidableEq, Repr

/-- The kind of a slot (R186). -/
def slotKind : Instr → SlotKind
  | .tmaxAdd _ _ _ _ _ _ => .trellis
  | .tmaxSub _ _ _ _ _ _ => .trellis
  | .tmaxTr _ _ _ _ _ => .trellis
  | .maxAdd _ _ _ _ _ _ => .trellis
  | .maxSub _ _ _ _ _ _ => .trellis
  | .movRTr _ _ _ => .alone
  | .movRdTrd _ _ _ => .alone
  | .movRqTrq _ _ _ => .alone
  | .movTrR _ _ _ => .trLoad
  | .movTrdRd _ _ _ => .trLoad
  | .movTrqRq _ _ _ => .trLoad
  | .movRThr _ _ _ => .alone
  | .movRdThrd _ _ _ => .alone
  | .movRqThrq _ _ => .alone
  | .movThrR _ _ _ => .thrLoad
  | .movThrdRd _ _ _ optI => if optI then .alone else .thrLoad
  | .movThrqRq _ _ => .alone
  | .despreadAcc _ _ _ _ _ => .correlator
  | .despreadMov _ _ _ _ _ => .correlator
  | .despreadMovd _ _ _ _ _ => .correlator
  | .xcorrs _ _ _ _ _ _ => .correlator
  | .xcorrsMov _ _ _ _ _ _ _ _ => .correlator
  | .acs _ _ _ _ _ _ _ => .alone
  | .acsMov _ _ _ _ _ _ _ _ _ => .alone
  | .permuteD _ _ _ _ => .alone
  | .permuteQ _ _ _ _ => .alone

/-- Whether an arithmetic slot and a load may share a block's part of a line (R186 (b), (c)). -/
def admitsLoad : SlotKind → SlotKind → Bool
  | .trellis, .trLoad => true
  | .trellis, .thrLoad => true
  | .correlator, .thrLoad => true
  | _, _ => false

/-- The slots of a line that a block executes (R181, R186). -/
def slotsFor (b : BlockId) (line : Line) : List Instr := line.filter fun i => i.blk.has b

/-- Whether two slots write one register with a result or a copy (R192); the THR shift gives way to a load (R189) and
does not count. -/
def conflict (i j : Instr) : Bool := (resultsOf i).any fun r => (resultsOf j).contains r

/-- Why a block's slots are refused, if they are (R186, R192; log 21). -/
def blockRefusal (b : BlockId) : List Instr → Option Refusal
  | [] => none
  | [_] => none
  | [i, j] =>
    if admitsLoad (slotKind i) (slotKind j) || admitsLoad (slotKind j) (slotKind i) then
      if conflict i j then some (.writeConflict b) else none
    else some (.notAdmitted b)
  | _ => some (.notAdmitted b)

/-- Why a line is refused before any slot executes, if it is (R186, R191, R192). -/
def lineRefusal (line : Line) : Option Refusal :=
  if line.length = 0 ∨ 4 < line.length then some .slotCount
  else
    match blockRefusal .x (slotsFor .x line) with
    | some r => some r
    | none => blockRefusal .y (slotsFor .y line)

/-- Every slot executed on the state before the line (R188, D22; log 22); the first refusal refuses the line (R191). -/
def runSlots (s : State) : Line → Host.Outcome (List (Instr × State)) Fault Refusal
  | [] => .next []
  | i :: is =>
    match exec i s with
    | .next t =>
      match runSlots s is with
      | .next ts => .next ((i, t) :: ts)
      | .fault e => .fault e
      | .refused r => .refused r
    | .fault e => .fault e
    | .refused r => .refused r

/-- The registers `regs` of `from_` laid over `onto`. -/
def overlay (from_ onto : Block) (regs : List Reg) : Block :=
  regs.foldl (fun b r => b.write r.file r.idx (from_.read r.file r.idx)) onto

/-- A block after the line. With one slot it is that slot's result. With an arithmetic slot and a load it is the
arithmetic slot's result, its flags with it (R187), with the registers the load writes laid over it, which gives a THR
load priority over the THR shift register by register (R189, D12; log 20). -/
def joinBlock (b : BlockId) (s : State) (done : List (Instr × State)) : Block :=
  match done.filter fun p => p.1.blk.has b with
  | [] => s.block b
  | [(_, t)] => t.block b
  | (i, t) :: (j, u) :: _ =>
    if admitsLoad (slotKind i) (slotKind j) then overlay (u.block b) (t.block b) (resultsOf j)
    else overlay (t.block b) (u.block b) (resultsOf i)

/-- The execution of one line (R180): refused as a whole or, its results joined, followed by `pc <- pc + 1` (R190). -/
def execLine (line : Line) (s : State) : Host.Outcome State Fault Refusal :=
  match lineRefusal line with
  | some r => .refused r
  | none =>
    match runSlots s line with
    | .next done => .next { s with x := joinBlock .x s done, y := joinBlock .y s done }.advance
    | .fault e => .fault e
    | .refused r => .refused r

/-- The execution of one line's text: transcribed (R60, R81), then executed. -/
def execText (text : List Byte) (s : State) : Host.Outcome State Fault Refusal :=
  match decodeLine text with
  | .ok line => execLine line s
  | .error e => .refused (.transcriber e)

end Sys2Proof.Machine
end

