-- ==== Sys2Proof/Machine/Step.lean ====
section
/-! DEFINITION. One step of the machine: the line at index `pc` (46_line_execution.md R180, R190). -/

namespace Sys2Proof.Machine

/-- One step executes one instruction line (R180). When `pc` has reached the end of the program the run has ended
(R190) and the step has nothing to execute (log 4). -/
def step (s : State) : Host.Outcome State Fault Refusal :=
  match s.fetch with
  | some text => execText text s
  | none => .fault .endOfRun

/-- The state whose next line is the text held in `w` (log 1, log 2). -/
def State.withFetchWord (s : State) (nbits w : Nat) : State := s.placeLine (textOfWord nbits w)

end Sys2Proof.Machine
end

