-- ==== Sys2Proof/Safety.lean ====
section
/-! DEFINITION. The terms the statements are written in: a good state, what a slot leaves alone, and the results the
instruction rules give, on integers and by lanes. -/

namespace Sys2Proof

open Machine

/-! ## Good states -/

/-- The flags of a block are coherent: a set TROV has been recorded in TRSOV (R184, R185). -/
abbrev Safety.FlagsCoherent (b : Block) : Prop := b.trov = true → b.trsov = true

/-- The invariant of a run: both blocks' flags are coherent and the pc is a line of the program or its end (R190). -/
structure Safety.Inv (s : State) : Prop where
  x : Safety.FlagsCoherent s.x
  y : Safety.FlagsCoherent s.y
  pc : s.pc ≤ s.program.length

/-! ## What a slot leaves alone -/

/-- A slot leaves the pc, the program and every block it does not select as they were (R181, R190). -/
structure Safety.OnlySelected (sel : BlockSel) (s t : State) : Prop where
  pc : t.pc = s.pc
  program : t.program = s.program
  block : ∀ b, sel.has b = false → t.block b = s.block b

/-- Every register outside `written`, and CMCTL, is the same in both blocks. -/
structure Safety.UnchangedBut (written : RegFile → Nat → Prop) (b c : Block) : Prop where
  read : ∀ f k, ¬written f k → c.read f k = b.read f k
  cmctl : c.cmctl = b.cmctl

/-- The two blocks differ at most in the registers of `written`: CMCTL, the flags and the counter are equal too. -/
structure Safety.SameBut (written : RegFile → Nat → Prop) (b c : Block) : Prop extends
    Safety.UnchangedBut written b c where
  trov : c.trov = b.trov
  trsov : c.trsov = b.trsov
  draws : c.draws = b.draws

/-! ## Results on integers (R7, R8, R11) -/

/-- The integer clamped to the signed range of an `n`-bit lane (R11, G7). -/
def Safety.clamp (n : Nat) (z : Int) : Int := max (-2 ^ (n - 1)) (min (2 ^ (n - 1) - 1) z)

/-- The integer is outside the signed range of an `n`-bit lane (R11). -/
abbrev Safety.Overflows (n : Nat) (z : Int) : Prop := z > 2 ^ (n - 1) - 1 ∨ z < -2 ^ (n - 1)

/-- Lane `j` of the trellis double `TRd(i)`, signed (R94). -/
def Safety.trLane (short : Bool) (b : Block) (i j : Nat) : Int := (lane (laneWidth short) (b.readD .tr i) j).toInt

/-- Lane `j` of `Rmq_h`, signed: the upper half of the quad's lanes (R94). -/
def Safety.highLane (short : Bool) (b : Block) (rq j : Nat) : Int :=
  (lane (laneWidth short) (b.readQ .r rq) (64 / laneWidth short + j)).toInt

/-- Lane `j` of `Rmq_l`, signed (R94). -/
def Safety.lowLane (short : Bool) (b : Block) (rq j : Nat) : Int := (lane (laneWidth short) (b.readQ .r rq) j).toInt

/-- The number of lanes of a double (R94). -/
def Safety.lanesOfDouble (short : Bool) : Nat := 64 / laneWidth short

/-- TROV and TRSOV of an arithmetic form: TROV is set exactly on `ov`, TRSOV collects it (R184, R185). -/
structure Safety.FlagsAre (ov : Prop) (b c : Block) : Prop where
  trov : c.trov = true ↔ ov
  trsov : c.trsov = (b.trsov || c.trov)

/-- The flags of a transfer: TROV is its old value or 0, TRSOV is unchanged (R165). -/
structure Safety.FlagsOfTransfer (b c : Block) : Prop where
  trov : c.trov = b.trov ∨ c.trov = false
  trsov : c.trsov = b.trsov

/-- The post-shift of `THRd(i)`: sixteen places to the right, zeros at the top (R31, R123). -/
def Safety.ThrdShifted (i : Nat) (b c : Block) : Prop := (c.readD .thr i).toNat = (b.readD .thr i).toNat / 2 ^ 16

/-- The post-shift of `THRq(0)` (R31, R138). -/
def Safety.ThrqShifted (b c : Block) : Prop := (c.readQ .thr 0).toNat = (b.readQ .thr 0).toNat / 2 ^ 16

/-- The real part of one term `D[m] * C[w]` (R123, R131). -/
def Safety.termRe (b : Block) (rq m : Nat) {n : Nat} (codes : BitVec n) (w : Nat) : Int :=
  codeRe codes w * sampleRe (b.readQ .r rq) m - codeIm codes w * sampleIm (b.readQ .r rq) m

/-- The imaginary part of one term `D[m] * C[w]` (R123, R131). -/
def Safety.termIm (b : Block) (rq m : Nat) {n : Nat} (codes : BitVec n) (w : Nat) : Int :=
  codeRe codes w * sampleIm (b.readQ .r rq) m + codeIm codes w * sampleRe (b.readQ .r rq) m

/-- The real part of the despread sum over samples `lo .. hi - 1` (R123). -/
def Safety.despreadRe (b : Block) (rq thrd lo hi : Nat) : Int :=
  ∑ n ∈ Finset.Ico lo hi, Safety.termRe b rq n (b.readD .thr thrd) n

/-- The imaginary part of the despread sum over samples `lo .. hi - 1` (R123). -/
def Safety.despreadIm (b : Block) (rq thrd lo hi : Nat) : Int :=
  ∑ n ∈ Finset.Ico lo hi, Safety.termIm b rq n (b.readD .thr thrd) n

/-- The real part of delay `k`'s new accumulator before saturation (R131, R138). -/
def Safety.delayRe (base rq : Nat) (cut : Int) (clr : Bool) (b : Block) (k : Nat) : Int :=
  (if clr then 0 else wordRe (b.read .tr (base + k))) +
    ∑ m ∈ Finset.range 8, if fCut cut (m + 15 - k) then Safety.termRe b rq m (b.readQ .thr 0) (m + 15 - k) else 0

/-- The imaginary part of delay `k`'s new accumulator before saturation (R131, R138). -/
def Safety.delayIm (base rq : Nat) (cut : Int) (clr : Bool) (b : Block) (k : Nat) : Int :=
  (if clr then 0 else wordIm (b.read .tr (base + k))) +
    ∑ m ∈ Finset.range 8, if fCut cut (m + 15 - k) then Safety.termIm b rq m (b.readQ .thr 0) (m + 15 - k) else 0

/-- The result of XCORRS on a block (R138): sixteen accumulators, the THR shift, the flags. -/
structure Safety.XcorrsResult (base rq : Nat) (cut : Int) (clr : Bool) (b c : Block) : Prop where
  re : ∀ k < 16, wordRe (c.read .tr (base + k)) = Safety.clamp 16 (Safety.delayRe base rq cut clr b k)
  im : ∀ k < 16, wordIm (c.read .tr (base + k)) = Safety.clamp 16 (Safety.delayIm base rq cut clr b k)
  thr : Safety.ThrqShifted b c
  flags : Safety.FlagsAre (∃ k < 16, Safety.Overflows 16 (Safety.delayRe base rq cut clr b k) ∨
    Safety.Overflows 16 (Safety.delayIm base rq cut clr b k)) b c

/-! ## Forms by kind, and lines (R123, R186, R192) -/

/-- A DESPREAD form on the code double `thrd` (R127). -/
inductive Safety.DespreadOn (thrd : Nat) : Instr → Prop
  | acc (blk : BlockSel) (trs rq trn : Nat) : Safety.DespreadOn thrd (.despreadAcc blk trs rq thrd trn)
  | mov (blk : BlockSel) (rs trs rq : Nat) : Safety.DespreadOn thrd (.despreadMov blk rs trs rq thrd)
  | movd (blk : BlockSel) (rs trs rq : Nat) : Safety.DespreadOn thrd (.despreadMovd blk rs trs rq thrd)

/-- The forms of R186 (b): `TMAX_ADD`, `TMAX_SUB`, `TMAX_TR`, `MAX_ADD`, `MAX_SUB`. -/
inductive Safety.TrellisForm : Instr → Prop
  | tmaxAdd (blk : BlockSel) (short : Bool) (trs trm trn rq : Nat) :
    Safety.TrellisForm (.tmaxAdd blk short trs trm trn rq)
  | tmaxSub (blk : BlockSel) (short : Bool) (trs trm trn rq : Nat) :
    Safety.TrellisForm (.tmaxSub blk short trs trm trn rq)
  | tmaxTr (blk : BlockSel) (short : Bool) (rs trm trn : Nat) : Safety.TrellisForm (.tmaxTr blk short rs trm trn)
  | maxAdd (blk : BlockSel) (short : Bool) (trs trm trn rq : Nat) : Safety.TrellisForm (.maxAdd blk short trs trm trn rq)
  | maxSub (blk : BlockSel) (short : Bool) (trs trm trn rq : Nat) : Safety.TrellisForm (.maxSub blk short trs trm trn rq)

/-- The forms of R186 (c): `DESPREAD_ACC`, `DESPREAD_MOV`, `DESPREAD_MOVD`, `XCORRS`, `XCORRS_MOV`. -/
inductive Safety.CorrelatorForm : Instr → Prop
  | despreadAcc (blk : BlockSel) (trs rq thrd trn : Nat) : Safety.CorrelatorForm (.despreadAcc blk trs rq thrd trn)
  | despreadMov (blk : BlockSel) (rs trs rq thrd : Nat) : Safety.CorrelatorForm (.despreadMov blk rs trs rq thrd)
  | despreadMovd (blk : BlockSel) (rs trs rq thrd : Nat) : Safety.CorrelatorForm (.despreadMovd blk rs trs rq thrd)
  | xcorrs (blk : BlockSel) (base rq : Nat) (cut : Cut) (clr ext : Bool) :
    Safety.CorrelatorForm (.xcorrs blk base rq cut clr ext)
  | xcorrsMov (blk : BlockSel) (rs trb base rq : Nat) (cut : Cut) (clr ext : Bool) :
    Safety.CorrelatorForm (.xcorrsMov blk rs trb base rq cut clr ext)

/-- The loads of trellis registers of R186 (b): `MOV_TR_R`, `MOV_TRD_RD`, `MOV_TRQ_RQ`. -/
inductive Safety.TrellisLoad : Instr → Prop
  | single (blk : BlockSel) (trs rm : Nat) : Safety.TrellisLoad (.movTrR blk trs rm)
  | double (blk : BlockSel) (trs rm : Nat) : Safety.TrellisLoad (.movTrdRd blk trs rm)
  | quad (blk : BlockSel) (trs rm : Nat) : Safety.TrellisLoad (.movTrqRq blk trs rm)

/-- The THR loads of R186 (b) and (c): `MOV_THR_R`, and `MOV_THRD_RD` without `(i)`. -/
inductive Safety.HistoryLoad : Instr → Prop
  | single (blk : BlockSel) (thrs rm : Nat) : Safety.HistoryLoad (.movThrR blk thrs rm)
  | double (blk : BlockSel) (thrs rm : Nat) : Safety.HistoryLoad (.movThrdRd blk thrs rm false)

/-- An arithmetic slot and a load that may be one block's slots of a line (R186 (b), (c), D21). -/
def Safety.MayShare (a l : Instr) : Prop :=
  Safety.TrellisForm a ∧ (Safety.TrellisLoad l ∨ Safety.HistoryLoad l) ∨ Safety.CorrelatorForm a ∧ Safety.HistoryLoad l

/-- A block's slots are an arithmetic slot `a` and a load `l`, in either order, of R186 (b) or (c). -/
def Safety.PairOf (b : BlockId) (line : Line) (a l : Instr) : Prop :=
  (slotsFor b line = [a, l] ∨ slotsFor b line = [l, a]) ∧ Safety.MayShare a l

/-- The lines R186 and R192 admit (D21): at most four slots, and for each block at most one slot, or an arithmetic slot and
a load of (b) or (c) without a common result register. -/
structure Safety.AdmittedLine (line : Line) : Prop where
  slots : line.length ≤ 4
  block : ∀ b, (slotsFor b line).length ≤ 1 ∨
    ∃ a l, Safety.PairOf b line a l ∧ ∀ r ∈ resultsOf a, r ∉ resultsOf l

/-- Every slot of the line completes on the state before it (R188, R191). -/
def Safety.SlotsComplete (s : State) (line : Line) : Prop := ∀ i ∈ line, ∃ t, exec i s = .next t

/-- A line of text is what `step` fetches next, and the transcriber reads it as `line` (R60, R180). -/
structure Safety.Fetches (s : State) (line : Line) : Prop where
  text : ∃ text, s.program[s.pc]? = some text ∧ decodeLine text = .ok line

end Sys2Proof
end

