-- ==== Sys2Proof/Certificates/Slice0/Obligations.lean ====
section
/-! DEFINITION. The statements for the provers. Each docstring says which rule of spec/ it formalises; where a statement
rests on a decision of the spec (D<n>) or on a choice of the model, the docstring names it. -/

open Sys2Proof Sys2Proof.Machine

/-! ## Launch, step, fetch -/

/-- R42, R221: the machine starts at pc 0. That no program is loaded at launch and that a step then ends the run are the
model's choices (logs 2 and 4). -/
def Obligations.LaunchHasNoProgram : Prop :=
  State.reset.pc = 0 ∧ State.reset.program = [] ∧ step State.reset = .fault .endOfRun

/-- The invariant holds at launch; the launch values of the flags are the model's choice (log 3). -/
def Obligations.InvariantAtLaunch : Prop := Safety.Inv State.reset

/-- R184, R185, R165, R190: every step keeps the invariant: a set TROV is recorded in TRSOV in both blocks, and the pc
stays within the program. -/
def Obligations.StepKeepsInvariant : Prop :=
  ∀ s t, Safety.Inv s → step s = .next t → Safety.Inv t

/-- R180, R190 (D1): a line of one slot executes as `exec` of that slot followed by `pc <- pc + 1`; a stop of `exec` is the
stop of the step. -/
def Obligations.StepRunsDecodedSlot : Prop :=
  ∀ s i, Safety.Fetches s [i] →
    step s = match exec i s with
      | .next t => .next { t with pc := t.pc + 1 }
      | .fault e => .fault e
      | .refused r => .refused r

/-- The word the host places is the line the next step executes (the model's own placement, log 1). -/
def Obligations.PlacedWordIsExecuted : Prop :=
  ∀ (s : State) nbits w i, decodeTableWord nbits w = some i →
    step (s.withFetchWord nbits w) = match exec i (s.withFetchWord nbits w) with
      | .next t => .next { t with pc := t.pc + 1 }
      | .fault e => .fault e
      | .refused r => .refused r

/-- R190 (D1), R43, R32: a step that answers a next state executed a line of the program, moved the pc to the next one, and
left the program and both CMCTL registers as they were. -/
def Obligations.StepAdvancesPc : Prop :=
  ∀ s t, step s = .next t →
    s.pc < s.program.length ∧ t.pc = s.pc + 1 ∧ t.program = s.program ∧ t.x.cmctl = s.x.cmctl ∧ t.y.cmctl = s.y.cmctl

/-- R190, R12, R200: a step faults exactly when the pc has reached the end of the program; no instruction faults. The
fault is the model's form of the end of a run (log 4). -/
def Obligations.OnlyTheEndOfTheRunFaults : Prop :=
  ∀ s, (s.program.length ≤ s.pc ∧ step s = .fault .endOfRun) ∨ (s.pc < s.program.length ∧ ∀ e, step s ≠ .fault e)

/-! ## Flags -/

/-- R185, R165, R187: over every step from a state with the invariant, TRSOV becomes TRSOV | TROV. Where a line writes TROV
with v this is R185's TRSOV | v; where it leaves TROV alone (R165, R187) it says that TRSOV is unchanged, which in a state
with TROV set and TRSOV clear (allowed at launch, R220) would not follow: hence the premise. -/
def Obligations.StickyFlagCollectsTrov : Prop :=
  ∀ s t, Safety.Inv s → step s = .next t →
    ∀ b, (t.block b).trsov = ((s.block b).trsov || (t.block b).trov)

/-- R36, R185 (D29): once set, TRSOV stays set over every step, whatever the state. -/
def Obligations.StickyFlagStaysSet : Prop :=
  ∀ s t b, step s = .next t → (s.block b).trsov = true → (t.block b).trsov = true

/-! ## The TMAX function -/

/-- R92: the rows of Table 4-1; an index beyond seven bits gives 0; the table input of a negative number is its bitwise
inverse; the outputs 9, 4 and 15 do not occur. -/
def Obligations.TmaxTableRows : Prop :=
  (∀ row ∈ [((0, 1, 22) : Nat × Nat × Int), (2, 3, 21), (4, 5, 20), (6, 7, 19), (8, 9, 18), (10, 11, 17), (12, 15, 16),
      (16, 19, 14), (20, 23, 13), (24, 27, 12), (28, 31, 11), (32, 35, 10), (36, 39, 8), (40, 47, 7), (48, 55, 6),
      (56, 63, 5), (64, 79, 3), (80, 95, 2), (96, 127, 1)],
    ∀ t, row.1 ≤ t → t ≤ row.2.1 → tmaxTab t = row.2.2) ∧
  (∀ t, 128 ≤ t → tmaxTab t = 0) ∧
  (∀ n (d : BitVec n), tmaxIndex d.toInt = if d.toInt < 0 then (~~~d).toNat else d.toNat) ∧
  (∀ t, tmaxTab t ≠ 9 ∧ tmaxTab t ≠ 4 ∧ tmaxTab t ≠ 15)

/-- R91, R93 (D8): the function with the exact difference, first operand minus second: the larger operand plus the table's
value at the difference, or at the difference less one when the second operand is the larger. -/
def Obligations.TmaxOfOrderedOperands : Prop :=
  ∀ a b : Int, (b ≤ a → tmax a b = a + tmaxTab (a - b).toNat) ∧ (a < b → tmax a b = b + tmaxTab (b - a - 1).toNat)

/-- R93, R95 (D8): the correction is in 0..22, equal operands give a + 22, and a difference of more than 128 adds nothing. -/
def Obligations.TmaxCorrectionBounds : Prop :=
  ∀ a b : Int, max a b ≤ tmax a b ∧ tmax a b ≤ max a b + 22 ∧ tmax a a = a + 22 ∧
    (128 < |a - b| → tmax a b = max a b)

/-! ## The TMAX/MAX trellis instructions -/

/-- R95 (D6, D7, D8, D9): TMAX_ADD completes; lane by lane the two sums are clamped, TMAX is taken and clamped again; the
flags are those of R184 and R185. -/
def Obligations.TmaxAddResult : Prop :=
  ∀ blk short trs trm trn rq s, WellFormed (.tmaxAdd blk short trs trm trn rq) →
    ∃ t, exec (.tmaxAdd blk short trs trm trn rq) s = .next t ∧ Safety.OnlySelected blk s t ∧
      ∀ b, blk.has b = true →
        let n := laneWidth short
        let sb := s.block b
        let p := fun j => Safety.trLane short sb trm j + Safety.highLane short sb rq j
        let r := fun j => Safety.trLane short sb trn j + Safety.lowLane short sb rq j
        let z := fun j => tmax (Safety.clamp n (p j)) (Safety.clamp n (r j))
        (∀ j < Safety.lanesOfDouble short, Safety.trLane short (t.block b) trs j = Safety.clamp n (z j)) ∧
        Safety.FlagsAre (∃ j < Safety.lanesOfDouble short,
          Safety.Overflows n (p j) ∨ Safety.Overflows n (r j) ∨ Safety.Overflows n (z j)) sb (t.block b)

/-- R96 (D6, D7, D8, D9): TMAX_SUB completes; as TMAX_ADD with the differences, the trellis lane the minuend. -/
def Obligations.TmaxSubResult : Prop :=
  ∀ blk short trs trm trn rq s, WellFormed (.tmaxSub blk short trs trm trn rq) →
    ∃ t, exec (.tmaxSub blk short trs trm trn rq) s = .next t ∧ Safety.OnlySelected blk s t ∧
      ∀ b, blk.has b = true →
        let n := laneWidth short
        let sb := s.block b
        let p := fun j => Safety.trLane short sb trm j - Safety.highLane short sb rq j
        let r := fun j => Safety.trLane short sb trn j - Safety.lowLane short sb rq j
        let z := fun j => tmax (Safety.clamp n (p j)) (Safety.clamp n (r j))
        (∀ j < Safety.lanesOfDouble short, Safety.trLane short (t.block b) trs j = Safety.clamp n (z j)) ∧
        Safety.FlagsAre (∃ j < Safety.lanesOfDouble short,
          Safety.Overflows n (p j) ∨ Safety.Overflows n (r j) ∨ Safety.Overflows n (z j)) sb (t.block b)

/-- R97 (D6, D8, D9, C3): TMAX_TR completes; lane by lane TMAX of the two trellis registers, clamped, into the data
register. -/
def Obligations.TmaxTrResult : Prop :=
  ∀ blk short rs trm trn s, WellFormed (.tmaxTr blk short rs trm trn) →
    ∃ t, exec (.tmaxTr blk short rs trm trn) s = .next t ∧ Safety.OnlySelected blk s t ∧
      ∀ b, blk.has b = true →
        let n := laneWidth short
        let z := fun j =>
          tmax (lane n ((s.block b).read .tr trm) j).toInt (lane n ((s.block b).read .tr trn) j).toInt
        (∀ j < 32 / n, (lane n ((t.block b).read .r rs) j).toInt = Safety.clamp n (z j)) ∧
        Safety.FlagsAre (∃ j < 32 / n, Safety.Overflows n (z j)) (s.block b) (t.block b)

/-- R98 (D6, D7, D9): MAX_ADD completes; lane by lane the signed maximum of the two clamped sums; only the sums can set
TROV. -/
def Obligations.MaxAddResult : Prop :=
  ∀ blk short trs trm trn rq s, WellFormed (.maxAdd blk short trs trm trn rq) →
    ∃ t, exec (.maxAdd blk short trs trm trn rq) s = .next t ∧ Safety.OnlySelected blk s t ∧
      ∀ b, blk.has b = true →
        let n := laneWidth short
        let sb := s.block b
        let p := fun j => Safety.trLane short sb trm j + Safety.highLane short sb rq j
        let r := fun j => Safety.trLane short sb trn j + Safety.lowLane short sb rq j
        (∀ j < Safety.lanesOfDouble short,
          Safety.trLane short (t.block b) trs j = max (Safety.clamp n (p j)) (Safety.clamp n (r j))) ∧
        Safety.FlagsAre (∃ j < Safety.lanesOfDouble short, Safety.Overflows n (p j) ∨ Safety.Overflows n (r j))
          sb (t.block b)

/-- R99 (D6, D7, D9): MAX_SUB completes; as MAX_ADD with the differences. -/
def Obligations.MaxSubResult : Prop :=
  ∀ blk short trs trm trn rq s, WellFormed (.maxSub blk short trs trm trn rq) →
    ∃ t, exec (.maxSub blk short trs trm trn rq) s = .next t ∧ Safety.OnlySelected blk s t ∧
      ∀ b, blk.has b = true →
        let n := laneWidth short
        let sb := s.block b
        let p := fun j => Safety.trLane short sb trm j - Safety.highLane short sb rq j
        let r := fun j => Safety.trLane short sb trn j - Safety.lowLane short sb rq j
        (∀ j < Safety.lanesOfDouble short,
          Safety.trLane short (t.block b) trs j = max (Safety.clamp n (p j)) (Safety.clamp n (r j))) ∧
        Safety.FlagsAre (∃ j < Safety.lanesOfDouble short, Safety.Overflows n (p j) ∨ Safety.Overflows n (r j))
          sb (t.block b)

/-- R100, R26, R21: the frame of the four add and subtract forms: of the registers only TRd(trs) can change, and CMCTL
and the model's counter do not. -/
def Obligations.TrellisFrame : Prop :=
  ∀ i blk short trs trm trn rq s t,
    (i = .tmaxAdd blk short trs trm trn rq ∨ i = .tmaxSub blk short trs trm trn rq ∨
      i = .maxAdd blk short trs trm trn rq ∨ i = .maxSub blk short trs trm trn rq) →
    exec i s = .next t → Safety.OnlySelected blk s t ∧
      ∀ b, (t.block b).draws = (s.block b).draws ∧
        Safety.UnchangedBut (fun f k => f = .tr ∧ (k = trs ∨ k = trs + 1)) (s.block b) (t.block b)

/-- R97, R100, R21: the frame of TMAX_TR: of the registers only R[rs] can change. -/
def Obligations.TmaxTrFrame : Prop :=
  ∀ blk short rs trm trn s t, exec (.tmaxTr blk short rs trm trn) s = .next t → Safety.OnlySelected blk s t ∧
    ∀ b, (t.block b).draws = (s.block b).draws ∧
      Safety.UnchangedBut (fun f k => f = .r ∧ k = rs) (s.block b) (t.block b)

/-! ## Transfers -/

/-- R151 to R153, R150, R165 (D4, D20): the copies from trellis to data registers complete and copy 32, 64 or 128 bits. -/
def Obligations.TrellisReadsCopy : Prop :=
  ∀ blk rs trm s,
    (WellFormed (.movRTr blk rs trm) → ∃ t, exec (.movRTr blk rs trm) s = .next t ∧ Safety.OnlySelected blk s t ∧
      ∀ b, blk.has b = true → (t.block b).read .r rs = (s.block b).read .tr trm ∧
        Safety.FlagsOfTransfer (s.block b) (t.block b)) ∧
    (WellFormed (.movRdTrd blk rs trm) → ∃ t, exec (.movRdTrd blk rs trm) s = .next t ∧ Safety.OnlySelected blk s t ∧
      ∀ b, blk.has b = true → (∀ j < 2, (t.block b).read .r (rs + j) = (s.block b).read .tr (trm + j)) ∧
        Safety.FlagsOfTransfer (s.block b) (t.block b)) ∧
    (WellFormed (.movRqTrq blk rs trm) → ∃ t, exec (.movRqTrq blk rs trm) s = .next t ∧ Safety.OnlySelected blk s t ∧
      ∀ b, blk.has b = true → (∀ j < 4, (t.block b).read .r (rs + j) = (s.block b).read .tr (trm + j)) ∧
        Safety.FlagsOfTransfer (s.block b) (t.block b))

/-- R154 to R156, R150, R165 (D4, D20): the loads of trellis registers complete and copy 32, 64 or 128 bits. -/
def Obligations.TrellisLoadsCopy : Prop :=
  ∀ blk trs rm s,
    (WellFormed (.movTrR blk trs rm) → ∃ t, exec (.movTrR blk trs rm) s = .next t ∧ Safety.OnlySelected blk s t ∧
      ∀ b, blk.has b = true → (t.block b).read .tr trs = (s.block b).read .r rm ∧
        Safety.FlagsOfTransfer (s.block b) (t.block b)) ∧
    (WellFormed (.movTrdRd blk trs rm) → ∃ t, exec (.movTrdRd blk trs rm) s = .next t ∧ Safety.OnlySelected blk s t ∧
      ∀ b, blk.has b = true → (∀ j < 2, (t.block b).read .tr (trs + j) = (s.block b).read .r (rm + j)) ∧
        Safety.FlagsOfTransfer (s.block b) (t.block b)) ∧
    (WellFormed (.movTrqRq blk trs rm) → ∃ t, exec (.movTrqRq blk trs rm) s = .next t ∧ Safety.OnlySelected blk s t ∧
      ∀ b, blk.has b = true → (∀ j < 4, (t.block b).read .tr (trs + j) = (s.block b).read .r (rm + j)) ∧
        Safety.FlagsOfTransfer (s.block b) (t.block b))

/-- R157, R158, R150, R165 (D4, D20): the copies from trellis history to data registers complete. -/
def Obligations.HistoryReadsCopy : Prop :=
  ∀ blk rs thrm s,
    (WellFormed (.movRThr blk rs thrm) → ∃ t, exec (.movRThr blk rs thrm) s = .next t ∧ Safety.OnlySelected blk s t ∧
      ∀ b, blk.has b = true → (t.block b).read .r rs = (s.block b).read .thr thrm ∧
        Safety.FlagsOfTransfer (s.block b) (t.block b)) ∧
    (WellFormed (.movRdThrd blk rs thrm) → ∃ t, exec (.movRdThrd blk rs thrm) s = .next t ∧
      Safety.OnlySelected blk s t ∧
      ∀ b, blk.has b = true → (∀ j < 2, (t.block b).read .r (rs + j) = (s.block b).read .thr (thrm + j)) ∧
        Safety.FlagsOfTransfer (s.block b) (t.block b))

/-- R160, R161, R150, R165 (D4, D20): the loads of trellis history registers without (i) complete. -/
def Obligations.HistoryLoadsCopy : Prop :=
  ∀ blk thrs rm s,
    (WellFormed (.movThrR blk thrs rm) → ∃ t, exec (.movThrR blk thrs rm) s = .next t ∧ Safety.OnlySelected blk s t ∧
      ∀ b, blk.has b = true → (t.block b).read .thr thrs = (s.block b).read .r rm ∧
        Safety.FlagsOfTransfer (s.block b) (t.block b)) ∧
    (WellFormed (.movThrdRd blk thrs rm false) → ∃ t, exec (.movThrdRd blk thrs rm false) s = .next t ∧
      Safety.OnlySelected blk s t ∧
      ∀ b, blk.has b = true → (∀ j < 2, (t.block b).read .thr (thrs + j) = (s.block b).read .r (rm + j)) ∧
        Safety.FlagsOfTransfer (s.block b) (t.block b))

/-- R164, R150, R165, R21, R29: the frame of the copies to data registers: of the registers only the destination can change,
so TR and THR keep their contents and THR is not shifted; TROV is its old value or 0 and TRSOV is unchanged in both blocks.
The model's own counter (log 8) may change. -/
def Obligations.ReadTransferFrame : Prop :=
  ∀ i blk rs m k s t,
    ((i = .movRTr blk rs m ∨ i = .movRThr blk rs m) ∧ k = 1 ∨
      (i = .movRdTrd blk rs m ∨ i = .movRdThrd blk rs m) ∧ k = 2 ∨ i = .movRqTrq blk rs m ∧ k = 4) →
    exec i s = .next t → Safety.OnlySelected blk s t ∧
      ∀ b, Safety.UnchangedBut (fun f j => f = .r ∧ rs ≤ j ∧ j < rs + k) (s.block b) (t.block b) ∧
        Safety.FlagsOfTransfer (s.block b) (t.block b)

/-- R164, R150, R165, R26, R29: the frame of the loads of TR and THR: of the registers only the destination can change, so
the data registers keep their contents; TROV is its old value or 0 and TRSOV is unchanged in both blocks. The model's own
counter (log 8) may change. -/
def Obligations.LoadTransferFrame : Prop :=
  ∀ i blk d m g k s t,
    (i = .movTrR blk d m ∧ g = .tr ∧ k = 1 ∨ i = .movTrdRd blk d m ∧ g = .tr ∧ k = 2 ∨
      i = .movTrqRq blk d m ∧ g = .tr ∧ k = 4 ∨ i = .movThrR blk d m ∧ g = .thr ∧ k = 1 ∨
      i = .movThrdRd blk d m false ∧ g = .thr ∧ k = 2) →
    exec i s = .next t → Safety.OnlySelected blk s t ∧
      ∀ b, Safety.UnchangedBut (fun f j => f = g ∧ d ≤ j ∧ j < d + k) (s.block b) (t.block b) ∧
        Safety.FlagsOfTransfer (s.block b) (t.block b)

/-! ## DESPREAD -/

/-- R124, R121 to R123, R31 (D6, D10, D11, D36): DESPREAD_ACC completes; the despread sum of eight samples is added to
TR[trn] part by part and clamped to 16 bits, the code double is shifted, the flags follow. -/
def Obligations.DespreadAccResult : Prop :=
  ∀ blk trs rq thrd trn s, WellFormed (.despreadAcc blk trs rq thrd trn) →
    ∃ t, exec (.despreadAcc blk trs rq thrd trn) s = .next t ∧ Safety.OnlySelected blk s t ∧
      ∀ b, blk.has b = true →
        let sb := s.block b
        let i := Safety.despreadRe sb rq thrd 0 8 + wordRe (sb.read .tr trn)
        let q := Safety.despreadIm sb rq thrd 0 8 + wordIm (sb.read .tr trn)
        wordRe ((t.block b).read .tr trs) = Safety.clamp 16 i ∧ wordIm ((t.block b).read .tr trs) = Safety.clamp 16 q ∧
        Safety.ThrdShifted thrd sb (t.block b) ∧
        Safety.FlagsAre (Safety.Overflows 16 i ∨ Safety.Overflows 16 q) sb (t.block b)

/-- R125, R121 to R123, R31 (D10, D11, D36): DESPREAD_MOV completes; R[rs] receives the old TR[trs], TR[trs] the despread
sum of eight samples, which always fits, so TROV is written with 0 and TRSOV keeps its value. -/
def Obligations.DespreadMovResult : Prop :=
  ∀ blk rs trs rq thrd s, WellFormed (.despreadMov blk rs trs rq thrd) →
    ∃ t, exec (.despreadMov blk rs trs rq thrd) s = .next t ∧ Safety.OnlySelected blk s t ∧
      ∀ b, blk.has b = true →
        let sb := s.block b
        (t.block b).read .r rs = sb.read .tr trs ∧
        wordRe ((t.block b).read .tr trs) = Safety.despreadRe sb rq thrd 0 8 ∧
        wordIm ((t.block b).read .tr trs) = Safety.despreadIm sb rq thrd 0 8 ∧
        Safety.ThrdShifted thrd sb (t.block b) ∧ (t.block b).trov = false ∧ (t.block b).trsov = sb.trsov

/-- R126, R121 to R123, R31 (D10, D11, D36): DESPREAD_MOVD completes; Rd(rs) receives the old TRd(trs), TR[trs] the sum of
samples 0..3 and TR[trs+1] that of samples 4..7, TROV is written with 0 and TRSOV keeps its value. -/
def Obligations.DespreadMovdResult : Prop :=
  ∀ blk rs trs rq thrd s, WellFormed (.despreadMovd blk rs trs rq thrd) →
    ∃ t, exec (.despreadMovd blk rs trs rq thrd) s = .next t ∧ Safety.OnlySelected blk s t ∧
      ∀ b, blk.has b = true →
        let sb := s.block b
        (∀ j < 2, (t.block b).read .r (rs + j) = sb.read .tr (trs + j)) ∧
        (∀ j < 2, wordRe ((t.block b).read .tr (trs + j)) = Safety.despreadRe sb rq thrd (4 * j) (4 * j + 4) ∧
          wordIm ((t.block b).read .tr (trs + j)) = Safety.despreadIm sb rq thrd (4 * j) (4 * j + 4)) ∧
        Safety.ThrdShifted thrd sb (t.block b) ∧ (t.block b).trov = false ∧ (t.block b).trsov = sb.trsov

/-- R128, R21, R26, R29: the frame of the DESPREAD forms: of the registers only the named destinations and the shifted
THR double can change. -/
def Obligations.DespreadFrame : Prop :=
  ∀ blk rs trs rq thrd trn s t,
    (exec (.despreadAcc blk trs rq thrd trn) s = .next t → Safety.OnlySelected blk s t ∧
      ∀ b, (t.block b).draws = (s.block b).draws ∧ Safety.UnchangedBut
        (fun f k => f = .tr ∧ k = trs ∨ f = .thr ∧ (k = thrd ∨ k = thrd + 1)) (s.block b) (t.block b)) ∧
    (exec (.despreadMov blk rs trs rq thrd) s = .next t → Safety.OnlySelected blk s t ∧
      ∀ b, (t.block b).draws = (s.block b).draws ∧ Safety.UnchangedBut
        (fun f k => f = .r ∧ k = rs ∨ f = .tr ∧ k = trs ∨ f = .thr ∧ (k = thrd ∨ k = thrd + 1))
        (s.block b) (t.block b)) ∧
    (exec (.despreadMovd blk rs trs rq thrd) s = .next t → Safety.OnlySelected blk s t ∧
      ∀ b, (t.block b).draws = (s.block b).draws ∧ Safety.UnchangedBut
        (fun f k => f = .r ∧ (k = rs ∨ k = rs + 1) ∨ f = .tr ∧ (k = trs ∨ k = trs + 1) ∨
          f = .thr ∧ (k = thrd ∨ k = thrd + 1)) (s.block b) (t.block b))

/-- R127 (D11, log 9): any four DESPREAD forms on one THR double, one after the other and without a reload, complete, and in
a block that executes all four the double then holds the fill value, which is zero. -/
def Obligations.FourDespreadsExhaustCodes : Prop :=
  ∀ thrd i1 i2 i3 i4 s,
    (∀ i ∈ [i1, i2, i3, i4], Safety.DespreadOn thrd i ∧ WellFormed i) →
    ∃ s1 s2 s3 s4, exec i1 s = .next s1 ∧ exec i2 s1 = .next s2 ∧ exec i3 s2 = .next s3 ∧ exec i4 s3 = .next s4 ∧
      ∀ b, (∀ i ∈ [i1, i2, i3, i4], i.blk.has b = true) → (s4.block b).readD .thr thrd = 0

/-! ## XCORRS -/

/-- R138, R131 to R136, R31 (D6, D11, D13, D34, D36): XCORRS without (EXT) completes with the sixteen accumulators of the
equation, each part clamped once, the THR quad shifted, and the flags. -/
def Obligations.XcorrsAccumulates : Prop :=
  ∀ blk base rq cut clr s, WellFormed (.xcorrs blk base rq cut clr false) →
    ∃ t, exec (.xcorrs blk base rq cut clr false) s = .next t ∧ Safety.OnlySelected blk s t ∧
      ∀ b, blk.has b = true →
        Safety.XcorrsResult base rq (cutValue (s.block b) cut) clr (s.block b) (t.block b)

/-- R139, R138 (D6, D11, D13, D22, D34, D36): XCORRS_MOV without (EXT) completes as XCORRS, and Rq(rs) receives the old
TRq(trb). -/
def Obligations.XcorrsMovAccumulates : Prop :=
  ∀ blk rs trb base rq cut clr s, WellFormed (.xcorrsMov blk rs trb base rq cut clr false) →
    ∃ t, exec (.xcorrsMov blk rs trb base rq cut clr false) s = .next t ∧ Safety.OnlySelected blk s t ∧
      ∀ b, blk.has b = true →
        (∀ j < 4, (t.block b).read .r (rs + j) = (s.block b).read .tr (trb + j)) ∧
        Safety.XcorrsResult base rq (cutValue (s.block b) cut) clr (s.block b) (t.block b)

/-- R142, R21, R26, R29: the frame of the XCORRS forms: of the registers only the sixteen accumulators, the THR registers
and, with the move half, Rq(rs) can change. -/
def Obligations.XcorrsFrame : Prop :=
  ∀ blk rs trb base rq cut clr s t,
    (exec (.xcorrs blk base rq cut clr false) s = .next t → Safety.OnlySelected blk s t ∧
      ∀ b, (t.block b).draws = (s.block b).draws ∧ Safety.UnchangedBut
        (fun f k => f = .tr ∧ base ≤ k ∧ k < base + 16 ∨ f = .thr) (s.block b) (t.block b)) ∧
    (exec (.xcorrsMov blk rs trb base rq cut clr false) s = .next t → Safety.OnlySelected blk s t ∧
      ∀ b, (t.block b).draws = (s.block b).draws ∧ Safety.UnchangedBut
        (fun f k => f = .r ∧ rs ≤ k ∧ k < rs + 4 ∨ f = .tr ∧ base ≤ k ∧ k < base + 16 ∨ f = .thr)
        (s.block b) (t.block b))

/-- R133: the CUT function: nothing is cut at 0, indices k and above at +k, indices under k at −k. -/
def Obligations.CutFunctionCases : Prop :=
  ∀ (cut : Int) (w : Nat), (cut = 0 → fCut cut w = true) ∧ (0 < cut → (fCut cut w = true ↔ (w : Int) < cut)) ∧
    (cut < 0 → (fCut cut w = true ↔ -cut ≤ (w : Int)))

/-- R72, R134: an absent CUT option is CUT = 0. -/
def Obligations.OmittedCutIsZero : Prop :=
  ∀ blk rs trb base rq clr ext s,
    exec (.xcorrs blk base rq .none clr ext) s = exec (.xcorrs blk base rq (.imm 0) clr ext) s ∧
    exec (.xcorrsMov blk rs trb base rq .none clr ext) s = exec (.xcorrsMov blk rs trb base rq (.imm 0) clr ext) s

/-- R134, R135, R33 (D14, D15, log 6): the CUT value of both XCORRS forms is 0 without the option, the immediate, or, for
(CUT R), CutOf of the CMCTL of the executing block, whatever function CutOf is. -/
def Obligations.CutOptionGivesValue : Prop :=
  ∀ blk rs trb base rq cut clr s b, blk.has b = true →
    let c : Int := match cut with
      | .none => 0
      | .imm k => k
      | .reg => Config.cutOf (s.block b).cmctl
    (WellFormed (.xcorrs blk base rq cut clr false) → ∃ t, exec (.xcorrs blk base rq cut clr false) s = .next t ∧
      Safety.XcorrsResult base rq c clr (s.block b) (t.block b)) ∧
    (WellFormed (.xcorrsMov blk rs trb base rq cut clr false) →
      ∃ t, exec (.xcorrsMov blk rs trb base rq cut clr false) s = .next t ∧
        Safety.XcorrsResult base rq c clr (s.block b) (t.block b))

/-- R133, R138, R139 (D13): with CUT = +k the operations for C[k] and above are ignored, and with CUT = −k those under C[k]:
THR contents that agree on the codes kept give the same accumulators, in both XCORRS forms. -/
def Obligations.CutCodesAreIgnored : Prop :=
  ∀ blk rs trb base rq (k : Nat) (cut : Cut) clr s s' b, 0 < k → k ≤ 22 → blk.has b = true →
    Safety.SameBut (fun f _ => f = .thr) (s.block b) (s'.block b) →
    (cut = .imm k ∧
        (∀ n < 2 * k, ((s.block b).readQ .thr 0).getLsbD n = ((s'.block b).readQ .thr 0).getLsbD n) ∨
      cut = .imm (-k) ∧
        (∀ n, 2 * k ≤ n → ((s.block b).readQ .thr 0).getLsbD n = ((s'.block b).readQ .thr 0).getLsbD n)) →
    (WellFormed (.xcorrs blk base rq cut clr false) →
      ∃ t t', exec (.xcorrs blk base rq cut clr false) s = .next t ∧
        exec (.xcorrs blk base rq cut clr false) s' = .next t' ∧
        ∀ j < 16, (t.block b).read .tr (base + j) = (t'.block b).read .tr (base + j)) ∧
    (WellFormed (.xcorrsMov blk rs trb base rq cut clr false) →
      ∃ t t', exec (.xcorrsMov blk rs trb base rq cut clr false) s = .next t ∧
        exec (.xcorrsMov blk rs trb base rq cut clr false) s' = .next t' ∧
        ∀ j < 16, (t.block b).read .tr (base + j) = (t'.block b).read .tr (base + j))

/-- R136: with (CLR) the sixteen accumulators start from zero: the slot does what the slot without (CLR) does on a state
whose accumulators are zero and which is otherwise the same; and XCORRS_MOV still moves the old TRq(trb). -/
def Obligations.ClearStartsFromZero : Prop :=
  ∀ blk rs trb base rq cut s s' b, blk.has b = true →
    Safety.SameBut (fun f k => f = .tr ∧ base ≤ k ∧ k < base + 16) (s.block b) (s'.block b) →
    (∀ k < 16, (s'.block b).read .tr (base + k) = 0) →
    (WellFormed (.xcorrs blk base rq cut true false) →
      ∃ t t', exec (.xcorrs blk base rq cut true false) s = .next t ∧
        exec (.xcorrs blk base rq cut false false) s' = .next t' ∧ t.block b = t'.block b) ∧
    (WellFormed (.xcorrsMov blk rs trb base rq cut true false) →
      ∃ t t', exec (.xcorrsMov blk rs trb base rq cut true false) s = .next t ∧
        exec (.xcorrsMov blk rs trb base rq cut false false) s' = .next t' ∧
        (∀ k < 16, (t.block b).read .tr (base + k) = (t'.block b).read .tr (base + k)) ∧
        ∀ j < 4, (t.block b).read .r (rs + j) = (s.block b).read .tr (trb + j))

/-- R138, R139 (D13, D36): with (CLR) no part overflows in either XCORRS form, whatever the CUT value: TROV is written with 0
and TRSOV keeps its value. -/
def Obligations.ClearedXcorrsNeverOverflows : Prop :=
  ∀ i blk rs trb base rq cut s,
    (i = .xcorrs blk base rq cut true false ∨ i = .xcorrsMov blk rs trb base rq cut true false) → WellFormed i →
    ∃ t, exec i s = .next t ∧
      ∀ b, blk.has b = true → (t.block b).trov = false ∧ (t.block b).trsov = (s.block b).trsov

/-- R131, R130, R124 (D10, D13): delay 15 of an uncut XCORRS is the DESPREAD accumulate of the same data and the codes of
THR1:0 ("16 parallel DESPREAD instructions"). -/
def Obligations.DelayFifteenIsDespread : Prop :=
  ∀ blk base rq s, WellFormed (.xcorrs blk base rq .none false false) →
    ∃ t t', exec (.xcorrs blk base rq .none false false) s = .next t ∧
      exec (.despreadAcc blk (base + 15) rq 0 (base + 15)) s = .next t' ∧
      ∀ b, blk.has b = true → (t.block b).read .tr (base + 15) = (t'.block b).read .tr (base + 15)

/-- R138, R139, R132 (D13): after the shift of either XCORRS form the old C[w+8] is the new C[w]. -/
def Obligations.CodeWindowAdvances : Prop :=
  ∀ i blk rs trb base rq cut clr s,
    (i = .xcorrs blk base rq cut clr false ∨ i = .xcorrsMov blk rs trb base rq cut clr false) → WellFormed i →
    ∃ t, exec i s = .next t ∧
      ∀ b, blk.has b = true → ∀ w < 56,
        codeRe ((t.block b).readQ .thr 0) w = codeRe ((s.block b).readQ .thr 0) (w + 8) ∧
        codeIm ((t.block b).readQ .thr 0) w = codeIm ((s.block b).readQ .thr 0) (w + 8)

/-- R133 (V41 with V45): CUT = +c and CUT = −c keep complementary terms: their sums add up to the uncut sum at every
delay. -/
def Obligations.OppositeCutsAreComplementary : Prop :=
  ∀ (base rq : Nat) (c : Int) (b : Block) (k : Nat), c ≠ 0 →
    Safety.delayRe base rq c true b k + Safety.delayRe base rq (-c) true b k = Safety.delayRe base rq 0 true b k ∧
    Safety.delayIm base rq c true b k + Safety.delayIm base rq (-c) true b k = Safety.delayIm base rq 0 true b k

/-! ## Refused forms -/

/-- R112, R113 (D17): the ACS forms are refused. -/
def Obligations.AcsIsRefused : Prop :=
  ∀ blk rs tra short trs trm trn rm tmax s,
    (WellFormed (.acs blk short trs trm trn rm tmax) →
      exec (.acs blk short trs trm trn rm tmax) s = .refused .acsNotInSource) ∧
    (WellFormed (.acsMov blk rs tra short trs trm trn rm tmax) →
      exec (.acsMov blk rs tra short trs trm trn rm tmax) s = .refused .acsNotInSource)

/-- R171, R172 (D18): the PERMUTE forms are refused. -/
def Obligations.PermuteIsRefused : Prop :=
  ∀ blk rs rm rn s,
    (WellFormed (.permuteD blk rs rm rn) → exec (.permuteD blk rs rm rn) s = .refused .permuteNotInSource) ∧
    (WellFormed (.permuteQ blk rs rm rn) → exec (.permuteQ blk rs rm rn) s = .refused .permuteNotInSource)

/-- R80, R159, R162 (D27): the two reserved forms are refused. -/
def Obligations.ReservedFormsAreRefused : Prop :=
  ∀ blk rs rm s,
    (WellFormed (.movRqThrq blk rs) → exec (.movRqThrq blk rs) s = .refused .reservedForm) ∧
    (WellFormed (.movThrqRq blk rm) → exec (.movThrqRq blk rm) s = .refused .reservedForm)

/-- R163 (D19), R141 (D16): the load with (i) and the XCORRS forms with (EXT) are refused. -/
def Obligations.UnexplainedOptionsAreRefused : Prop :=
  ∀ blk thrs rm rs trb base rq cut clr s,
    (WellFormed (.movThrdRd blk thrs rm true) → exec (.movThrdRd blk thrs rm true) s = .refused .optionINotInSource) ∧
    (WellFormed (.xcorrs blk base rq cut clr true) → exec (.xcorrs blk base rq cut clr true) s = .refused .extNotInSource) ∧
    (WellFormed (.xcorrsMov blk rs trb base rq cut clr true) →
      exec (.xcorrsMov blk rs trb base rq cut clr true) s = .refused .extNotInSource)

/-- R68, R74, R81: a term that fails a check is refused by the name of the check. The grammar refuses its text; that `exec`
refuses the term is the model's choice (log 34). -/
def Obligations.IllFormedTermsAreRefused : Prop :=
  ∀ i s, ¬WellFormed i → ∃ c, i.failedCheck = some c ∧ exec i s = .refused (.illFormed c)

/-! ## Blocks and operands -/

/-- R181, R22, R58 (D28): a block's outcome depends on that block alone: two states that agree on a block agree on it after
the slot. -/
def Obligations.BlocksAreIndependent : Prop :=
  ∀ i s s' t b, exec i s = .next t → s.block b = s'.block b →
    ∃ t', exec i s' = .next t' ∧ t'.block b = t.block b

/-- R21, R26, R29, R136: what a slot writes to registers and, for an arithmetic form, to TROV depends only on the registers
the tables say it reads, and on CMCTL for (CUT R). -/
def Obligations.OnlyListedOperandsMatter : Prop :=
  ∀ i s s' t b, i.blk.has b = true → exec i s = .next t →
    (∀ r ∈ readsOf i, (s.block b).read r.file r.idx = (s'.block b).read r.file r.idx) →
    (s.block b).cmctl = (s'.block b).cmctl →
    ∃ t', exec i s' = .next t' ∧
      (∀ r ∈ writesOf i, (t'.block b).read r.file r.idx = (t.block b).read r.file r.idx) ∧
      (slotKind i = .trellis ∨ slotKind i = .correlator → (t'.block b).trov = (t.block b).trov)

/-- R21, R26, R29: no slot changes a register that the tables do not say it writes or shifts. -/
def Obligations.OnlyListedRegistersChange : Prop :=
  ∀ i s t, exec i s = .next t →
    ∀ b f k, (⟨f, k⟩ : Reg) ∉ writesOf i → (t.block b).read f k = (s.block b).read f k

/-! ## Lines of several slots -/

/-- R186 to R190 (D12, D21, D22, logs 20 to 22): an admitted line, of up to four slots, all of whose slots complete on the
state before it, completes and advances the pc. In each block whose slots are an arithmetic slot and a load, in either
order, whatever the line holds for the other block: the load's registers are the load's, every other register, CMCTL and
the flags are the arithmetic slot's. -/
def Obligations.LoadBesideArithmetic : Prop :=
  ∀ s line, Safety.Fetches s line → Safety.AdmittedLine line → Safety.SlotsComplete s line →
    ∃ u, step s = .next u ∧ u.pc = s.pc + 1 ∧ u.program = s.program ∧
      ∀ b a l ta tl, Safety.PairOf b line a l → exec a s = .next ta → exec l s = .next tl →
        (∀ f k, (u.block b).read f k =
          if (⟨f, k⟩ : Reg) ∈ resultsOf l then (tl.block b).read f k else (ta.block b).read f k) ∧
        (u.block b).cmctl = (ta.block b).cmctl ∧
        (u.block b).trov = (ta.block b).trov ∧ (u.block b).trsov = (ta.block b).trsov

/-- R189, R225, R188, R31 (D12, D11, D22; logs 20, 9, 22): in a line of DESPREAD_ACC followed by MOV_THR_R, both on block X,
THR[thrs] gets the loaded value; each register of the shifted double that the load does not write gets its part of the
double shifted right with zeros at the top; the DESPREAD reads the state before the line. -/
def Obligations.HistoryLoadBeatsShift : Prop :=
  ∀ s trs rq thrd trn thrs rm, Safety.Fetches s [.despreadAcc .x trs rq thrd trn, .movThrR .x thrs rm] →
    WellFormed (.despreadAcc .x trs rq thrd trn) → WellFormed (.movThrR .x thrs rm) →
    ∃ u t, step s = .next u ∧ exec (.despreadAcc .x trs rq thrd trn) s = .next t ∧
      u.x.read .thr thrs = s.x.read .r rm ∧
      (∀ j < 2, thrd + j ≠ thrs →
        u.x.read .thr (thrd + j) = (s.x.readD .thr thrd >>> 16).extractLsb' (32 * j) 32) ∧
      u.x.read .tr trs = t.x.read .tr trs ∧ u.y = s.y

/-- R186, R181, R188, R190 (D21, D22; logs 21, 22): slots of different blocks do not restrict each other. An admitted line all
of whose slots complete on the state before it completes; each block that one slot selects is as that slot leaves it,
whatever the line holds for the other block, and a block that no slot selects is unchanged. -/
def Obligations.DifferentBlocksShareALine : Prop :=
  ∀ s line, Safety.Fetches s line → Safety.AdmittedLine line → Safety.SlotsComplete s line →
    ∃ u, step s = .next u ∧ u.pc = s.pc + 1 ∧ u.program = s.program ∧
      ∀ b, (slotsFor b line = [] → u.block b = s.block b) ∧
        ∀ i t, slotsFor b line = [i] → exec i s = .next t → u.block b = t.block b

/-- R186, R192, R191 (D21, log 21): a line is refused when it has more than four slots, or when some block's slots are neither
one slot nor an arithmetic slot and a load of R186 (b) or (c) without a common result register. -/
def Obligations.OnlyAdmittedLinesExecute : Prop :=
  ∀ s line, Safety.Fetches s line → ¬Safety.AdmittedLine line → ∃ r, step s = .refused r

/-- R186 (b), (c) and R192 (D21, log 21), the admitted pairs spelled out: two slots with a block in common, both of which
complete alone, share a line exactly when one of them, `a`, is an arithmetic form and the other, `l`, a load that R186 admits
beside it, and they have no result register in common. -/
def Obligations.PairsAdmittedInALine : Prop :=
  ∀ s i j b, Safety.Fetches s [i, j] → i.blk.has b = true → j.blk.has b = true → Safety.SlotsComplete s [i, j] →
    ((∃ u, step s = .next u) ↔ ∃ a l, (i = a ∧ j = l ∨ i = l ∧ j = a) ∧ (∀ r ∈ resultsOf a, r ∉ resultsOf l) ∧
      (((∃ blk short trs trm trn rq, a = .tmaxAdd blk short trs trm trn rq ∨ a = .tmaxSub blk short trs trm trn rq ∨
            a = .maxAdd blk short trs trm trn rq ∨ a = .maxSub blk short trs trm trn rq ∨
            a = .tmaxTr blk short trs trm trn) ∧
          ∃ blk d rm, l = .movTrR blk d rm ∨ l = .movTrdRd blk d rm ∨ l = .movTrqRq blk d rm ∨ l = .movThrR blk d rm ∨
            l = .movThrdRd blk d rm false) ∨
        ((∃ blk rs trs rq thrd trn, a = .despreadAcc blk trs rq thrd trn ∨ a = .despreadMov blk rs trs rq thrd ∨
            a = .despreadMovd blk rs trs rq thrd) ∨
          ∃ blk rs trb base rq cut clr ext, a = .xcorrs blk base rq cut clr ext ∨
            a = .xcorrsMov blk rs trb base rq cut clr ext) ∧
          ∃ blk thrs rm, l = .movThrR blk thrs rm ∨ l = .movThrdRd blk thrs rm false))

/-- R191 (D17): a line with a refused slot is refused. -/
def Obligations.RefusedSlotRefusesLine : Prop :=
  ∀ s line i r, Safety.Fetches s line → i ∈ line → exec i s = .refused r → ∃ r', step s = .refused r'

/-! ## Text -/

/-- R60, R75, R85 (D30): the transcriber reads the canonical text of every well-formed instruction back as that
instruction. -/
def Obligations.DecodeOfEncode : Prop := ∀ i, WellFormed i → decodeLine (encode i) = .ok [i]

/-- R61, R85 (D30): the same for a line of any number of slots. -/
def Obligations.DecodeOfEncodedLine : Prop :=
  ∀ line : Line, line ≠ [] → (∀ i ∈ line, WellFormed i) → decodeLine (encodeLine line) = .ok line

/-- R61, R68, R74, R81: whatever the text, a line the transcriber accepts has a slot and only well-formed slots. -/
def Obligations.DecodedLinesAreWellFormed : Prop :=
  ∀ text line, decodeLine text = .ok line → line ≠ [] ∧ ∀ i ∈ line, WellFormed i

/-- R75, R95, R152, R124, R138: texts written out from the forms of the listing decode to the terms the spec gives. -/
def Obligations.SampleTextsDecode : Prop :=
  decodeLine (("XTR5:4 = MAX(TR1:0 + R7:4_h, TR3:2 + R7:4_l);;").toList.map fun c => BitVec.ofNat 8 c.toNat) =
    .ok [.maxAdd .x false 4 0 2 4] ∧
  decodeLine (("XR9:8 = TR5:4;;").toList.map fun c => BitVec.ofNat 8 c.toNat) = .ok [.movRdTrd .x 8 4] ∧
  decodeLine (("XTR2 = DESPREAD (R7:4, THR1:0) + TR2;;").toList.map fun c => BitVec.ofNat 8 c.toNat) =
    .ok [.despreadAcc .x 2 4 0 2] ∧
  decodeLine (("XTR15:0 = XCORRS (R3:0, THR3:0) (CUT -15) (CLR);;").toList.map fun c => BitVec.ofNat 8 c.toNat) =
    .ok [.xcorrs .x 0 0 (.imm (-15)) true false]
end

