-- ==== Sys2Proof/Laws/State.lean ====
section
/-! SUPPORT. One lemma per field per update of the state, so that no later proof unfolds a record update. -/

namespace Sys2Proof.Machine

/-! ## Writing the flags -/

@[simp] theorem Block.setFlags_r (b : Block) (ov : Bool) : (b.setFlags ov).r = b.r := rfl
@[simp] theorem Block.setFlags_tr (b : Block) (ov : Bool) : (b.setFlags ov).tr = b.tr := rfl
@[simp] theorem Block.setFlags_thr (b : Block) (ov : Bool) : (b.setFlags ov).thr = b.thr := rfl
@[simp] theorem Block.setFlags_cmctl (b : Block) (ov : Bool) : (b.setFlags ov).cmctl = b.cmctl := rfl
@[simp] theorem Block.setFlags_trov (b : Block) (ov : Bool) : (b.setFlags ov).trov = ov := rfl
@[simp] theorem Block.setFlags_trsov (b : Block) (ov : Bool) : (b.setFlags ov).trsov = (b.trsov || ov) := rfl
@[simp] theorem Block.setFlags_draws (b : Block) (ov : Bool) : (b.setFlags ov).draws = b.draws := rfl
@[simp] theorem Block.setFlags_read (b : Block) (ov : Bool) (f : RegFile) (i : Nat) :
    (b.setFlags ov).read f i = b.read f i := by cases f <;> rfl

/-! ## Drawing TROV after a transfer -/

@[simp] theorem Block.drawTrov_r (b : Block) (id : BlockId) : (b.drawTrov id).r = b.r := rfl
@[simp] theorem Block.drawTrov_tr (b : Block) (id : BlockId) : (b.drawTrov id).tr = b.tr := rfl
@[simp] theorem Block.drawTrov_thr (b : Block) (id : BlockId) : (b.drawTrov id).thr = b.thr := rfl
@[simp] theorem Block.drawTrov_cmctl (b : Block) (id : BlockId) : (b.drawTrov id).cmctl = b.cmctl := rfl
@[simp] theorem Block.drawTrov_trsov (b : Block) (id : BlockId) : (b.drawTrov id).trsov = b.trsov := rfl
@[simp] theorem Block.drawTrov_draws (b : Block) (id : BlockId) : (b.drawTrov id).draws = b.draws + 1 := rfl
@[simp] theorem Block.drawTrov_read (b : Block) (id : BlockId) (f : RegFile) (i : Nat) :
    (b.drawTrov id).read f i = b.read f i := by cases f <;> rfl

/-- The draw of R165 is one of the two readings. -/
theorem Block.drawTrov_trov (b : Block) (id : BlockId) :
    (b.drawTrov id).trov = b.trov ∨ (b.drawTrov id).trov = false := by
  simp only [Block.drawTrov]
  cases Config.trovKept id b.draws <;> simp

/-! ## Writing a register -/

@[simp] theorem Block.write_cmctl (b : Block) (f : RegFile) (i : Nat) (v : Word) :
    (b.write f i v).cmctl = b.cmctl := by cases f <;> rfl
@[simp] theorem Block.write_trov (b : Block) (f : RegFile) (i : Nat) (v : Word) :
    (b.write f i v).trov = b.trov := by cases f <;> rfl
@[simp] theorem Block.write_trsov (b : Block) (f : RegFile) (i : Nat) (v : Word) :
    (b.write f i v).trsov = b.trsov := by cases f <;> rfl
@[simp] theorem Block.write_draws (b : Block) (f : RegFile) (i : Nat) (v : Word) :
    (b.write f i v).draws = b.draws := by cases f <;> rfl

/-! ## The machine -/

@[simp] theorem State.onBlocks_pc (s : State) (sel : BlockSel) (f : BlockId → Block → Block) :
    (s.onBlocks sel f).pc = s.pc := rfl
@[simp] theorem State.onBlocks_program (s : State) (sel : BlockSel) (f : BlockId → Block → Block) :
    (s.onBlocks sel f).program = s.program := rfl
@[simp] theorem State.onBlocks_x (s : State) (sel : BlockSel) (f : BlockId → Block → Block) :
    (s.onBlocks sel f).x = if sel.has .x then f .x s.x else s.x := rfl
@[simp] theorem State.onBlocks_y (s : State) (sel : BlockSel) (f : BlockId → Block → Block) :
    (s.onBlocks sel f).y = if sel.has .y then f .y s.y else s.y := rfl

/-- Each block is its own effect or its old self (R181). -/
@[simp] theorem State.onBlocks_block (s : State) (sel : BlockSel) (f : BlockId → Block → Block) (b : BlockId) :
    (s.onBlocks sel f).block b = if sel.has b then f b (s.block b) else s.block b := by cases b <;> rfl

@[simp] theorem State.block_x (s : State) : s.block .x = s.x := rfl
@[simp] theorem State.block_y (s : State) : s.block .y = s.y := rfl

@[simp] theorem State.advance_x (s : State) : s.advance.x = s.x := rfl
@[simp] theorem State.advance_y (s : State) : s.advance.y = s.y := rfl
@[simp] theorem State.advance_pc (s : State) : s.advance.pc = s.pc + 1 := rfl
@[simp] theorem State.advance_program (s : State) : s.advance.program = s.program := rfl
@[simp] theorem State.advance_block (s : State) (b : BlockId) : s.advance.block b = s.block b := by cases b <;> rfl

@[simp] theorem State.placeLine_x (s : State) (text : List Byte) : (s.placeLine text).x = s.x := rfl
@[simp] theorem State.placeLine_y (s : State) (text : List Byte) : (s.placeLine text).y = s.y := rfl
@[simp] theorem State.placeLine_pc (s : State) (text : List Byte) : (s.placeLine text).pc = s.pc := rfl

/-- The placed line is the one fetched next. -/
@[simp] theorem State.placeLine_fetch (s : State) (text : List Byte) : (s.placeLine text).fetch = some text := by
  simp only [State.fetch, State.placeLine]
  rw [List.getElem?_append_right (by simp; omega)]
  simp only [List.length_append, List.length_take, List.length_replicate]
  rw [show s.pc - (min s.pc s.program.length + (s.pc - s.program.length)) = 0 by omega]
  rfl

/-- Two states are equal when their blocks, pc and program are. -/
theorem State.ext_blocks {s t : State} (h : ∀ b, s.block b = t.block b) (hpc : s.pc = t.pc)
    (hprogram : s.program = t.program) : s = t := by
  have hx := h .x
  have hy := h .y
  cases s; cases t
  simp_all

end Sys2Proof.Machine
end

