-- ==== Sys2Proof/Laws/Ops.lean ====
section
/-! SUPPORT. What the shared operations on registers do, and how a meaning ends. -/

namespace Sys2Proof.Machine

/-! ## Reading after writing -/

/-- One read after one write (R9): the written register of an existing index, or the old one. -/
theorem Block.read_write (b : Block) (f g : RegFile) (i j : Nat) (v : Word) :
    (b.write f i v).read g j = if f = g ∧ i = j ∧ i < f.size then v else b.read g j := by
  cases f <;> cases g <;> simp only [Block.write, Block.read, RegFile.size, Vector.getElem?_setIfInBounds, reduceCtorEq,
    false_and, true_and, if_false]
  all_goals
    by_cases h : i = j
    · subst h
      by_cases hi : i < 32 <;> by_cases hi4 : i < 4 <;> simp [hi, hi4]
    · simp [h]

/-- The register just written. -/
theorem Block.read_write_same (b : Block) (f : RegFile) (i : Nat) (v : Word) (h : i < f.size) :
    (b.write f i v).read f i = v := by simp [Block.read_write, h]

/-- A register of another index. -/
theorem Block.read_write_idx_ne (b : Block) (f g : RegFile) (i j : Nat) (v : Word) (h : i ≠ j) :
    (b.write f i v).read g j = b.read g j := by simp [Block.read_write, h]

/-- A register of another file. -/
theorem Block.read_write_file_ne (b : Block) (f g : RegFile) (i j : Nat) (v : Word) (h : f ≠ g) :
    (b.write f i v).read g j = b.read g j := by simp [Block.read_write, h]

/-- One read after a double write (R9). -/
theorem Block.read_writeD (b : Block) (f g : RegFile) (i j : Nat) (v : BitVec 64) (h : i + 1 < f.size) :
    (b.writeD f i v).read g j =
      if f = g ∧ j = i then v.extractLsb' 0 32
      else if f = g ∧ j = i + 1 then v.extractLsb' 32 32
      else b.read g j := by
  have h0 : i < f.size := by omega
  simp only [Block.writeD, Block.read_write, h, h0, and_true]
  by_cases hf : f = g
  · by_cases h1 : j = i
    · subst h1; simp [hf]
    · by_cases h2 : j = i + 1
      · subst h2; simp [hf]
      · simp [hf, h1, h2, Ne.symm h1, Ne.symm h2]
  · simp [hf]

/-- A part of a half of a quad. -/
theorem extractLsb'_half (v : BitVec 128) (a c : Nat) (h : c + 32 ≤ 64) :
    (v.extractLsb' a 64).extractLsb' c 32 = v.extractLsb' (a + c) 32 := by
  ext k hk
  simp [show c + k < 64 by omega, Nat.add_assoc]

/-- One read after a quad write (R9). -/
theorem Block.read_writeQ (b : Block) (f g : RegFile) (i j : Nat) (v : BitVec 128) (h : i + 3 < f.size) :
    (b.writeQ f i v).read g j =
      if f = g ∧ i ≤ j ∧ j < i + 4 then v.extractLsb' (32 * (j - i)) 32 else b.read g j := by
  simp only [Block.writeQ, Block.read_writeD b f g i j _ (by omega), Block.read_writeD _ f g (i + 2) j _ (by omega),
    extractLsb'_half v _ _ (by omega : 0 + 32 ≤ 64), extractLsb'_half v _ _ (by omega : 32 + 32 ≤ 64)]
  by_cases hf : f = g
  · by_cases hj : i ≤ j ∧ j < i + 4
    · obtain ⟨k, rfl⟩ := Nat.exists_eq_add_of_le hj.1
      have hk : k < 4 := by omega
      interval_cases k
      all_goals simp [hf]
      all_goals omega
    · have : j ≠ i ∧ j ≠ i + 1 ∧ j ≠ i + 2 ∧ j ≠ i + 2 + 1 := by omega
      simp [hf, hj, this]
  · simp [hf]

/-- One read after a group write. -/
theorem Block.read_writeGroup (b : Block) (f g : RegFile) (i j : Nat) (vs : List Word) (h : i + vs.length ≤ f.size) :
    (b.writeGroup f i vs).read g j =
      if f = g ∧ i ≤ j ∧ j < i + vs.length then vs[j - i]?.getD 0 else b.read g j := by
  induction vs generalizing b i with
  | nil => simp [Block.writeGroup, show ¬(i ≤ j ∧ j < i) by omega]
  | cons v vs ih =>
    simp only [List.length_cons] at h
    simp only [Block.writeGroup, List.length_cons]
    rw [ih _ _ (by omega), Block.read_write]
    by_cases hf : f = g
    · by_cases h0 : j = i
      · subst h0
        simp [hf, show j < g.size by rw [← hf]; omega]
      · by_cases h1 : i + 1 ≤ j ∧ j < i + 1 + vs.length
        · have h2 : i ≤ j ∧ j < i + (vs.length + 1) := by omega
          have h3 : j - i = (j - (i + 1)) + 1 := by omega
          simp [hf, h1, h2, h3]
        · have h2 : ¬(i ≤ j ∧ j < i + (vs.length + 1)) := by omega
          rw [if_neg (fun c => h1 c.2), if_neg (by simp [Ne.symm h0]), if_neg (fun c => h2 c.2)]
    · simp [hf]

/-- A double read is its two registers (R9). -/
theorem Block.readD_eq (b : Block) (f : RegFile) (i : Nat) : b.readD f i = b.read f (i + 1) ++ b.read f i := rfl

/-- A quad read is its two doubles (R9). -/
theorem Block.readQ_eq (b : Block) (f : RegFile) (i : Nat) : b.readQ f i = b.readD f (i + 2) ++ b.readD f i := rfl

/-- The double just written. -/
theorem Block.readD_writeD_same (b : Block) (f : RegFile) (i : Nat) (v : BitVec 64) (h : i + 1 < f.size) :
    (b.writeD f i v).readD f i = v := by
  simp only [Block.readD, Block.read_writeD b f f i _ v h]
  simp only [true_and, Nat.add_eq_left, one_ne_zero, if_false, if_true]
  ext k hk
  simp only [BitVec.getElem_append, BitVec.getElem_extractLsb', Nat.zero_add]
  split
  · rw [BitVec.getLsbD_eq_getElem hk]
  · rw [show 32 + (k - 32) = k by omega, BitVec.getLsbD_eq_getElem hk]

/-- The quad just written. -/
theorem Block.readQ_writeQ_same (b : Block) (f : RegFile) (i : Nat) (v : BitVec 128) (h : i + 3 < f.size) :
    (b.writeQ f i v).readQ f i = v := by
  simp only [Block.readQ, Block.readD, Block.read_writeQ b f f i _ v h]
  ext k hk
  simp only [true_and, BitVec.getElem_append]
  split_ifs <;> simp_all <;> (try omega) <;> (rw [BitVec.getLsbD_eq_getElem (by omega)]; congr 1; omega)

/-! ## What register writes leave alone -/

@[simp] theorem Block.writeD_cmctl (b : Block) (f : RegFile) (i : Nat) (v : BitVec 64) :
    (b.writeD f i v).cmctl = b.cmctl := by simp [Block.writeD]
@[simp] theorem Block.writeD_trov (b : Block) (f : RegFile) (i : Nat) (v : BitVec 64) :
    (b.writeD f i v).trov = b.trov := by simp [Block.writeD]
@[simp] theorem Block.writeD_trsov (b : Block) (f : RegFile) (i : Nat) (v : BitVec 64) :
    (b.writeD f i v).trsov = b.trsov := by simp [Block.writeD]
@[simp] theorem Block.writeD_draws (b : Block) (f : RegFile) (i : Nat) (v : BitVec 64) :
    (b.writeD f i v).draws = b.draws := by simp [Block.writeD]

@[simp] theorem Block.writeQ_cmctl (b : Block) (f : RegFile) (i : Nat) (v : BitVec 128) :
    (b.writeQ f i v).cmctl = b.cmctl := by simp [Block.writeQ]
@[simp] theorem Block.writeQ_trov (b : Block) (f : RegFile) (i : Nat) (v : BitVec 128) :
    (b.writeQ f i v).trov = b.trov := by simp [Block.writeQ]
@[simp] theorem Block.writeQ_trsov (b : Block) (f : RegFile) (i : Nat) (v : BitVec 128) :
    (b.writeQ f i v).trsov = b.trsov := by simp [Block.writeQ]
@[simp] theorem Block.writeQ_draws (b : Block) (f : RegFile) (i : Nat) (v : BitVec 128) :
    (b.writeQ f i v).draws = b.draws := by simp [Block.writeQ]

/-- A group write changes no flag, no control register and no counter. -/
theorem Block.writeGroup_rest (b : Block) (f : RegFile) (i : Nat) (vs : List Word) :
    (b.writeGroup f i vs).cmctl = b.cmctl ∧ (b.writeGroup f i vs).trov = b.trov ∧
      (b.writeGroup f i vs).trsov = b.trsov ∧ (b.writeGroup f i vs).draws = b.draws := by
  induction vs generalizing b i with
  | nil => simp [Block.writeGroup]
  | cons v vs ih => simp [Block.writeGroup, ih]

@[simp] theorem Block.writeGroup_cmctl (b : Block) (f : RegFile) (i : Nat) (vs : List Word) :
    (b.writeGroup f i vs).cmctl = b.cmctl := (b.writeGroup_rest f i vs).1
@[simp] theorem Block.writeGroup_trov (b : Block) (f : RegFile) (i : Nat) (vs : List Word) :
    (b.writeGroup f i vs).trov = b.trov := (b.writeGroup_rest f i vs).2.1
@[simp] theorem Block.writeGroup_trsov (b : Block) (f : RegFile) (i : Nat) (vs : List Word) :
    (b.writeGroup f i vs).trsov = b.trsov := (b.writeGroup_rest f i vs).2.2.1
@[simp] theorem Block.writeGroup_draws (b : Block) (f : RegFile) (i : Nat) (vs : List Word) :
    (b.writeGroup f i vs).draws = b.draws := (b.writeGroup_rest f i vs).2.2.2

@[simp] theorem Block.setFlags_readD (b : Block) (ov : Bool) (f : RegFile) (i : Nat) :
    (b.setFlags ov).readD f i = b.readD f i := by simp [Block.readD]
@[simp] theorem Block.setFlags_readQ (b : Block) (ov : Bool) (f : RegFile) (i : Nat) :
    (b.setFlags ov).readQ f i = b.readQ f i := by simp [Block.readQ]
@[simp] theorem Block.drawTrov_readD (b : Block) (id : BlockId) (f : RegFile) (i : Nat) :
    (b.drawTrov id).readD f i = b.readD f i := by simp [Block.readD]
@[simp] theorem Block.drawTrov_readQ (b : Block) (id : BlockId) (f : RegFile) (i : Nat) :
    (b.drawTrov id).readQ f i = b.readQ f i := by simp [Block.readQ]

/-- Two blocks with the same registers, control register, flags and counter are equal. -/
theorem Block.ext_read {b c : Block} (h : ∀ f i, i < f.size → b.read f i = c.read f i) (hc : b.cmctl = c.cmctl)
    (ho : b.trov = c.trov) (hs : b.trsov = c.trsov) (hd : b.draws = c.draws) : b = c := by
  have hr : b.r = c.r := by
    ext i hi; have := h .r i hi; simpa [Block.read, hi] using congrArg (fun w => w[_]) this
  have htr : b.tr = c.tr := by
    ext i hi; have := h .tr i hi; simpa [Block.read, hi] using congrArg (fun w => w[_]) this
  have hthr : b.thr = c.thr := by
    ext i hi; have := h .thr i hi; simpa [Block.read, hi] using congrArg (fun w => w[_]) this
  cases b; cases c
  simp_all

/-! ## How a meaning ends -/

/-- A meaning completes exactly on well-formed terms, with its effect on the selected blocks (R181, R182). -/
theorem complete_eq_next (i : Instr) (f : BlockId → Block → Block) (s t : State) :
    complete i f s = .next t ↔ WellFormed i ∧ t = s.onBlocks i.blk f := by
  simp only [complete, WellFormed]
  cases i.failedCheck <;> simp [eq_comm]

/-- The completion of a well-formed term. -/
theorem complete_of_wellFormed {i : Instr} (h : WellFormed i) (f : BlockId → Block → Block) (s : State) :
    complete i f s = .next (s.onBlocks i.blk f) := by
  simp [complete, show i.failedCheck = none from h]

/-- A meaning never faults (R12). -/
theorem complete_ne_fault (i : Instr) (f : BlockId → Block → Block) (s : State) (e : Fault) :
    complete i f s ≠ .fault e := by
  simp only [complete]; split <;> simp

/-- A refused form gives no next state (R191). -/
theorem refuse_ne_next (i : Instr) (r : Refusal) (t : State) : refuse i r ≠ .next t := by
  simp only [refuse]; split <;> simp

/-- A refused form never faults (R12). -/
theorem refuse_ne_fault (i : Instr) (r : Refusal) (e : Fault) : refuse i r ≠ .fault e := by
  simp only [refuse]; split <;> simp

/-- The refusal of a well-formed term. -/
theorem refuse_of_wellFormed {i : Instr} (h : WellFormed i) (r : Refusal) : refuse i r = .refused r := by
  simp [refuse, show i.failedCheck = none from h]

end Sys2Proof.Machine
end

