-- ==== Sys2Proof/Laws/Exec.lean ====
section
/-! SUPPORT. Everything the execution of one slot can do: the effect of each form on one block, and the inversion of
`exec` into it. Later proofs cite these instead of unfolding a meaning. -/

namespace Sys2Proof.Machine

/-- The effect of a form on one block that executes it; a refused form has none. -/
def effect : Instr → BlockId → Block → Block
  | .tmaxAdd _ short trs trm trn rq, _, b => trellisBlock true true short trs trm trn rq b
  | .tmaxSub _ short trs trm trn rq, _, b => trellisBlock true false short trs trm trn rq b
  | .tmaxTr _ short rs trm trn, _, b => tmaxTrBlock short rs trm trn b
  | .maxAdd _ short trs trm trn rq, _, b => trellisBlock false true short trs trm trn rq b
  | .maxSub _ short trs trm trn rq, _, b => trellisBlock false false short trs trm trn rq b
  | .movRTr _ rs trm, id, b => (b.write .r rs (b.read .tr trm)).drawTrov id
  | .movRdTrd _ rs trm, id, b => (b.writeD .r rs (b.readD .tr trm)).drawTrov id
  | .movRqTrq _ rs trm, id, b => (b.writeQ .r rs (b.readQ .tr trm)).drawTrov id
  | .movTrR _ trs rm, id, b => (b.write .tr trs (b.read .r rm)).drawTrov id
  | .movTrdRd _ trs rm, id, b => (b.writeD .tr trs (b.readD .r rm)).drawTrov id
  | .movTrqRq _ trs rm, id, b => (b.writeQ .tr trs (b.readQ .r rm)).drawTrov id
  | .movRThr _ rs thrm, id, b => (b.write .r rs (b.read .thr thrm)).drawTrov id
  | .movRdThrd _ rs thrm, id, b => (b.writeD .r rs (b.readD .thr thrm)).drawTrov id
  | .movRqThrq _ _, _, b => b
  | .movThrR _ thrs rm, id, b => (b.write .thr thrs (b.read .r rm)).drawTrov id
  | .movThrdRd _ thrs rm _, id, b => (b.writeD .thr thrs (b.readD .r rm)).drawTrov id
  | .movThrqRq _ _, _, b => b
  | .despreadAcc _ trs rq thrd trn, _, b => despreadAccBlock trs rq thrd trn b
  | .despreadMov _ rs trs rq thrd, _, b => despreadMovBlock rs trs rq thrd b
  | .despreadMovd _ rs trs rq thrd, _, b => despreadMovdBlock rs trs rq thrd b
  | .xcorrs _ base rq cut clr _, _, b => xcorrsBlock base rq cut clr b
  | .xcorrsMov _ rs trb base rq cut clr _, _, b => (xcorrsBlock base rq cut clr b).writeQ .r rs (b.readQ .tr trb)
  | .acs _ _ _ _ _ _ _, _, b => b
  | .acsMov _ _ _ _ _ _ _ _ _, _, b => b
  | .permuteD _ _ _ _, _, b => b
  | .permuteQ _ _ _ _, _, b => b

/-- The forms the machine executes; the others are refused (R182). -/
def Implemented : Instr → Bool
  | .tmaxAdd _ _ _ _ _ _ => true
  | .tmaxSub _ _ _ _ _ _ => true
  | .tmaxTr _ _ _ _ _ => true
  | .maxAdd _ _ _ _ _ _ => true
  | .maxSub _ _ _ _ _ _ => true
  | .movRTr _ _ _ => true
  | .movRdTrd _ _ _ => true
  | .movRqTrq _ _ _ => true
  | .movTrR _ _ _ => true
  | .movTrdRd _ _ _ => true
  | .movTrqRq _ _ _ => true
  | .movRThr _ _ _ => true
  | .movRdThrd _ _ _ => true
  | .movRqThrq _ _ => false
  | .movThrR _ _ _ => true
  | .movThrdRd _ _ _ optI => !optI
  | .movThrqRq _ _ => false
  | .despreadAcc _ _ _ _ _ => true
  | .despreadMov _ _ _ _ _ => true
  | .despreadMovd _ _ _ _ _ => true
  | .xcorrs _ _ _ _ _ ext => !ext
  | .xcorrsMov _ _ _ _ _ _ _ ext => !ext
  | .acs _ _ _ _ _ _ _ => false
  | .acsMov _ _ _ _ _ _ _ _ _ => false
  | .permuteD _ _ _ _ => false
  | .permuteQ _ _ _ _ => false

/-- A slot answers a next state exactly when it is well formed and executed, and the state is its effect on the selected
blocks. -/
theorem exec_eq_next (i : Instr) (s t : State) :
    exec i s = .next t ↔ WellFormed i ∧ Implemented i = true ∧ t = s.onBlocks i.blk (effect i) := by
  cases i <;>
    simp only [exec, Implemented, execTmaxAdd, execTmaxSub, execTmaxTr, execMaxAdd, execMaxSub, execMovRTr, execMovRdTrd,
      execMovRqTrq, execMovTrR, execMovTrdRd, execMovTrqRq, execMovRThr, execMovRdThrd, execMovRqThrq, execMovThrR,
      execMovThrdRd, execMovThrqRq, execDespreadAcc, execDespreadMov, execDespreadMovd, execXcorrs, execXcorrsMov,
      execAcs, execAcsMov, execPermuteD, execPermuteQ, transfer, complete_eq_next, refuse_ne_next, true_and, false_and,
      and_false, Bool.false_eq_true]
  case movThrdRd blk thrs rm optI => cases optI <;> simp [complete_eq_next, refuse_ne_next]; intro _; rfl
  case xcorrs blk base rq cut clr ext => cases ext <;> simp [complete_eq_next, refuse_ne_next]; intro _; rfl
  case xcorrsMov blk rs trb base rq cut clr ext =>
    cases ext <;> simp [complete_eq_next, refuse_ne_next]; intro _; rfl
  all_goals rfl

end Sys2Proof.Machine
end

