-- ==== Sys2Proof/Laws/Line.lean ====
section
/-! SUPPORT. What the execution of a line does: a line of one slot, the fetch of a line's text, and the refusals. -/

namespace Sys2Proof.Machine

/-- Every block selection selects some block. -/
theorem BlockSel.has_some (sel : BlockSel) : sel.has .x = true ∨ sel.has .y = true := by cases sel <;> simp [BlockSel.has]

/-- A block the slot does not select keeps its state (R181). -/
theorem exec_block_unselected {i : Instr} {s t : State} (h : exec i s = .next t) {b : BlockId}
    (hb : i.blk.has b = false) : t.block b = s.block b := by
  obtain ⟨-, -, rfl⟩ := (exec_eq_next i s t).mp h
  simp [hb]

/-- A block the slot selects goes through the form's effect (R181). -/
theorem exec_block_selected {i : Instr} {s t : State} (h : exec i s = .next t) {b : BlockId}
    (hb : i.blk.has b = true) : t.block b = effect i b (s.block b) := by
  obtain ⟨-, -, rfl⟩ := (exec_eq_next i s t).mp h
  simp [hb]

/-- A slot changes neither the pc nor the program (R190, R43). -/
theorem exec_pc {i : Instr} {s t : State} (h : exec i s = .next t) : t.pc = s.pc := by
  obtain ⟨-, -, rfl⟩ := (exec_eq_next i s t).mp h; rfl

theorem exec_program {i : Instr} {s t : State} (h : exec i s = .next t) : t.program = s.program := by
  obtain ⟨-, -, rfl⟩ := (exec_eq_next i s t).mp h; rfl

/-- No line of one slot is refused by the admission rules (R186 (a)). -/
theorem lineRefusal_single (i : Instr) : lineRefusal [i] = none := by
  have h : ∀ b, blockRefusal b (slotsFor b [i]) = none := by
    intro b
    simp only [slotsFor, List.filter_cons, List.filter_nil]
    split <;> rfl
  simp [lineRefusal, h]

/-- A line of one slot is that slot, and then the pc advances (R180, R190). -/
theorem execLine_single (i : Instr) (s : State) :
    execLine [i] s = match exec i s with
      | .next t => .next t.advance
      | .fault e => .fault e
      | .refused r => .refused r := by
  simp only [execLine, lineRefusal_single, runSlots]
  cases h : exec i s with
  | next t =>
    simp only [Host.Outcome.next.injEq]
    refine State.ext_blocks ?_ (by simp [exec_pc h]) (by simp [exec_program h])
    intro b
    simp only [State.advance_block]
    cases hb : i.blk.has b with
    | true => cases b <;> simp [State.block, joinBlock, hb]
    | false =>
      rw [exec_block_unselected h hb]
      cases b <;> simp [State.block, joinBlock, hb]
  | fault e => rfl
  | refused r => rfl

/-- A step executes the text at the pc (R180). -/
theorem step_of_fetch {s : State} {text : List Byte} (h : s.fetch = some text) : step s = execText text s := by
  simp [step, h]

/-- A step that answers a next state has fetched, transcribed, admitted and executed a line. -/
theorem step_eq_next {s t : State} (h : step s = .next t) :
    ∃ text line done, s.fetch = some text ∧ decodeLine text = .ok line ∧ lineRefusal line = none ∧
      runSlots s line = .next done ∧
      t = State.advance { s with x := joinBlock .x s done, y := joinBlock .y s done } := by
  simp only [step, execText, execLine] at h
  split at h
  · split at h
    · split at h
      · cases h
      · split at h
        · simp only [Host.Outcome.next.injEq] at h
          exact ⟨_, _, _, ‹_›, ‹_›, ‹_›, ‹_›, h.symm⟩
        · cases h
        · cases h
    · cases h
  · cases h

/-- The slots of a line all complete on the state before it (R188). -/
theorem runSlots_eq_next {s : State} {line : Line} {done : List (Instr × State)} (h : runSlots s line = .next done) :
    done.map Prod.fst = line ∧ ∀ p ∈ done, exec p.1 s = .next p.2 := by
  induction line generalizing done with
  | nil => simp only [runSlots, Host.Outcome.next.injEq] at h; subst h; simp
  | cons i is ih =>
    simp only [runSlots] at h
    split at h
    · split at h
      · simp only [Host.Outcome.next.injEq] at h
        subst h
        obtain ⟨h1, h2⟩ := ih ‹_›
        refine ⟨by simp [h1], ?_⟩
        rintro p (_ | ⟨_, hp⟩)
        · assumption
        · exact h2 p hp
      · cases h
      · cases h
    · cases h
    · cases h

end Sys2Proof.Machine
end

