-- ==== Sys2Proof/Laws/Operands.lean ====
section
/-! SUPPORT. What the operand forms compute: lanes, saturation, the THR shift, register ranges. -/

namespace Sys2Proof.Machine

/-- A lane of packed lanes is the lane that was packed (R8). -/
theorem lane_packLanes {n w : Nat} (vs : List (BitVec n)) (j : Nat) (hj : j < vs.length) (hw : n * vs.length ≤ w) :
    lane n (packLanes w vs) j = vs[j] := by
  induction vs generalizing j w with
  | nil => simp at hj
  | cons v vs ih =>
    have hn : n ≤ w := le_trans (Nat.le_mul_of_pos_right n (by simp)) hw
    ext k hk
    cases j with
    | zero =>
      simp [lane, packLanes, show k < w by omega, hk]
    | succ j =>
      simp only [List.length_cons, Nat.mul_succ] at hw hj
      have h1 : n * j + n ≤ n * vs.length := by
        calc n * j + n = n * (j + 1) := by ring
          _ ≤ n * vs.length := Nat.mul_le_mul_left n (by omega)
      have hb : n * (j + 1) + k < w := by rw [Nat.mul_succ]; omega
      have h2 := congrArg (fun x => x.getLsbD k) (ih (w := w) j (by omega) (by omega))
      simp only [lane, BitVec.getLsbD_extractLsb', hk, decide_true, Bool.true_and] at h2
      simp only [lane, packLanes, BitVec.getElem_extractLsb', BitVec.getLsbD_or, BitVec.getLsbD_setWidth,
        BitVec.getLsbD_shiftLeft, hb, decide_true, Bool.true_and, List.getElem_cons_succ]
      rw [BitVec.getLsbD_of_ge v _ (by rw [Nat.mul_succ]; omega)]
      rw [show n * (j + 1) + k - n = n * j + k by rw [Nat.mul_succ]; omega, h2]
      simp [show ¬(n * (j + 1) + k < n) by rw [Nat.mul_succ]; omega, hk, BitVec.getLsbD_eq_getElem]

/-- The registers of a range. -/
theorem mem_regRange (f g : RegFile) (i k j : Nat) :
    (⟨g, j⟩ : Reg) ∈ regRange f i k ↔ g = f ∧ i ≤ j ∧ j < i + k := by
  simp only [regRange, List.mem_map, List.mem_range, Reg.mk.injEq]
  constructor
  · rintro ⟨a, ha, rfl, rfl⟩; exact ⟨rfl, by omega, by omega⟩
  · rintro ⟨rfl, h1, h2⟩; exact ⟨j - i, by omega, rfl, by omega⟩

/-- The saturated value is the integer clamped to the signed range of the lane (R11 with `CLU_SAT` on). -/
theorem sat_toInt (n : Nat) (hn : 0 < n) (z : Int) :
    (sat n z).1.toInt = max (-2 ^ (n - 1)) (min (2 ^ (n - 1) - 1) z) := by
  obtain ⟨m, rfl⟩ : ∃ m, n = m + 1 := ⟨n - 1, by omega⟩
  have hp : (0 : Int) < 2 ^ m := by positivity
  have key : ∀ y : Int, -2 ^ m ≤ y → y < 2 ^ m → (BitVec.ofInt (m + 1) y).toInt = y := by
    intro y h1 h2
    rw [BitVec.toInt_ofInt, Int.bmod_eq_of_le]
    · push_cast; rw [pow_succ]; omega
    · push_cast; rw [pow_succ]; omega
  simp only [sat, Config.cluSat, satWith, Nat.add_sub_cancel]
  split_ifs with h1 h2
  · rw [key _ (by omega) (by omega)]; omega
  · rw [key _ (by omega) (by omega)]; omega
  · rw [key _ (by omega) (by omega)]; omega

/-- The overflow bit: the integer is outside the signed range of the lane (R11). -/
theorem sat_ov (n : Nat) (z : Int) :
    (sat n z).2 = true ↔ z > 2 ^ (n - 1) - 1 ∨ z < -2 ^ (n - 1) := by
  simp only [sat, satWith]
  split_ifs <;> simp_all

/-- A bit of the shifted history: sixteen places up, zeros at the top (R31). -/
theorem getLsbD_shr16 {w : Nat} (v : BitVec w) (k : Nat) : (shr16 v).getLsbD k = v.getLsbD (16 + k) := by
  simp [shr16, Config.thrShiftFill]

end Sys2Proof.Machine
end

