-- ==== Sys2Proof/Laws/WellFormed.lean ====
section
/-! SUPPORT. Well-formedness as arithmetic on the operands (30_encoding.md R68, R74): one lemma per operand shape. -/

namespace Sys2Proof

/-- No check of a list fails. -/
def Check.Passed (l : List (Check × Bool)) : Prop := Check.firstFailed l = none

theorem wellFormed_def (i : Instr) : WellFormed i ↔ Check.Passed i.checks := Iff.rfl

@[simp] theorem Check.passed_nil : Check.Passed [] := rfl

@[simp] theorem Check.passed_cons (c : Check) (ok : Bool) (l : List (Check × Bool)) :
    Check.Passed ((c, ok) :: l) ↔ ok = true ∧ Check.Passed l := by
  cases ok <;> simp [Check.Passed, Check.firstFailed]

@[simp] theorem Check.passed_append (l m : List (Check × Bool)) :
    Check.Passed (l ++ m) ↔ Check.Passed l ∧ Check.Passed m := by
  induction l with
  | nil => simp
  | cons p l ih => obtain ⟨c, ok⟩ := p; simp [ih, and_assoc]

@[simp] theorem Check.passed_forR (i : Nat) : Check.Passed (Check.forR i) ↔ i ≤ 31 := by simp [Check.forR]
@[simp] theorem Check.passed_forRd (i : Nat) : Check.Passed (Check.forRd i) ↔ i ≤ 31 ∧ i % 2 = 0 := by
  simp [Check.forRd]
@[simp] theorem Check.passed_forRq (i : Nat) : Check.Passed (Check.forRq i) ↔ i ≤ 31 ∧ i % 4 = 0 := by
  simp [Check.forRq]
@[simp] theorem Check.passed_forTr (i : Nat) : Check.Passed (Check.forTr i) ↔ i ≤ 31 := by simp [Check.forTr]
@[simp] theorem Check.passed_forTrd (i : Nat) : Check.Passed (Check.forTrd i) ↔ i ≤ 31 ∧ i % 2 = 0 := by
  simp [Check.forTrd]
@[simp] theorem Check.passed_forTrq (i : Nat) : Check.Passed (Check.forTrq i) ↔ i ≤ 31 ∧ i % 4 = 0 := by
  simp [Check.forTrq]
@[simp] theorem Check.passed_forTra (i : Nat) : Check.Passed (Check.forTra i) ↔ i = 0 ∨ i = 16 := by
  simp [Check.forTra]
@[simp] theorem Check.passed_forThr (i : Nat) : Check.Passed (Check.forThr i) ↔ i ≤ 3 := by simp [Check.forThr]
@[simp] theorem Check.passed_forThrd (i : Nat) : Check.Passed (Check.forThrd i) ↔ i = 0 ∨ i = 2 := by
  simp [Check.forThrd]
@[simp] theorem Check.passed_forCut_none : Check.Passed (Check.forCut .none) := rfl
@[simp] theorem Check.passed_forCut_imm (k : Int) : Check.Passed (Check.forCut (.imm k)) ↔ -22 ≤ k ∧ k ≤ 22 := by
  simp only [Check.forCut, Check.passed_cons, Check.passed_nil, and_true]
  exact decide_eq_true_iff
@[simp] theorem Check.passed_forCut_reg : Check.Passed (Check.forCut .reg) := rfl

end Sys2Proof
end

