-- ==== Sys2Proof/Laws/PerInstr.lean ====
section
/-! SUPPORT. Statements made per instruction about its syntax: every register a well-formed instruction reads or writes
by the tables R21, R26, R29 exists (30_encoding.md R68). -/

namespace Sys2Proof.Laws.Registers

open Sys2Proof.Machine

/-- Every register of a list exists in its file. -/
def Exist (l : List Reg) : Prop := ∀ r ∈ l, r.idx < r.file.size

/-- The registers the tables name for a well-formed instruction exist in their files. -/
def Statement (i : Instr) : Prop := WellFormed i → Exist (readsOf i ++ writesOf i)

@[simp] theorem exist_nil : Exist [] := by simp [Exist]

@[simp] theorem exist_append (l m : List Reg) : Exist (l ++ m) ↔ Exist l ∧ Exist m := by
  simp only [Exist, List.mem_append]
  exact ⟨fun h => ⟨fun r hr => h r (.inl hr), fun r hr => h r (.inr hr)⟩, fun h r hr => hr.elim (h.1 r) (h.2 r)⟩

/-- A range that fits its file holds only registers of the file. -/
theorem exist_regRange {f : RegFile} {i k : Nat} (h : i + k ≤ f.size) : Exist (regRange f i k) := by
  rintro ⟨g, j⟩ hr
  obtain ⟨rfl, -, h2⟩ := (mem_regRange _ _ _ _ _).mp hr
  exact lt_of_lt_of_le h2 h

theorem tmaxAdd : ∀ blk short trs trm trn rq, Statement (.tmaxAdd blk short trs trm trn rq) := by
  intro blk short trs trm trn rq h
  simp [wellFormed_def, Instr.checks] at h
  simp [readsOf, writesOf, resultsOf, shiftedOf]
  and_intros
  all_goals exact exist_regRange (by simp only [RegFile.size]; omega)

theorem tmaxSub : ∀ blk short trs trm trn rq, Statement (.tmaxSub blk short trs trm trn rq) := by
  intro blk short trs trm trn rq h
  simp [wellFormed_def, Instr.checks] at h
  simp [readsOf, writesOf, resultsOf, shiftedOf]
  and_intros
  all_goals exact exist_regRange (by simp only [RegFile.size]; omega)

theorem tmaxTr : ∀ blk short rs trm trn, Statement (.tmaxTr blk short rs trm trn) := by
  intro blk short rs trm trn h
  simp [wellFormed_def, Instr.checks] at h
  simp [readsOf, writesOf, resultsOf, shiftedOf]
  and_intros
  all_goals exact exist_regRange (by simp only [RegFile.size]; omega)

theorem maxAdd : ∀ blk short trs trm trn rq, Statement (.maxAdd blk short trs trm trn rq) := by
  intro blk short trs trm trn rq h
  simp [wellFormed_def, Instr.checks] at h
  simp [readsOf, writesOf, resultsOf, shiftedOf]
  and_intros
  all_goals exact exist_regRange (by simp only [RegFile.size]; omega)

theorem maxSub : ∀ blk short trs trm trn rq, Statement (.maxSub blk short trs trm trn rq) := by
  intro blk short trs trm trn rq h
  simp [wellFormed_def, Instr.checks] at h
  simp [readsOf, writesOf, resultsOf, shiftedOf]
  and_intros
  all_goals exact exist_regRange (by simp only [RegFile.size]; omega)

theorem movRTr : ∀ blk rs trm, Statement (.movRTr blk rs trm) := by
  intro blk rs trm h
  simp [wellFormed_def, Instr.checks] at h
  simp [readsOf, writesOf, resultsOf, shiftedOf]
  and_intros
  all_goals exact exist_regRange (by simp only [RegFile.size]; omega)

theorem movRdTrd : ∀ blk rs trm, Statement (.movRdTrd blk rs trm) := by
  intro blk rs trm h
  simp [wellFormed_def, Instr.checks] at h
  simp [readsOf, writesOf, resultsOf, shiftedOf]
  and_intros
  all_goals exact exist_regRange (by simp only [RegFile.size]; omega)

theorem movRqTrq : ∀ blk rs trm, Statement (.movRqTrq blk rs trm) := by
  intro blk rs trm h
  simp [wellFormed_def, Instr.checks] at h
  simp [readsOf, writesOf, resultsOf, shiftedOf]
  and_intros
  all_goals exact exist_regRange (by simp only [RegFile.size]; omega)

theorem movTrR : ∀ blk trs rm, Statement (.movTrR blk trs rm) := by
  intro blk trs rm h
  simp [wellFormed_def, Instr.checks] at h
  simp [readsOf, writesOf, resultsOf, shiftedOf]
  and_intros
  all_goals exact exist_regRange (by simp only [RegFile.size]; omega)

theorem movTrdRd : ∀ blk trs rm, Statement (.movTrdRd blk trs rm) := by
  intro blk trs rm h
  simp [wellFormed_def, Instr.checks] at h
  simp [readsOf, writesOf, resultsOf, shiftedOf]
  and_intros
  all_goals exact exist_regRange (by simp only [RegFile.size]; omega)

theorem movTrqRq : ∀ blk trs rm, Statement (.movTrqRq blk trs rm) := by
  intro blk trs rm h
  simp [wellFormed_def, Instr.checks] at h
  simp [readsOf, writesOf, resultsOf, shiftedOf]
  and_intros
  all_goals exact exist_regRange (by simp only [RegFile.size]; omega)

theorem movRThr : ∀ blk rs thrm, Statement (.movRThr blk rs thrm) := by
  intro blk rs thrm h
  simp [wellFormed_def, Instr.checks] at h
  simp [readsOf, writesOf, resultsOf, shiftedOf]
  and_intros
  all_goals exact exist_regRange (by simp only [RegFile.size]; omega)

theorem movRdThrd : ∀ blk rs thrm, Statement (.movRdThrd blk rs thrm) := by
  intro blk rs thrm h
  simp [wellFormed_def, Instr.checks] at h
  simp [readsOf, writesOf, resultsOf, shiftedOf]
  and_intros
  all_goals exact exist_regRange (by simp only [RegFile.size]; omega)

theorem movRqThrq : ∀ blk rs, Statement (.movRqThrq blk rs) := by
  intro blk rs _
  simp [readsOf, writesOf, resultsOf, shiftedOf]

theorem movThrR : ∀ blk thrs rm, Statement (.movThrR blk thrs rm) := by
  intro blk thrs rm h
  simp [wellFormed_def, Instr.checks] at h
  simp [readsOf, writesOf, resultsOf, shiftedOf]
  and_intros
  all_goals exact exist_regRange (by simp only [RegFile.size]; omega)

theorem movThrdRd : ∀ blk thrs rm optI, Statement (.movThrdRd blk thrs rm optI) := by
  intro blk thrs rm optI h
  simp [wellFormed_def, Instr.checks] at h
  simp [readsOf, writesOf, resultsOf, shiftedOf]
  and_intros
  all_goals exact exist_regRange (by simp only [RegFile.size]; omega)

theorem movThrqRq : ∀ blk rm, Statement (.movThrqRq blk rm) := by
  intro blk rm _
  simp [readsOf, writesOf, resultsOf, shiftedOf]

theorem despreadAcc : ∀ blk trs rq thrd trn, Statement (.despreadAcc blk trs rq thrd trn) := by
  intro blk trs rq thrd trn h
  simp [wellFormed_def, Instr.checks] at h
  simp [readsOf, writesOf, resultsOf, shiftedOf]
  and_intros
  all_goals exact exist_regRange (by simp only [RegFile.size]; omega)

theorem despreadMov : ∀ blk rs trs rq thrd, Statement (.despreadMov blk rs trs rq thrd) := by
  intro blk rs trs rq thrd h
  simp [wellFormed_def, Instr.checks] at h
  simp [readsOf, writesOf, resultsOf, shiftedOf]
  and_intros
  all_goals exact exist_regRange (by simp only [RegFile.size]; omega)

theorem despreadMovd : ∀ blk rs trs rq thrd, Statement (.despreadMovd blk rs trs rq thrd) := by
  intro blk rs trs rq thrd h
  simp [wellFormed_def, Instr.checks] at h
  simp [readsOf, writesOf, resultsOf, shiftedOf]
  and_intros
  all_goals exact exist_regRange (by simp only [RegFile.size]; omega)

theorem xcorrs : ∀ blk base rq cut clr ext, Statement (.xcorrs blk base rq cut clr ext) := by
  intro blk base rq cut clr ext h
  simp only [wellFormed_def, Instr.checks, Check.passed_append, Check.passed_forRq, Check.passed_forTra] at h
  simp only [readsOf, writesOf, resultsOf, shiftedOf, exist_append]
  cases clr <;> simp only [Bool.false_eq_true, if_true, if_false, exist_nil, and_true]
  and_intros
  all_goals exact exist_regRange (by simp only [RegFile.size]; omega)

theorem xcorrsMov : ∀ blk rs trb base rq cut clr ext, Statement (.xcorrsMov blk rs trb base rq cut clr ext) := by
  intro blk rs trb base rq cut clr ext h
  simp only [wellFormed_def, Instr.checks, Check.passed_append, Check.passed_forRq, Check.passed_forTrq,
    Check.passed_forTra] at h
  simp only [readsOf, writesOf, resultsOf, shiftedOf, exist_append]
  cases clr <;> simp only [Bool.false_eq_true, if_true, if_false, exist_nil, and_true]
  and_intros
  all_goals exact exist_regRange (by simp only [RegFile.size]; omega)

theorem acs : ∀ blk short trs trm trn rm tmax, Statement (.acs blk short trs trm trn rm tmax) := by
  intro blk short trs trm trn rm tmax h
  simp [wellFormed_def, Instr.checks] at h
  simp [readsOf, writesOf, resultsOf, shiftedOf]
  and_intros
  all_goals exact exist_regRange (by simp only [RegFile.size]; omega)

theorem acsMov : ∀ blk rs tra short trs trm trn rm tmax, Statement (.acsMov blk rs tra short trs trm trn rm tmax) := by
  intro blk rs tra short trs trm trn rm tmax h
  simp [wellFormed_def, Instr.checks] at h
  simp [readsOf, writesOf, resultsOf, shiftedOf]
  and_intros
  all_goals exact exist_regRange (by simp only [RegFile.size]; omega)

theorem permuteD : ∀ blk rs rm rn, Statement (.permuteD blk rs rm rn) := by
  intro blk rs rm rn h
  simp [wellFormed_def, Instr.checks] at h
  simp [readsOf, writesOf, resultsOf, shiftedOf]
  and_intros
  all_goals exact exist_regRange (by simp only [RegFile.size]; omega)

theorem permuteQ : ∀ blk rs rm rn, Statement (.permuteQ blk rs rm rn) := by
  intro blk rs rm rn h
  simp [wellFormed_def, Instr.checks] at h
  simp [readsOf, writesOf, resultsOf, shiftedOf]
  and_intros
  all_goals exact exist_regRange (by simp only [RegFile.size]; omega)

end Sys2Proof.Laws.Registers
end

