-- ==== Sys2Proof/Tests/Slice0.lean ====
section
/-! SUPPORT. Tests of the model against spec/: the texts of 30_encoding.md and the vectors of 95_test_vectors.md, each
named; an ill-formed term for every check; and a witness for the hypotheses of every statement. -/

namespace Sys2Proof.Tests

open Machine

/-! ## Helpers -/

/-- The bytes of a line of text. -/
def txt (t : String) : List Byte := t.toList.map fun c => BitVec.ofNat 8 c.toNat

/-- The number whose bits 8k+7..8k are the text's byte k. -/
def wordOf (t : String) : Nat := (txt t).foldr (fun b n => n * 256 + b.toNat) 0

/-- A block with the `k` registers of a file from `i` on set to the 32-bit parts of a number, the lowest part first. -/
def put (f : RegFile) (i : Nat) : Nat → Nat → Block → Block
  | 0, _, b => b
  | k + 1, v, b => put f (i + 1) k (v / 2 ^ 32) (b.write f i (BitVec.ofNat 32 v))

/-- The number `k` registers from `i` on hold, the first one lowest. -/
def get (f : RegFile) (i : Nat) : Nat → Block → Nat
  | 0, _ => 0
  | k + 1, b => (b.read f i).toNat + 2 ^ 32 * get f (i + 1) k b

/-- The launch state with a given block X. -/
def inX (b : Block) : State := { State.reset with x := b }

/-- A state whose only line is `t`. -/
def withText (t : String) (s : State) : State := { s with pc := 0, program := [txt t] }

/-- What is seen of an outcome: `f` of the next state, if there is one. -/
def seen {α : Type} (f : State → α) : Host.Outcome State Fault Refusal → Option α
  | .next t => some (f t)
  | .fault _ => none
  | .refused _ => none

/-- Why an outcome is refused, if it is. -/
def refusalOf : Host.Outcome State Fault Refusal → Option Refusal
  | .refused r => some r
  | .next _ => none
  | .fault _ => none

/-- What is seen of block X after one instruction. -/
def afterX {α : Type} (i : Instr) (b : Block) (f : Block → α) : Option α := seen (fun t => f t.x) (exec i (inX b))

/-! ## Decoding: texts written out from the forms of Listing 4-2 (R75) -/

theorem test_decode_tmaxAdd : decodeLine (txt "XSTR1:0 = TMAX(TR3:2 + R7:4_h, TR5:4 + R7:4_l);;") =
    .ok [.tmaxAdd .x true 0 2 4 4] := by decide

theorem test_decode_tmaxSub : decodeLine (txt "YTR31:30 = TMAX(TR3:2 - R31:28_h, TR5:4 - R31:28_l);;") =
    .ok [.tmaxSub .y false 30 2 4 28] := by decide

theorem test_decode_tmaxTr : decodeLine (txt "XYSR2 = TMAX(TR0, TR1);;") = .ok [.tmaxTr .xy true 2 0 1] := by decide

theorem test_decode_maxAdd : decodeLine (txt "XTR5:4 = MAX(TR1:0 + R7:4_h, TR3:2 + R7:4_l);;") =
    .ok [.maxAdd .x false 4 0 2 4] := by decide

theorem test_decode_maxSub : decodeLine (txt "XSTR1:0 = MAX(TR3:2 - R7:4_h, TR5:4 - R7:4_l);;") =
    .ok [.maxSub .x true 0 2 4 4] := by decide

theorem test_decode_movRTr : decodeLine (txt "XR2 = TR7;;") = .ok [.movRTr .x 2 7] := by decide

theorem test_decode_movRdTrd : decodeLine (txt "XR9:8 = TR5:4;;") = .ok [.movRdTrd .x 8 4] := by decide

theorem test_decode_movRqTrq : decodeLine (txt "YR3:0 = TR3:0;;") = .ok [.movRqTrq .y 0 0] := by decide

theorem test_decode_movTrR : decodeLine (txt "XYTR16 = R0;;") = .ok [.movTrR .xy 16 0] := by decide

theorem test_decode_movTrdRd : decodeLine (txt "XTR3:2 = R3:2;;") = .ok [.movTrdRd .x 2 2] := by decide

theorem test_decode_movTrqRq : decodeLine (txt "XTR19:16 = R7:4;;") = .ok [.movTrqRq .x 16 4] := by decide

theorem test_decode_movRThr : decodeLine (txt "XR5 = THR1;;") = .ok [.movRThr .x 5 1] := by decide

theorem test_decode_movRdThrd : decodeLine (txt "XR5:4 = THR1:0;;") = .ok [.movRdThrd .x 4 0] := by decide

/-- V70. -/
theorem test_decode_movRqThrq : decodeLine (txt "XR3:0 = THR3:0;;") = .ok [.movRqThrq .x 0] := by decide

theorem test_decode_movThrR : decodeLine (txt "XTHR0 = R6;;") = .ok [.movThrR .x 0 6] := by decide

theorem test_decode_movThrdRd : decodeLine (txt "XTHR3:2 = R7:6;;") = .ok [.movThrdRd .x 2 6 false] := by decide

/-- V72. -/
theorem test_decode_movThrdRd_i : decodeLine (txt "XTHR1:0 = R7:6 (i);;") = .ok [.movThrdRd .x 0 6 true] := by decide

/-- V71. -/
theorem test_decode_movThrqRq : decodeLine (txt "XTHR3:0 = R7:4;;") = .ok [.movThrqRq .x 4] := by decide

theorem test_decode_despreadAcc : decodeLine (txt "XTR4 = DESPREAD (R3:0, THR1:0) + TR5;;") =
    .ok [.despreadAcc .x 4 0 0 5] := by decide

/-- V83, R84: the other spelling. -/
theorem test_decode_accumulate : decodeLine (txt "XTR4 += DESPREAD (R3:0, THR1:0);;") =
    .ok [.despreadAcc .x 4 0 0 4] := by decide

theorem test_decode_despreadMov : decodeLine (txt "XR8 = TR4, TR4 = DESPREAD (R3:0, THR3:2);;") =
    .ok [.despreadMov .x 8 4 0 2] := by decide

theorem test_decode_despreadMovd : decodeLine (txt "XR9:8 = TR5:4, TR5:4 = DESPREAD (R3:0, THR1:0);;") =
    .ok [.despreadMovd .x 8 4 0 0] := by decide

theorem test_decode_xcorrs : decodeLine (txt "XTR31:16 = XCORRS (R3:0, THR3:0) (CUT -15) (CLR);;") =
    .ok [.xcorrs .x 16 0 (.imm (-15)) true false] := by decide

theorem test_decode_xcorrs_reg_ext : decodeLine (txt "XTR15:0 = XCORRS (R7:4, THR3:0) (CUT R) (EXT);;") =
    .ok [.xcorrs .x 0 4 .reg false true] := by decide

theorem test_decode_xcorrsMov : decodeLine (txt "XR11:8 = TR3:0, TR15:0 = XCORRS (R7:4, THR3:0) (CLR);;") =
    .ok [.xcorrsMov .x 8 0 0 4 .none true false] := by decide

/-- V73. -/
theorem test_decode_acs : decodeLine (txt "XSTR3:0 = ACS (TR5:4, TR7:6, R8) (TMAX);;") =
    .ok [.acs .x true 0 4 6 8 true] := by decide

/-- R113's example, in lower case (R66). -/
theorem test_decode_acsMov : decodeLine (txt "xr3:0 = tr11:8, tr11:8 = acs (tr1:0, tr3:2, r4);;") =
    .ok [.acsMov .x 0 8 false 8 0 2 4 false] := by decide

/-- V74. -/
theorem test_decode_permuteD : decodeLine (txt "XR1:0 = PERMUTE (R3:2, R4);;") = .ok [.permuteD .x 0 2 4] := by decide

theorem test_decode_permuteQ : decodeLine (txt "XR7:4 = PERMUTE (R3:2, -R3:2, R8);;") = .ok [.permuteQ .x 4 2 8] := by
  decide

/-- D2: an omitted block is XY; R62: comments; R61: two slots. -/
theorem test_decode_line : decodeLine (txt "TR5 = R01; /* codes */ YTHR0=R6 ;;") =
    .ok [.movTrR .xy 5 1, .movThrR .y 0 6] := by decide

theorem test_tableWord : decodeTableWord 88 (wordOf "XR2 = TR7;;") = some (.movRTr .x 2 7) := by decide

/-! ## Text the transcriber refuses (V76 to V85, R68, R81) -/

theorem test_text_cut : decodeLine (txt "XTR15:0 = XCORRS (R7:4, THR3:0) (CUT 23);;") = .error (.failed .cutImm) := by
  decide

theorem test_text_double : decodeLine (txt "XTR2:1 = R3:2;;") = .error (.failed .dblEven) := by decide

theorem test_text_quad : decodeLine (txt "XTR6:3 = R3:0;;") = .error (.failed .quadMult4) := by decide

theorem test_text_group : decodeLine (txt "XTR23:8 = XCORRS (R3:0, THR3:0);;") = .error (.failed .grp16) := by decide

theorem test_text_thrd : decodeLine (txt "XTR4 = DESPREAD (R3:0, THR2:1) + TR4;;") = .error (.failed .thrd) := by decide

theorem test_text_idxR : decodeLine (txt "XR32 = TR0;;") = .error (.failed .idxR) := by decide

/-- The check no abstract term can fail: the code operand is `THR3:0`. -/
theorem test_text_thrq : decodeLine (txt "XTR15:0 = XCORRS (R7:4, THR4:1);;") = .error (.failed .thrq0) := by decide

/-- A group of another length than the operand's: the model's choice of name (log 37). -/
theorem test_text_length : decodeLine (txt "XTR4 = DESPREAD (R3:0, THR2:0) + TR4;;") = .error .noSuchForm := by decide

/-- Text left over after a complete transfer: the model's choice of name (log 37). -/
theorem test_text_leftover : decodeLine (txt "XR0 = R1 + R2;;") = .error .badOption := by decide

theorem test_text_halves : decodeLine (txt "XTR1:0 = TMAX(TR1:0 + R7:4_h, TR3:2 + R3:0_l);;") = .error .halvesDiffer := by
  decide

theorem test_text_form : decodeLine (txt "XTHR0 = TR1;;") = .error .noSuchForm := by decide

theorem test_text_order : decodeLine (txt "XTR15:0 = XCORRS (R7:4, THR3:0) (CLR) (CUT -7);;") = .error .badOption := by
  decide

theorem test_text_option : decodeLine (txt "XTR1:0 = MAX(TR1:0 + R7:4_h, TR3:2 + R7:4_l) (TMAX);;") =
    .error .badOption := by decide

theorem test_text_permute : decodeLine (txt "XR7:4 = PERMUTE (R3:2, -R1:0, R8);;") = .error .negatedOperandDiffers := by
  decide

theorem test_text_open : decodeLine (txt "XR2 = TR7;") = .error .notClosed := by decide

/-! ## Ill-formed terms, one per check (R68, R74) -/

theorem test_check_idxR : (Instr.movRTr .x 32 0).failedCheck = some .idxR := by decide

theorem test_check_idxTR : (Instr.movRTr .x 0 32).failedCheck = some .idxTR := by decide

theorem test_check_idxTHR : (Instr.movRThr .x 0 4).failedCheck = some .idxTHR := by decide

theorem test_check_dblEven : (Instr.movRdTrd .x 1 0).failedCheck = some .dblEven := by decide

theorem test_check_quadMult4 : (Instr.movRqTrq .x 0 2).failedCheck = some .quadMult4 := by decide

theorem test_check_grp16 : (Instr.xcorrs .x 8 0 .none false false).failedCheck = some .grp16 := by decide

theorem test_check_thrd : (Instr.despreadAcc .x 0 0 1 0).failedCheck = some .thrd := by decide

theorem test_check_cutImm : (Instr.xcorrs .x 0 0 (.imm (-23)) false false).failedCheck = some .cutImm := by decide

theorem test_refused_by_check : refusalOf (exec (.movRTr .x 32 0) State.reset) = some (.illFormed .idxR) := by decide

/-! ## TMAX and MAX (V4 to V21, W1 to W12, V22 to V29b) -/

/-- The boundary sweep of `tmax_tab`. -/
theorem test_tmaxTab : [0, 1, 2, 3, 11, 12, 15, 16, 35, 36, 39, 40, 63, 64, 79, 80, 95, 96, 127, 128, 1000].map tmaxTab =
    [22, 22, 21, 21, 17, 16, 16, 14, 10, 8, 8, 7, 5, 3, 3, 2, 2, 1, 1, 0, 0] := by decide

/-- V4, V5, V6, V9, V10, V12, V13, V15, V17, V20. -/
theorem test_tmax : tmax 0 1 = 23 ∧ tmax 2 0 = 23 ∧ tmax 0 2 = 24 ∧ tmax 16 0 = 30 ∧ tmax 0 16 = 32 ∧ tmax 128 0 = 128 ∧
    tmax 0 128 = 129 ∧ tmax (-3) 4 = 23 ∧ tmax (-100) (-100) = -78 ∧ tmax 90 100 = 118 := by decide

/-- W7: one lane saturates, the flag is the OR. -/
theorem test_tmaxTr_w7 : afterX (.tmaxTr .x true 2 0 1) (put .tr 0 2 0x7FFF8000_7FFF8000 Block.reset)
    (fun c => (c.read .r 2, c.trov, c.trsov)) = some (0x7FFF8016, true, true) := by decide

/-- W4: the difference is exact. -/
theorem test_tmaxTr_w4 : afterX (.tmaxTr .x false 2 0 1) (put .tr 0 2 0x7FFFFFFF_80000000 Block.reset)
    (fun c => (c.read .r 2, c.trov)) = some (0x7FFFFFFF, false) := by decide

/-- The registers of V22 to V25. -/
def shorts : Block :=
  put .tr 2 2 0x7FF00001_80000100 (put .tr 4 2 0x00000002_000000F0
    (put .r 4 4 0x00200001_FFFF0010_00010001_00010010 Block.reset))

/-- The registers of V26 to V29. -/
def words : Block :=
  put .tr 2 2 0x00000010_00000064 (put .tr 4 2 0xFFFFFFF0_00000060
    (put .r 4 4 0x00000002_00000001_00000004_00000003 Block.reset))

/-- The registers of V29a and V29b. -/
def lowest : Block :=
  put .tr 2 2 0x00000000_00000005 (put .tr 4 2 0xFFFFFFFF_80000000
    (put .r 4 4 0x80000000_00000001_00000001_00000001 Block.reset))

/-- V22. -/
theorem test_tmaxAdd_v22 : afterX (.tmaxAdd .x true 0 2 4 4) shorts (fun c => (get .tr 0 2 c, c.trov)) =
    some (0x7FFF0019_0001011E, true) := by decide

/-- V26. -/
theorem test_tmaxAdd_v26 : afterX (.tmaxAdd .x false 0 2 4 4) words (fun c => (get .tr 0 2 c, c.trov)) =
    some (0x0000001D_0000007A, false) := by decide

/-- V24. -/
theorem test_tmaxSub_v24 : afterX (.tmaxSub .x true 0 2 4 4) shorts (fun c => (get .tr 0 2 c, c.trov)) =
    some (0x7FD00017_FFFF00FE, false) := by decide

/-- V29a. -/
theorem test_tmaxSub_v29a : afterX (.tmaxSub .x false 0 2 4 4) lowest (fun c => (get .tr 0 2 c, c.trov)) =
    some (0x7FFFFFFF_00000004, true) := by decide

/-- V23. -/
theorem test_maxAdd_v23 : afterX (.maxAdd .x true 0 2 4 4) shorts (fun c => (get .tr 0 2 c, c.trov)) =
    some (0x7FFF0003_00010110, true) := by decide

/-- V28, the destination one of the sources. -/
theorem test_maxAdd_v28 : afterX (.maxAdd .x false 2 2 4 4) words (fun c => (get .tr 2 2 c, c.trov)) =
    some (0x00000012_00000065, false) := by decide

/-- V25. -/
theorem test_maxSub_v25 : afterX (.maxSub .x true 0 2 4 4) shorts (fun c => (get .tr 0 2 c, c.trov)) =
    some (0x7FD00001_FFFF00F0, false) := by decide

/-- V29. -/
theorem test_maxSub_v29 : afterX (.maxSub .x false 0 2 4 4) words (fun c => (get .tr 0 2 c, c.trov)) =
    some (0x0000000E_00000063, false) := by decide

/-! ## Transfers (V54 to V63) -/

/-- V54, with TROV clear before: it is clear after. -/
theorem test_movRTr_v54 : afterX (.movRTr .x 2 7) (put .tr 7 1 0x7FC0FFF8 Block.reset)
    (fun c => (c.read .r 2, c.trov)) = some (0x7FC0FFF8, false) := by decide

theorem test_movRdTrd_v55 : afterX (.movRdTrd .x 8 4) (put .tr 4 2 0xFFDC0004_FFF40004 Block.reset)
    (fun c => (c.read .r 8, c.read .r 9)) = some (0xFFF40004, 0xFFDC0004) := by decide

/-- V56: block X is untouched. -/
theorem test_movRqTrq_v56 : seen (fun t => (get .r 0 4 t.y, decide (t.x = Block.reset)))
    (exec (.movRqTrq .y 0 0) { State.reset with y := put .tr 0 4 0x00000004_00000003_00000002_00000001 Block.reset }) =
    some (0x00000004_00000003_00000002_00000001, true) := by decide

/-- V57: each block its own register. -/
theorem test_movTrR_v57 : seen (fun t => (t.x.read .tr 16, t.y.read .tr 16)) (exec (.movTrR .xy 16 0)
    { State.reset with x := put .r 0 1 0x11111111 Block.reset, y := put .r 0 1 0x22222222 Block.reset }) =
    some (0x11111111, 0x22222222) := by decide

theorem test_movTrdRd_v58 : afterX (.movTrdRd .x 2 2) (put .r 2 2 0x00000010_00000064 Block.reset)
    (fun c => (c.read .tr 2, c.read .tr 3)) = some (0x64, 0x10) := by decide

/-- V59: TR20 is unchanged. -/
theorem test_movTrqRq_v59 : afterX (.movTrqRq .x 16 4) (put .tr 16 5 0x5_00000004_00000003_00000002_00000001 Block.reset)
    (fun c => get .tr 16 5 c) = some (0x5_00000000_00000000_00000000_00000000) := by decide

/-- V60: THR is not shifted. -/
theorem test_movRThr_v60 : afterX (.movRThr .x 5 1) (put .thr 1 1 0x123 Block.reset)
    (fun c => (c.read .r 5, c.read .thr 1)) = some (0x123, 0x123) := by decide

theorem test_movRdThrd_v61 : afterX (.movRdThrd .x 4 0) (put .thr 0 2 0x00000123_456789AB Block.reset)
    (fun c => (c.read .r 4, c.read .r 5)) = some (0x456789AB, 0x123) := by decide

theorem test_movThrR_v62 : afterX (.movThrR .x 0 6) (put .thr 1 1 7 (put .r 6 1 0x89AB00E4 Block.reset))
    (fun c => (c.read .thr 0, c.read .thr 1)) = some (0x89AB00E4, 7) := by decide

theorem test_movThrdRd_v63 : afterX (.movThrdRd .x 2 6 false) (put .r 6 2 0x01234567_89AB00E4 Block.reset)
    (fun c => (c.read .thr 2, c.read .thr 3)) = some (0x89AB00E4, 0x01234567) := by decide

/-! ## DESPREAD (V35 to V38) -/

/-- The data and codes of V35 to V37, with TR4 and TR5 as given. -/
def signals (tr54 : Nat) : Block :=
  put .tr 4 2 tr54 (put .thr 0 2 0x01234567_89AB00E4
    (put .r 0 4 0xF8F9FAFB_FCFDFEFF_08070605_04030201 Block.reset))

/-- V35. -/
theorem test_despreadAcc_v35 : afterX (.despreadAcc .x 4 0 0 5) (signals 0x7FF0FFF0_00000000)
    (fun c => (c.read .tr 4, get .thr 0 2 c, c.trov)) = some (0x7FC0FFF8, 0x00000123_456789AB, false) := by decide

/-- V38a: both parts clamp. -/
theorem test_despreadAcc_v38a : afterX (.despreadAcc .x 0 0 0 0)
    (put .tr 0 1 0x80007FFF (put .r 0 4 0x807F807F_807F807F_807F807F_807F807F Block.reset))
    (fun c => (c.read .tr 0, c.trov)) = some (0x80007FFF, true) := by decide

/-- V36. -/
theorem test_despreadMov_v36 : afterX (.despreadMov .x 8 4 0 0) (signals 0xDEADBEEF)
    (fun c => (c.read .r 8, c.read .tr 4, get .thr 0 2 c)) = some (0xDEADBEEF, 0xFFD00008, 0x00000123_456789AB) := by
  decide

/-- V37. -/
theorem test_despreadMovd_v37 : afterX (.despreadMovd .x 8 4 0 0) (signals 0xAAAAAAAA_55555555)
    (fun c => (get .r 8 2 c, get .tr 4 2 c)) = some (0xAAAAAAAA_55555555, 0xFFDC0004_FFF40004) := by decide

/-! ## XCORRS (V41, V50, V53) -/

/-- The data of V40 to V49. -/
def ramp : Block := put .r 4 4 0x00080007_00060005_00040003_00020001 Block.reset

/-- V41: CUT = −15 keeps the samples at or after the delay's start. -/
theorem test_xcorrs_v41 : afterX (.xcorrs .x 0 4 (.imm (-15)) true false) ramp
    (fun c => (c.read .tr 0, c.read .tr 7, c.read .tr 8, c.trov)) = some (0x00240024, 0x00080008, 0, false) := by decide

/-- V50: mixed codes, the upper group, the shift of the quad. -/
theorem test_xcorrs_v50 : afterX (.xcorrs .x 16 0 .none false false)
    (put .tr 16 1 0x00010002 (put .tr 31 1 0x00010002 (put .thr 0 4 0x0F1E2D3C_4B5A6978_8796A5B4_C3D2E1F0
      (put .r 0 4 0xF8F9FAFB_FCFDFEFF_08070605_04030201 Block.reset))))
    (fun c => (c.read .tr 16, c.read .tr 31, get .thr 0 4 c)) =
    some (0xFFF5FFF8, 0xFFF9FFFA, 0x00000F1E_2D3C4B5A_69788796_A5B4C3D2) := by decide

/-- V53: the move takes the old values. -/
theorem test_xcorrsMov_v53 : afterX (.xcorrsMov .x 8 0 0 4 .none true false)
    (put .tr 0 4 0x00000004_00000003_00000002_00000001 ramp) (fun c => (get .r 8 4 c, c.read .tr 0, c.read .tr 15)) =
    some (0x00000004_00000003_00000002_00000001, 0x00240024, 0x00240024) := by decide

/-! ## Lines (V65, V67, V69, V79 to V81) -/

/-- V65: the load wins on the register it writes, the shift reaches the other. -/
theorem test_line_v65 : seen (fun t => (t.x.read .tr 4, get .thr 0 2 t.x, t.pc))
    (step (withText "XTR4 = DESPREAD (R3:0, THR1:0) + TR5; XTHR1 = R6;;"
      (inX (put .r 6 1 0xCAFEF00D (signals 0x7FF0FFF0_00000000))))) =
    some (0x7FC0FFF8, 0xCAFEF00D_456789AB, 1) := by decide

/-- V67: the arithmetic slot reads the old TR0. -/
theorem test_line_v67 : seen (fun t => (t.x.read .r 2, t.x.read .tr 0))
    (step (withText "XR2 = TMAX(TR0, TR1); XTR0 = R5;;"
      (inX (put .tr 0 2 0x00000040_00000040 (put .r 5 1 0x999 Block.reset))))) = some (0x56, 0x999) := by decide

/-- A slot for both blocks beside a load for X: each block executes its own part (R186). -/
theorem test_line_overlap : seen (fun t => (t.x.read .r 2, t.x.read .tr 0, t.y.read .r 2, t.y.read .tr 0))
    (execLine [.tmaxTr .xy false 2 0 1, .movTrR .x 0 5]
      { State.reset with x := put .tr 0 2 0x00000040_00000040 (put .r 5 1 0x999 Block.reset) }) =
    some (0x56, 0x999, 0x16, 0) := by decide

/-- V69: slots of different blocks. -/
theorem test_line_v69 : seen (fun t => (get .tr 0 2 t.x, get .tr 0 2 t.y))
    (execLine [.maxAdd .x false 0 2 4 4, .maxSub .y false 0 2 4 4] { State.reset with x := words, y := words }) =
    some (0x00000012_00000065, 0x0000000E_00000063) := by decide

/-- V79: two slots write one register. -/
theorem test_line_v79 : lineRefusal [.movTrR .x 0 1, .maxAdd .x false 0 0 2 4] = some (.writeConflict .x) := by decide

/-- V80: two arithmetic slots of one block. -/
theorem test_line_v80 : lineRefusal [.despreadAcc .x 4 0 0 4, .despreadAcc .x 6 4 2 6] = some (.notAdmitted .x) := by
  decide

/-- V81: a read of TR is no load. -/
theorem test_line_v81 : lineRefusal [.tmaxTr .x false 2 0 1, .movRTr .x 3 4] = some (.notAdmitted .x) := by decide

/-- A five-slot line (R186). -/
theorem test_line_five : lineRefusal (List.replicate 5 (.movRTr .x 0 0)) = some .slotCount := by decide

/-! ## Refused forms (V70 to V75) -/

theorem test_refused_v70 : refusalOf (step (withText "XR3:0 = THR3:0;;" State.reset)) = some .reservedForm := by decide

theorem test_refused_movThrqRq : refusalOf (exec (.movThrqRq .x 4) State.reset) = some .reservedForm := by decide

theorem test_refused_movThrdRd_i : refusalOf (exec (.movThrdRd .x 0 6 true) State.reset) = some .optionINotInSource := by
  decide

theorem test_refused_acs : refusalOf (exec (.acs .x true 0 4 6 8 true) State.reset) = some .acsNotInSource := by decide

theorem test_refused_acsMov : refusalOf (exec (.acsMov .x 0 8 false 8 0 2 4 false) State.reset) =
    some .acsNotInSource := by decide

theorem test_refused_permuteD : refusalOf (exec (.permuteD .x 0 2 4) State.reset) = some .permuteNotInSource := by decide

theorem test_refused_permuteQ : refusalOf (exec (.permuteQ .x 4 2 8) State.reset) = some .permuteNotInSource := by decide

theorem test_refused_ext : refusalOf (exec (.xcorrs .x 0 4 .none true true) State.reset) = some .extNotInSource := by
  decide

theorem test_refused_movExt : refusalOf (exec (.xcorrsMov .x 8 0 0 4 .none true true) State.reset) =
    some .extNotInSource := by decide

/-! ## Witnesses: a state and operands that meet the hypotheses of each statement -/

theorem next_of_runs {o : Host.Outcome State Fault Refusal} (h : (seen (fun _ => ()) o).isSome = true) :
    ∃ t, o = .next t := by
  cases o with
  | next t => exact ⟨t, rfl⟩
  | fault e => cases h
  | refused r => cases h

theorem fetches_of_text {t : String} {line : Line} (s : State) (h : decodeLine (txt t) = .ok line) :
    Safety.Fetches (withText t s) line := ⟨⟨txt t, rfl, h⟩⟩

/-- The launch state with one line loaded. -/
def loaded : State := withText "XR2 = TMAX(TR0, TR1);;" State.reset

theorem witness_loaded_steps : ∃ t, step loaded = .next t := next_of_runs (by decide)

/-- For StepKeepsInvariant, StickyFlagCollectsTrov, StepAdvancesPc and OnlyTheEndOfTheRunFaults. -/
theorem witness_StepKeepsInvariant : Safety.Inv loaded ∧ ∃ t, step loaded = .next t :=
  ⟨⟨by decide, by decide, by decide⟩, witness_loaded_steps⟩

/-- The same line with TRSOV of block X set. -/
def sticky : State := { loaded with x := { Block.reset with trsov := true } }

theorem witness_StickyFlagStaysSet : (sticky.block .x).trsov = true ∧ ∃ t, step sticky = .next t :=
  ⟨rfl, next_of_runs (by decide)⟩

theorem witness_StepRunsDecodedSlot : Safety.Fetches (withText "XR2 = TR7;;" State.reset) [.movRTr .x 2 7] :=
  fetches_of_text _ test_decode_movRTr

theorem witness_PlacedWordIsExecuted : decodeTableWord 88 (wordOf "XR2 = TR7;;") = some (.movRTr .x 2 7) :=
  test_tableWord

/-- The rows' ends, past the table, the two signs. -/
theorem witness_TmaxTableRows : tmaxTab 0 = 22 ∧ tmaxTab 127 = 1 ∧ tmaxTab 128 = 0 ∧
    tmaxIndex (1#4).toInt = 1 ∧ tmaxIndex (8#4).toInt = 7 := by decide

theorem witness_TmaxOfOrderedOperands : tmax 5 5 = 27 ∧ tmax 1 0 = 23 ∧ tmax 0 1 = 23 := by decide

theorem witness_TmaxCorrectionBounds : 128 < |(0 : Int) - 129| ∧ tmax 0 129 = 129 ∧ tmax 0 128 = 129 := by decide

theorem witness_TmaxAddResult : WellFormed (.tmaxAdd .xy true 30 0 2 28) := by decide

theorem witness_TmaxSubResult : WellFormed (.tmaxSub .xy false 30 0 2 28) := by decide

theorem witness_TmaxTrResult : WellFormed (.tmaxTr .y true 31 0 31) := by decide

theorem witness_MaxAddResult : WellFormed (.maxAdd .xy true 30 0 2 28) := by decide

theorem witness_MaxSubResult : WellFormed (.maxSub .xy false 0 30 2 0) := by decide

theorem witness_TrellisFrame : (∃ t, exec (.tmaxAdd .x false 0 2 4 4) (inX words) = .next t) ∧
    (∃ t, exec (.tmaxSub .x false 0 2 4 4) (inX words) = .next t) ∧
    (∃ t, exec (.maxAdd .x true 0 2 4 4) (inX words) = .next t) ∧
    ∃ t, exec (.maxSub .x true 30 2 4 4) (inX words) = .next t :=
  ⟨next_of_runs (by decide), next_of_runs (by decide), next_of_runs (by decide), next_of_runs (by decide)⟩

theorem witness_TmaxTrFrame : ∃ t, exec (.tmaxTr .xy true 31 0 1) (inX words) = .next t := next_of_runs (by decide)

theorem witness_TrellisReadsCopy : WellFormed (.movRTr .x 31 31) ∧ WellFormed (.movRdTrd .y 30 30) ∧
    WellFormed (.movRqTrq .xy 28 28) := by decide

theorem witness_TrellisLoadsCopy : WellFormed (.movTrR .x 31 31) ∧ WellFormed (.movTrdRd .y 30 30) ∧
    WellFormed (.movTrqRq .xy 28 28) := by decide

theorem witness_HistoryReadsCopy : WellFormed (.movRThr .x 31 3) ∧ WellFormed (.movRdThrd .y 30 2) := by decide

theorem witness_HistoryLoadsCopy : WellFormed (.movThrR .x 3 31) ∧ WellFormed (.movThrdRd .y 2 30 false) := by decide

theorem witness_ReadTransferFrame : (∃ t, exec (.movRTr .x 31 0) (inX words) = .next t) ∧
    (∃ t, exec (.movRThr .x 0 3) (inX words) = .next t) ∧ (∃ t, exec (.movRdTrd .x 30 0) (inX words) = .next t) ∧
    (∃ t, exec (.movRdThrd .x 0 2) (inX words) = .next t) ∧ ∃ t, exec (.movRqTrq .x 28 0) (inX words) = .next t :=
  ⟨next_of_runs (by decide), next_of_runs (by decide), next_of_runs (by decide), next_of_runs (by decide),
    next_of_runs (by decide)⟩

theorem witness_LoadTransferFrame : (∃ t, exec (.movTrR .x 31 4) (inX words) = .next t) ∧
    (∃ t, exec (.movTrdRd .x 30 4) (inX words) = .next t) ∧ (∃ t, exec (.movTrqRq .x 28 4) (inX words) = .next t) ∧
    (∃ t, exec (.movThrR .x 3 4) (inX words) = .next t) ∧ ∃ t, exec (.movThrdRd .x 2 4 false) (inX words) = .next t :=
  ⟨next_of_runs (by decide), next_of_runs (by decide), next_of_runs (by decide), next_of_runs (by decide),
    next_of_runs (by decide)⟩

theorem witness_DespreadAccResult : WellFormed (.despreadAcc .xy 31 28 2 0) := by decide

theorem witness_DespreadMovResult : WellFormed (.despreadMov .x 31 31 28 2) := by decide

theorem witness_DespreadMovdResult : WellFormed (.despreadMovd .y 30 30 28 0) := by decide

theorem witness_DespreadFrame : (∃ t, exec (.despreadAcc .x 4 0 2 5) (inX (signals 1)) = .next t) ∧
    (∃ t, exec (.despreadMov .x 8 4 0 0) (inX (signals 1)) = .next t) ∧
    ∃ t, exec (.despreadMovd .x 8 4 0 2) (inX (signals 1)) = .next t :=
  ⟨next_of_runs (by decide), next_of_runs (by decide), next_of_runs (by decide)⟩

/-- Four different forms on THR3:2. -/
theorem witness_FourDespreadsExhaustCodes : ∀ i ∈ [Instr.despreadAcc .xy 0 0 2 0, .despreadMov .x 0 4 0 2,
    .despreadMovd .x 8 4 28 2, .despreadAcc .x 31 0 2 1], (Safety.DespreadOn 2 i ∧ WellFormed i) ∧ i.blk.has .x = true := by
  simp only [List.forall_mem_cons, List.not_mem_nil, false_implies, implies_true, and_true]
  exact ⟨⟨⟨.acc .., by decide⟩, rfl⟩, ⟨⟨.mov .., by decide⟩, rfl⟩, ⟨⟨.movd .., by decide⟩, rfl⟩,
    ⟨⟨.acc .., by decide⟩, rfl⟩⟩

/-- For XcorrsAccumulates, CutOptionGivesValue, ClearedXcorrsNeverOverflows, DelayFifteenIsDespread and CodeWindowAdvances,
at both groups and both ends of the CUT range. -/
theorem witness_XcorrsAccumulates : WellFormed (.xcorrs .xy 16 28 (.imm (-22)) true false) ∧
    WellFormed (.xcorrs .x 0 0 (.imm 22) false false) ∧ WellFormed (.xcorrs .y 16 0 .reg false false) ∧
    WellFormed (.xcorrs .y 0 0 .none false false) := by decide

/-- For XcorrsMovAccumulates, CutOptionGivesValue, ClearedXcorrsNeverOverflows and CodeWindowAdvances. -/
theorem witness_XcorrsMovAccumulates : WellFormed (.xcorrsMov .xy 28 28 16 28 (.imm (-22)) true false) ∧
    WellFormed (.xcorrsMov .x 0 0 0 0 .reg false false) ∧ WellFormed (.xcorrsMov .y 0 0 0 0 .none true false) := by decide

/-- (CUT R) on block Y takes the CMCTL of block Y. -/
theorem witness_CutOptionGivesValue : BlockSel.y.has .y = true ∧ WellFormed (.xcorrs .y 16 0 .reg false false) ∧
    WellFormed (.xcorrsMov .y 28 12 16 0 .reg true false) ∧
    cutValue { Block.reset with cmctl := 5 } .reg = Config.cutOf 5 := ⟨rfl, by decide, by decide, rfl⟩

theorem witness_XcorrsFrame : (∃ t, exec (.xcorrs .x 16 4 (.imm 22) true false) (inX ramp) = .next t) ∧
    ∃ t, exec (.xcorrsMov .x 28 28 0 4 .reg false false) (inX ramp) = .next t :=
  ⟨next_of_runs (by decide), next_of_runs (by decide)⟩

/-- Each case of the function on both sides of its bound. -/
theorem witness_CutFunctionCases : fCut 0 22 = true ∧ fCut 15 14 = true ∧ fCut 15 15 = false ∧
    fCut (-15) 14 = false ∧ fCut (-15) 15 = true := by decide

/-- Two blocks that differ in a register of one file alone. -/
theorem sameBut_write (w : RegFile → Nat → Prop) (b : Block) (f : RegFile) (i : Nat) (v : Word) (h : w f i) :
    Safety.SameBut w b (b.write f i v) where
  read g k hw := by
    rw [Block.read_write, if_neg]
    rintro ⟨rfl, rfl, -⟩
    exact hw h
  cmctl := by cases f <;> rfl
  trov := by cases f <;> rfl
  trsov := by cases f <;> rfl
  draws := by cases f <;> rfl

/-- With k = 15: code 15 differs for CUT = +15, code 14 for CUT = −15. -/
theorem witness_CutCodesAreIgnored :
    (0 < 15 ∧ 15 ≤ 22 ∧ BlockSel.x.has .x = true) ∧
    (Safety.SameBut (fun f _ => f = .thr) ((inX ramp).block .x) ((inX (ramp.write .thr 0 0x40000000)).block .x) ∧
      Cut.imm 15 = .imm ((15 : Nat) : Int) ∧ WellFormed (.xcorrs .x 0 4 (.imm 15) true false) ∧
      WellFormed (.xcorrsMov .x 8 0 0 4 (.imm 15) true false) ∧
      ∀ n < 2 * 15, (((inX ramp).block .x).readQ .thr 0).getLsbD n =
        (((inX (ramp.write .thr 0 0x40000000)).block .x).readQ .thr 0).getLsbD n) ∧
    (Safety.SameBut (fun f _ => f = .thr) ((inX ramp).block .x) ((inX (ramp.write .thr 0 0x20000000)).block .x) ∧
      Cut.imm (-15) = .imm (-((15 : Nat) : Int)) ∧ WellFormed (.xcorrs .x 0 4 (.imm (-15)) true false) ∧
      WellFormed (.xcorrsMov .x 8 0 0 4 (.imm (-15)) true false) ∧
      ∀ n, 2 * 15 ≤ n → (((inX ramp).block .x).readQ .thr 0).getLsbD n =
        (((inX (ramp.write .thr 0 0x20000000)).block .x).readQ .thr 0).getLsbD n) := by
  refine ⟨by decide, ⟨sameBut_write (fun f _ => f = .thr) ramp .thr 0 0x40000000 rfl, rfl, by decide, by decide, by decide⟩,
    ⟨sameBut_write (fun f _ => f = .thr) ramp .thr 0 0x20000000 rfl, rfl, by decide, by decide, fun n hn => ?_⟩⟩
  by_cases h : n < 128
  · revert n; decide
  · rw [BitVec.getLsbD_of_ge _ _ (by omega), BitVec.getLsbD_of_ge _ _ (by omega)]

/-- The accumulators of the second state are zero, the first holds 7 in TR0. -/
theorem witness_ClearStartsFromZero :
    BlockSel.x.has .x = true ∧
    Safety.SameBut (fun f k => f = .tr ∧ 0 ≤ k ∧ k < 0 + 16) ((inX (ramp.write .tr 0 7)).block .x)
      ((inX ((ramp.write .tr 0 7).write .tr 0 0)).block .x) ∧
    (∀ k < 16, ((inX ((ramp.write .tr 0 7).write .tr 0 0)).block .x).read .tr (0 + k) = 0) ∧
    WellFormed (.xcorrs .x 0 4 .none true false) ∧ WellFormed (.xcorrsMov .x 8 0 0 4 .none true false) :=
  ⟨rfl, sameBut_write (fun f k => f = .tr ∧ 0 ≤ k ∧ k < 0 + 16) (ramp.write .tr 0 7) .tr 0 0
    ⟨rfl, by decide, by decide⟩, by decide, by decide, by decide⟩

theorem witness_OppositeCutsAreComplementary : (22 : Int) ≠ 0 ∧ (-1 : Int) ≠ 0 := by decide

theorem witness_AcsIsRefused : WellFormed (.acs .x true 28 30 0 31 true) ∧
    WellFormed (.acsMov .x 28 28 true 28 0 2 31 false) := by decide

theorem witness_PermuteIsRefused : WellFormed (.permuteD .x 30 2 31) ∧ WellFormed (.permuteQ .x 28 30 0) := by decide

theorem witness_ReservedFormsAreRefused : WellFormed (.movRqThrq .x 28) ∧ WellFormed (.movThrqRq .x 28) := by decide

theorem witness_UnexplainedOptionsAreRefused : WellFormed (.movThrdRd .x 2 30 true) ∧
    WellFormed (.xcorrs .x 0 4 .none true true) ∧ WellFormed (.xcorrsMov .x 8 0 0 4 .none true true) := by decide

theorem witness_IllFormedTermsAreRefused : ¬WellFormed (.movRTr .x 32 0) := by decide

/-- The two states differ in block Y. -/
theorem witness_BlocksAreIndependent : (∃ t, exec (.tmaxTr .xy true 2 0 1) (inX words) = .next t) ∧
    (inX words).block .x = State.block { inX words with y := ramp } .x := ⟨next_of_runs (by decide), rfl⟩

/-- The two states differ in a register the slot does not read. -/
theorem witness_OnlyListedOperandsMatter : (Instr.movRTr .x 2 7).blk.has .x = true ∧
    (∃ t, exec (.movRTr .x 2 7) (inX ramp) = .next t) ∧
    (∀ r ∈ readsOf (.movRTr .x 2 7), ((inX ramp).block .x).read r.file r.idx =
      ((inX (ramp.write .r 4 9)).block .x).read r.file r.idx) ∧
    ((inX ramp).block .x).cmctl = ((inX (ramp.write .r 4 9)).block .x).cmctl :=
  ⟨rfl, next_of_runs (by decide), by decide, rfl⟩

theorem witness_OnlyListedRegistersChange : (∃ t, exec (.movRTr .x 2 7) (inX ramp) = .next t) ∧
    (⟨.r, 3⟩ : Reg) ∉ writesOf (.movRTr .x 2 7) := ⟨next_of_runs (by decide), by decide⟩

/-- An admitted pair of one block. -/
theorem mayShare_tmaxTr_load : Safety.MayShare (.tmaxTr .x false 2 0 1) (.movTrR .x 0 5) :=
  .inl ⟨.tmaxTr .., .inl (.single ..)⟩

theorem mayShare_despread_load : Safety.MayShare (.despreadAcc .y 4 0 0 5) (.movThrR .y 1 6) :=
  .inr ⟨.despreadAcc .., .single ..⟩

theorem mayShare_both_load : Safety.MayShare (.tmaxTr .xy false 2 0 1) (.movTrR .x 0 5) :=
  .inl ⟨.tmaxTr .., .inl (.single ..)⟩

/-- A TMAX form and a load of block X, the load first. -/
def loadFirst : Line := [.movTrR .x 0 5, .tmaxTr .x false 2 0 1]

/-- Four slots: the pair for X, the load second, beside a DESPREAD and a THR load for Y. -/
def twoPairs : Line := [.tmaxTr .x false 2 0 1, .movTrR .x 0 5, .despreadAcc .y 4 0 0 5, .movThrR .y 1 6]

/-- A slot for both blocks beside a load for X alone. -/
def overlapping : Line := [.tmaxTr .xy false 2 0 1, .movTrR .x 0 5]

theorem admitted_loadFirst : Safety.AdmittedLine loadFirst where
  slots := by decide
  block
    | .x => .inr ⟨_, _, ⟨.inr rfl, mayShare_tmaxTr_load⟩, by decide⟩
    | .y => .inl (by decide)

theorem admitted_twoPairs : Safety.AdmittedLine twoPairs where
  slots := by decide
  block
    | .x => .inr ⟨_, _, ⟨.inl rfl, mayShare_tmaxTr_load⟩, by decide⟩
    | .y => .inr ⟨_, _, ⟨.inl rfl, mayShare_despread_load⟩, by decide⟩

theorem admitted_overlapping : Safety.AdmittedLine overlapping where
  slots := by decide
  block
    | .x => .inr ⟨_, _, ⟨.inl rfl, mayShare_both_load⟩, by decide⟩
    | .y => .inl (by decide)

/-- The slots of a line complete when each is seen to. -/
theorem slotsComplete_of_runs {s : State} {line : Line}
    (h : (line.all fun i => (seen (fun _ => ()) (exec i s)).isSome) = true) : Safety.SlotsComplete s line :=
  fun i hi => next_of_runs (List.all_eq_true.mp h i hi)

def loadFirstState : State := withText "XTR0 = R5; XR2 = TMAX(TR0, TR1);;" State.reset

def twoPairsState : State :=
  withText "XR2 = TMAX(TR0, TR1); XTR0 = R5; YTR4 = DESPREAD (R3:0, THR1:0) + TR5; YTHR1 = R6;;" State.reset

def overlappingState : State := withText "XYR2 = TMAX(TR0, TR1); XTR0 = R5;;" State.reset

/-- A pair in either order, two pairs, and a pair beside a slot of another selection. -/
theorem witness_LoadBesideArithmetic :
    (Safety.Fetches loadFirstState loadFirst ∧ Safety.AdmittedLine loadFirst ∧
      Safety.SlotsComplete loadFirstState loadFirst ∧
      Safety.PairOf .x loadFirst (.tmaxTr .x false 2 0 1) (.movTrR .x 0 5)) ∧
    (Safety.Fetches twoPairsState twoPairs ∧ Safety.AdmittedLine twoPairs ∧ Safety.SlotsComplete twoPairsState twoPairs ∧
      Safety.PairOf .y twoPairs (.despreadAcc .y 4 0 0 5) (.movThrR .y 1 6)) ∧
    (Safety.Fetches overlappingState overlapping ∧ Safety.AdmittedLine overlapping ∧
      Safety.SlotsComplete overlappingState overlapping ∧
      Safety.PairOf .x overlapping (.tmaxTr .xy false 2 0 1) (.movTrR .x 0 5)) :=
  ⟨⟨fetches_of_text _ (by decide), admitted_loadFirst, slotsComplete_of_runs (by decide),
      .inr rfl, mayShare_tmaxTr_load⟩,
    ⟨fetches_of_text _ (by decide), admitted_twoPairs, slotsComplete_of_runs (by decide),
      .inl rfl, mayShare_despread_load⟩,
    ⟨fetches_of_text _ (by decide), admitted_overlapping, slotsComplete_of_runs (by decide),
      .inl rfl, mayShare_both_load⟩⟩

/-- Both slots complete and one is a load the other admits; and two that are no such pair. -/
theorem witness_PairsAdmittedInALine :
    Safety.Fetches loadFirstState [.movTrR .x 0 5, .tmaxTr .x false 2 0 1] ∧
    Safety.SlotsComplete loadFirstState [.movTrR .x 0 5, .tmaxTr .x false 2 0 1] ∧
    Safety.Fetches (withText "XR0=TR0;XR1=TR0;;" State.reset) [.movRTr .x 0 0, .movRTr .x 1 0] ∧
    Safety.SlotsComplete (withText "XR0=TR0;XR1=TR0;;" State.reset) [.movRTr .x 0 0, .movRTr .x 1 0] :=
  ⟨fetches_of_text _ (by decide), slotsComplete_of_runs (by decide), fetches_of_text _ (by decide),
    slotsComplete_of_runs (by decide)⟩

/-- A load of a shifted register, and one of another. -/
theorem witness_HistoryLoadBeatsShift :
    Safety.Fetches (withText "XTR4 = DESPREAD (R3:0, THR1:0) + TR5; XTHR1 = R6;;" State.reset)
      [.despreadAcc .x 4 0 0 5, .movThrR .x 1 6] ∧
    Safety.Fetches (withText "XTR4 = DESPREAD (R3:0, THR1:0) + TR5; XTHR2 = R6;;" State.reset)
      [.despreadAcc .x 4 0 0 5, .movThrR .x 2 6] ∧
    WellFormed (.despreadAcc .x 4 0 0 5) ∧ WellFormed (.movThrR .x 1 6) ∧ WellFormed (.movThrR .x 2 6) :=
  ⟨fetches_of_text _ (by decide), fetches_of_text _ (by decide), by decide, by decide, by decide⟩

/-- A slot for each block, and a slot for block X beside a block that the overlapping line gives one slot. -/
def bothBlocks : Line := [.movRTr .x 2 7, .despreadAcc .y 4 0 0 5]

def bothBlocksState : State := withText "XR2 = TR7; YTR4 = DESPREAD (R3:0, THR1:0) + TR5;;" State.reset

theorem admitted_bothBlocks : Safety.AdmittedLine bothBlocks where
  slots := by decide
  block
    | .x => .inl (by decide)
    | .y => .inl (by decide)

theorem witness_DifferentBlocksShareALine :
    (Safety.Fetches bothBlocksState bothBlocks ∧ Safety.AdmittedLine bothBlocks ∧
      Safety.SlotsComplete bothBlocksState bothBlocks ∧ slotsFor .x bothBlocks = [.movRTr .x 2 7] ∧
      slotsFor .y bothBlocks = [.despreadAcc .y 4 0 0 5]) ∧
    slotsFor .y loadFirst = [] ∧ slotsFor .y overlapping = [.tmaxTr .xy false 2 0 1] :=
  ⟨⟨fetches_of_text _ (by decide), admitted_bothBlocks, slotsComplete_of_runs (by decide), rfl, rfl⟩, rfl, rfl⟩

/-- Five slots. -/
def fiveSlots : Line := [.movRTr .x 0 0, .movRTr .y 0 0, .movRTr .x 1 0, .movRTr .y 1 0, .movRTr .x 2 0]

theorem witness_OnlyAdmittedLinesExecute_five :
    Safety.Fetches (withText "XR0=TR0;YR0=TR0;XR1=TR0;YR1=TR0;XR2=TR0;;" State.reset) fiveSlots ∧
    ¬Safety.AdmittedLine fiveSlots :=
  ⟨fetches_of_text _ (by decide), fun h => absurd h.slots (by decide)⟩

/-- Two slots of one block, neither a load. -/
theorem witness_OnlyAdmittedLinesExecute_pair :
    Safety.Fetches (withText "XR0=TR0;XR1=TR0;;" State.reset) [.movRTr .x 0 0, .movRTr .x 1 0] ∧
    ¬Safety.AdmittedLine [.movRTr .x 0 0, .movRTr .x 1 0] := by
  refine ⟨fetches_of_text _ (by decide), fun h => ?_⟩
  obtain h | ⟨a, l, ⟨h | h, hk⟩, -⟩ := h.block .x
  · exact absurd h (by decide)
  all_goals
    injection h with h1 h2
    injection h2 with h2
    subst h1 h2
    rcases hk with ⟨ha, -⟩ | ⟨ha, -⟩ <;> cases ha

theorem witness_RefusedSlotRefusesLine :
    Safety.Fetches (withText "XR1:0 = PERMUTE (R3:2, R4);;" State.reset) [.permuteD .x 0 2 4] ∧
    exec (.permuteD .x 0 2 4) (withText "XR1:0 = PERMUTE (R3:2, R4);;" State.reset) = .refused .permuteNotInSource :=
  ⟨fetches_of_text _ (by decide), rfl⟩

theorem witness_DecodeOfEncode : WellFormed (.xcorrsMov .xy 28 12 16 4 (.imm (-22)) true true) := by decide

theorem witness_DecodeOfEncodedLine : ([.movRTr .x 2 7, .movThrdRd .y 2 30 true] : Line) ≠ [] ∧
    ∀ i ∈ ([.movRTr .x 2 7, .movThrdRd .y 2 30 true] : Line), WellFormed i := by decide

theorem witness_DecodedLinesAreWellFormed : decodeLine (txt "XR9:8 = TR5:4;;") = .ok [.movRdTrd .x 8 4] :=
  test_decode_movRdTrd

end Sys2Proof.Tests
end

section
/-! PROOFS. No slot, line or text faults, and with it the one fault of `step` (00_scope.md R12, 46_line_execution.md
R190; log 4). -/

namespace Sys2Proof.Machine

/-! ## The two ways `exec` ends (R182, R191) -/

/-- The option of the forms that are refused under it alone, `(i)` or `(EXT)`, decides between the two. -/
theorem exec_eq_complete_or_refuse (i : Instr) :
    (Implemented i = true ∧ ∀ s, exec i s = complete i (effect i) s) ∨
      (Implemented i = false ∧ ∃ r, ∀ s, exec i s = refuse i r) := by
  cases i
  case movThrdRd _ _ _ opt | xcorrs _ _ _ _ _ opt | xcorrsMov _ _ _ _ _ _ _ opt =>
    cases opt
    · exact .inl ⟨rfl, fun _ => rfl⟩
    · exact .inr ⟨rfl, _, fun _ => rfl⟩
  case movRqThrq | movThrqRq | acs | acsMov | permuteD | permuteQ => exact .inr ⟨rfl, _, fun _ => rfl⟩
  all_goals exact .inl ⟨rfl, fun _ => rfl⟩

/-! ## No fault below the step (R12, R200) -/

theorem exec_ne_fault (i : Instr) (s : State) (e : Fault) : exec i s ≠ .fault e := by
  obtain ⟨-, h⟩ | ⟨-, r, h⟩ := exec_eq_complete_or_refuse i
  · rw [h]
    exact complete_ne_fault i (effect i) s e
  · rw [h]
    exact refuse_ne_fault i r e

theorem runSlots_ne_fault (s : State) (line : Line) (e : Fault) : runSlots s line ≠ .fault e := by
  induction line generalizing e with
  | nil => simp [runSlots]
  | cons i is ih =>
    cases hi : exec i s with
    | next t =>
      cases his : runSlots s is with
      | next done => simp [runSlots, hi, his]
      | fault e' => exact absurd his (ih e')
      | refused r => simp [runSlots, hi, his]
    | fault e' => exact absurd hi (exec_ne_fault i s e')
    | refused r => simp [runSlots, hi]

theorem execLine_ne_fault (line : Line) (s : State) (e : Fault) : execLine line s ≠ .fault e := by
  cases hl : lineRefusal line with
  | some r => simp [execLine, hl]
  | none =>
    cases hs : runSlots s line with
    | next done => simp [execLine, hl, hs]
    | fault e' => exact absurd hs (runSlots_ne_fault s line e')
    | refused r => simp [execLine, hl, hs]

theorem execText_ne_fault (text : List Byte) (s : State) (e : Fault) : execText text s ≠ .fault e := by
  cases h : decodeLine text with
  | ok line => simpa [execText, h] using execLine_ne_fault line s e
  | error err => simp [execText, h]

/-! ## The step (R190) -/

theorem step_of_length_le {s : State} (h : s.program.length ≤ s.pc) : step s = .fault .endOfRun := by
  have hf : s.fetch = none := List.getElem?_eq_none h
  simp [step, hf]

theorem step_ne_fault_of_lt {s : State} (h : s.pc < s.program.length) (e : Fault) : step s ≠ .fault e := by
  have hf : s.fetch = some s.program[s.pc] := List.getElem?_eq_getElem h
  rw [step_of_fetch hf]
  exact execText_ne_fault _ s e

/-- Settles O7, by whether the pc is a line of the program: past the end there is nothing to fetch, and at a line neither
the transcriber, the admission rules nor a slot faults. -/
theorem onlyTheEndOfTheRunFaults : Obligations.OnlyTheEndOfTheRunFaults := by
  intro s
  obtain h | h := Nat.lt_or_ge s.pc s.program.length
  · exact .inr ⟨h, step_ne_fault_of_lt h⟩
  · exact .inl ⟨h, step_of_length_le h⟩

end Sys2Proof.Machine
end

section
/-! PROOFS. What one slot and one step do to a block: the flags a step keeps (10_state.md R36), the registers a form
changes and the operands its results depend on (10_state.md R21, R26, R29), and the independence of the blocks
(46_line_execution.md R181). -/

namespace Sys2Proof.Machine

/-! ## Launch (R42, R221) -/

/-- Settles O1: the program at launch is empty, so the pc 0 is already its end. -/
theorem launchHasNoProgram : Obligations.LaunchHasNoProgram :=
  ⟨rfl, rfl, step_of_length_le (Nat.le_refl 0)⟩

/-! ## Blocks of one slot (R22, R58, R181) -/

/-- Settles O47: each selected block goes through `effect` on its own state, and completion is decided by the term. -/
theorem blocksAreIndependent : Obligations.BlocksAreIndependent := by
  intro i s s' t b h hb
  obtain ⟨hwf, himp, rfl⟩ := (exec_eq_next i s t).mp h
  exact ⟨_, (exec_eq_next i s' _).mpr ⟨hwf, himp, rfl⟩, by simp only [State.onBlocks_block, hb]⟩

/-! ## The flags after one slot (R165, R184, R185) -/

@[simp] theorem trellisBlock_trsov (isTmax isAdd short : Bool) (trs trm trn rq : Nat) (b : Block) :
    (trellisBlock isTmax isAdd short trs trm trn rq b).trsov =
      (b.trsov || (trellisBlock isTmax isAdd short trs trm trn rq b).trov) := by simp [trellisBlock]

@[simp] theorem tmaxTrBlock_trsov (short : Bool) (rs trm trn : Nat) (b : Block) :
    (tmaxTrBlock short rs trm trn b).trsov = (b.trsov || (tmaxTrBlock short rs trm trn b).trov) := by
  simp [tmaxTrBlock]

@[simp] theorem Block.shiftThrd_trsov (b : Block) (thrd : Nat) : (b.shiftThrd thrd).trsov = b.trsov := by
  simp [Block.shiftThrd]

@[simp] theorem despreadAccBlock_trsov (trs rq thrd trn : Nat) (b : Block) :
    (despreadAccBlock trs rq thrd trn b).trsov = (b.trsov || (despreadAccBlock trs rq thrd trn b).trov) := by
  simp [despreadAccBlock]

@[simp] theorem despreadMovBlock_trsov (rs trs rq thrd : Nat) (b : Block) :
    (despreadMovBlock rs trs rq thrd b).trsov = (b.trsov || (despreadMovBlock rs trs rq thrd b).trov) := by
  simp [despreadMovBlock]

@[simp] theorem despreadMovdBlock_trsov (rs trs rq thrd : Nat) (b : Block) :
    (despreadMovdBlock rs trs rq thrd b).trsov = (b.trsov || (despreadMovdBlock rs trs rq thrd b).trov) := by
  simp [despreadMovdBlock]

@[simp] theorem xcorrsBlock_trsov (base rq : Nat) (cut : Cut) (clr : Bool) (b : Block) :
    (xcorrsBlock base rq cut clr b).trsov = (b.trsov || (xcorrsBlock base rq cut clr b).trov) := by
  simp [xcorrsBlock]

/-- A copy that leaves both flags alone, followed by the draw of R165, leaves the flags of a transfer. -/
theorem flagsOfTransfer_drawTrov {b c : Block} (id : BlockId) (ho : c.trov = b.trov) (hs : c.trsov = b.trsov) :
    Safety.FlagsOfTransfer b (c.drawTrov id) where
  trov := ho ▸ c.drawTrov_trov id
  trsov := hs

/-- The two ways a form treats the flags: TRSOV collects TROV, or they are the flags of a transfer. -/
theorem effect_flags (i : Instr) (id : BlockId) (b : Block) :
    (effect i id b).trsov = (b.trsov || (effect i id b).trov) ∨ Safety.FlagsOfTransfer b (effect i id b) := by
  cases i
  case movRTr | movRdTrd | movRqTrq | movTrR | movTrdRd | movTrqRq | movRThr | movRdThrd | movThrR | movThrdRd =>
    exact .inr (flagsOfTransfer_drawTrov id (by simp) (by simp))
  case movRqThrq | movThrqRq | acs | acsMov | permuteD | permuteQ => exact .inr ⟨.inl rfl, rfl⟩
  case tmaxAdd | tmaxSub | tmaxTr | maxAdd | maxSub | despreadAcc | despreadMov | despreadMovd | xcorrs | xcorrsMov =>
    exact .inl (by simp [effect])

theorem effect_trsov_of_set (i : Instr) (id : BlockId) {b : Block} (h : b.trsov = true) :
    (effect i id b).trsov = true := by
  obtain hs | ⟨-, hs⟩ := effect_flags i id b <;> simp [hs, h]

/-! ## A block after a line (R186, R187) -/

/-- A register overlay changes no flag, no control register and no counter. -/
theorem overlay_rest (from_ onto : Block) (regs : List Reg) :
    (overlay from_ onto regs).cmctl = onto.cmctl ∧ (overlay from_ onto regs).trov = onto.trov ∧
      (overlay from_ onto regs).trsov = onto.trsov ∧ (overlay from_ onto regs).draws = onto.draws := by
  induction regs generalizing onto with
  | nil => simp [overlay]
  | cons r regs ih => simpa [overlay] using ih (onto.write r.file r.idx (from_.read r.file r.idx))

/-- A joined block is the old one, or some slot's result with registers of another slot laid over it. -/
theorem joinBlock_cases (b : BlockId) (s : State) (done : List (Instr × State)) :
    joinBlock b s done = s.block b ∨
      ∃ p ∈ done, p.1.blk.has b = true ∧ ∃ from_ regs, joinBlock b s done = overlay from_ (p.2.block b) regs := by
  have slot {p : Instr × State} {ps : List (Instr × State)} (hp : p ∈ ps)
      (h : done.filter (fun p => p.1.blk.has b) = ps) : p ∈ done ∧ p.1.blk.has b = true := by
    rwa [← h, List.mem_filter] at hp
  simp only [joinBlock]
  split
  next => exact .inl rfl
  next i t h =>
    obtain ⟨hd, hb⟩ := slot (p := (i, t)) (by simp) h
    exact .inr ⟨(i, t), hd, hb, t.block b, [], rfl⟩
  next i t j u _ h =>
    split
    · obtain ⟨hd, hb⟩ := slot (p := (i, t)) (by simp) h
      exact .inr ⟨(i, t), hd, hb, _, _, rfl⟩
    · obtain ⟨hd, hb⟩ := slot (p := (j, u)) (by simp) h
      exact .inr ⟨(j, u), hd, hb, _, _, rfl⟩

/-- A block after a step is the old one, or some form's effect on it with registers of another slot laid over it. -/
theorem step_block_cases {s t : State} (h : step s = .next t) (b : BlockId) :
    t.block b = s.block b ∨
      ∃ i from_ regs, i.blk.has b = true ∧ t.block b = overlay from_ (effect i b (s.block b)) regs := by
  obtain ⟨_, _, done, -, -, -, hrun, rfl⟩ := step_eq_next h
  obtain ⟨-, hexec⟩ := runSlots_eq_next hrun
  have hjoin : (State.advance { s with x := joinBlock .x s done, y := joinBlock .y s done }).block b =
      joinBlock b s done := by cases b <;> rfl
  rw [hjoin]
  obtain hold | ⟨p, hp, hb, from_, regs, heq⟩ := joinBlock_cases b s done
  · exact .inl hold
  · exact .inr ⟨p.1, from_, regs, hb, by rw [heq, exec_block_selected (hexec p hp) hb]⟩

/-- Settles O9: the flags of a joined block are those of one form's effect, and no effect clears TRSOV. -/
theorem stickyFlagStaysSet : Obligations.StickyFlagStaysSet := by
  intro s t b h hset
  obtain hold | ⟨i, from_, regs, -, heq⟩ := step_block_cases h b
  · rwa [hold]
  · obtain ⟨-, -, hover, -⟩ := overlay_rest from_ (effect i b (s.block b)) regs
    rw [heq, hover]
    exact effect_trsov_of_set i b hset

/-! ## Writes as group writes (R9) -/

theorem Block.writeD_eq_writeGroup (b : Block) (f : RegFile) (i : Nat) (v : BitVec 64) :
    b.writeD f i v = b.writeGroup f i [v.extractLsb' 0 32, v.extractLsb' 32 32] := rfl

theorem Block.writeQ_eq_writeGroup (b : Block) (f : RegFile) (i : Nat) (v : BitVec 128) :
    b.writeQ f i v = b.writeGroup f i
      [(v.extractLsb' 0 64).extractLsb' 0 32, (v.extractLsb' 0 64).extractLsb' 32 32,
        (v.extractLsb' 64 64).extractLsb' 0 32, (v.extractLsb' 64 64).extractLsb' 32 32] := rfl

theorem regRange_succ (f : RegFile) (i k : Nat) : regRange f i (k + 1) = ⟨f, i⟩ :: regRange f (i + 1) k := by
  simp [regRange, List.range_succ_eq_map, Function.comp_def, Nat.add_assoc, Nat.add_comm 1]

/-! ## Registers outside the written ones (R21, R26, R29) -/

section
variable {b : Block} {f g : RegFile} {i j : Nat}

theorem Block.read_writeGroup_of_notMem {vs : List Word} (h : (⟨g, j⟩ : Reg) ∉ regRange f i vs.length) :
    (b.writeGroup f i vs).read g j = b.read g j := by
  induction vs generalizing b i with
  | nil => rfl
  | cons v vs ih =>
    rw [List.length_cons, regRange_succ, List.mem_cons, not_or] at h
    obtain ⟨hhead, htail⟩ := h
    rw [Block.writeGroup, ih htail, Block.read_write, if_neg]
    rintro ⟨rfl, rfl, -⟩
    exact hhead rfl

theorem Block.read_write_of_notMem {v : Word} (h : (⟨g, j⟩ : Reg) ∉ regRange f i 1) :
    (b.write f i v).read g j = b.read g j := Block.read_writeGroup_of_notMem (vs := [v]) h

theorem Block.read_writeD_of_notMem {v : BitVec 64} (h : (⟨g, j⟩ : Reg) ∉ regRange f i 2) :
    (b.writeD f i v).read g j = b.read g j := by
  rw [Block.writeD_eq_writeGroup]
  exact Block.read_writeGroup_of_notMem h

theorem Block.read_writeQ_of_notMem {v : BitVec 128} (h : (⟨g, j⟩ : Reg) ∉ regRange f i 4) :
    (b.writeQ f i v).read g j = b.read g j := by
  rw [Block.writeQ_eq_writeGroup]
  exact Block.read_writeGroup_of_notMem h

end

/-- Two single writes to neighbouring registers write the range of both. -/
theorem Block.read_write_write_of_notMem {b : Block} {f g : RegFile} {i j : Nat} {v w : Word}
    (h : (⟨g, j⟩ : Reg) ∉ regRange f i 2) : ((b.write f i v).write f (i + 1) w).read g j = b.read g j :=
  Block.read_writeGroup_of_notMem (vs := [v, w]) h

@[simp] theorem length_xcorrsOut (base rq : Nat) (cut : Cut) (clr : Bool) (b : Block) :
    (xcorrsOut base rq cut clr b).length = 16 := by simp [xcorrsOut]

theorem xcorrsBlock_read_of_notMem {base rq : Nat} {cut : Cut} {clr : Bool} {b : Block} {f : RegFile} {k : Nat}
    (htr : (⟨f, k⟩ : Reg) ∉ regRange .tr base 16) (hthr : (⟨f, k⟩ : Reg) ∉ regRange .thr 0 4) :
    (xcorrsBlock base rq cut clr b).read f k = b.read f k := by
  rw [xcorrsBlock, Block.setFlags_read, Block.read_writeQ_of_notMem hthr,
    Block.read_writeGroup_of_notMem (by simpa using htr)]

/-- A form's effect keeps every register that the tables do not list as written or shifted. -/
theorem effect_read_of_notMem (i : Instr) (id : BlockId) (b : Block) {f : RegFile} {k : Nat}
    (h : (⟨f, k⟩ : Reg) ∉ writesOf i) : (effect i id b).read f k = b.read f k := by
  simp only [writesOf, List.mem_append, not_or] at h
  obtain ⟨hres, hshift⟩ := h
  cases i
  case movRqThrq | movThrqRq | acs | acsMov | permuteD | permuteQ => rfl
  case movRTr | movTrR | movRThr | movThrR =>
    exact (Block.drawTrov_read ..).trans (Block.read_write_of_notMem hres)
  case movRdTrd | movTrdRd | movRdThrd | movThrdRd =>
    exact (Block.drawTrov_read ..).trans (Block.read_writeD_of_notMem hres)
  case movRqTrq | movTrqRq => exact (Block.drawTrov_read ..).trans (Block.read_writeQ_of_notMem hres)
  case tmaxAdd | tmaxSub | maxAdd | maxSub =>
    exact (Block.setFlags_read ..).trans (Block.read_writeD_of_notMem hres)
  case tmaxTr => exact (Block.setFlags_read ..).trans (Block.read_write_of_notMem hres)
  case despreadAcc =>
    rw [effect, despreadAccBlock, Block.setFlags_read, Block.shiftThrd, Block.read_writeD_of_notMem hshift,
      Block.read_write_of_notMem hres]
  case despreadMov =>
    obtain ⟨hr, htr⟩ := not_or.mp (List.mem_append.not.mp hres)
    rw [effect, despreadMovBlock, Block.setFlags_read, Block.shiftThrd, Block.read_writeD_of_notMem hshift,
      Block.read_write_of_notMem htr, Block.read_write_of_notMem hr]
  case despreadMovd =>
    obtain ⟨hr, htr⟩ := not_or.mp (List.mem_append.not.mp hres)
    rw [effect, despreadMovdBlock, Block.setFlags_read, Block.shiftThrd, Block.read_writeD_of_notMem hshift,
      Block.read_write_write_of_notMem htr, Block.read_writeD_of_notMem hr]
  case xcorrs => exact xcorrsBlock_read_of_notMem hres hshift
  case xcorrsMov =>
    obtain ⟨hr, htr⟩ := not_or.mp (List.mem_append.not.mp hres)
    rw [effect, Block.read_writeQ_of_notMem hr, xcorrsBlock_read_of_notMem htr hshift]

/-- Settles O49: a block the slot does not select is unchanged, and a selected one goes through the form's effect. -/
theorem onlyListedRegistersChange : Obligations.OnlyListedRegistersChange := by
  intro i s t h b f k hk
  cases hb : i.blk.has b with
  | false => rw [exec_block_unselected h hb]
  | true => rw [exec_block_selected h hb, effect_read_of_notMem i b (s.block b) hk]

/-! ## Blocks that agree on registers (R21, R26, R29) -/

/-- The two blocks hold the same values in the listed registers. -/
def AgreeOn (l : List Reg) (b c : Block) : Prop := ∀ r ∈ l, b.read r.file r.idx = c.read r.file r.idx

theorem agreeOn_nil (b c : Block) : AgreeOn [] b c := by simp [AgreeOn]

@[simp] theorem agreeOn_append {l m : List Reg} {b c : Block} :
    AgreeOn (l ++ m) b c ↔ AgreeOn l b c ∧ AgreeOn m b c := by
  simp only [AgreeOn, List.mem_append, or_imp, forall_and]

@[simp] theorem agreeOn_setFlags {l : List Reg} {b c : Block} {o p : Bool} :
    AgreeOn l (b.setFlags o) (c.setFlags p) ↔ AgreeOn l b c := by simp only [AgreeOn, Block.setFlags_read]

@[simp] theorem agreeOn_drawTrov {l : List Reg} {b c : Block} {id id' : BlockId} :
    AgreeOn l (b.drawTrov id) (c.drawTrov id') ↔ AgreeOn l b c := by simp only [AgreeOn, Block.drawTrov_read]

section
variable {l : List Reg} {b c : Block} {f : RegFile} {i : Nat}

theorem AgreeOn.symm (h : AgreeOn l b c) : AgreeOn l c b := fun r hr => (h r hr).symm

theorem AgreeOn.read_add {n k : Nat} (h : AgreeOn (regRange f i n) b c) (hk : k < n) :
    b.read f (i + k) = c.read f (i + k) := h ⟨f, i + k⟩ ((mem_regRange ..).mpr ⟨rfl, by omega, by omega⟩)

theorem AgreeOn.read {n : Nat} (h : AgreeOn (regRange f i (n + 1)) b c) : b.read f i = c.read f i :=
  h.read_add (Nat.succ_pos n)

theorem AgreeOn.readD (h : AgreeOn (regRange f i 2) b c) : b.readD f i = c.readD f i := by
  rw [Block.readD_eq, Block.readD_eq, h.read_add (k := 1) (by omega), h.read]

theorem AgreeOn.readQ (h : AgreeOn (regRange f i 4) b c) : b.readQ f i = c.readQ f i := by
  simp only [Block.readQ_eq, Block.readD_eq, Nat.add_assoc, Nat.reduceAdd]
  rw [h.read_add (k := 3) (by omega), h.read_add (k := 2) (by omega), h.read_add (k := 1) (by omega), h.read]

theorem Block.read_of_size_le (h : f.size ≤ i) : b.read f i = 0 := by
  cases f <;> simp [Block.read, Vector.getElem?_eq_none (by simpa [RegFile.size] using h)]

/-! ## Writing one value to both blocks -/

/-- The written register itself agrees too, also past the end of the file, where both blocks read 0. -/
theorem AgreeOn.write_cons (v : Word) (h : AgreeOn l b c) : AgreeOn (⟨f, i⟩ :: l) (b.write f i v) (c.write f i v) := by
  rintro ⟨g, j⟩ hr
  simp only [Block.read_write]
  split
  next => rfl
  next hout =>
    obtain heq | hl := List.mem_cons.mp hr
    · obtain ⟨rfl, rfl⟩ := Reg.mk.inj heq
      have hsize : g.size ≤ j := by simpa using hout
      rw [Block.read_of_size_le hsize, Block.read_of_size_le hsize]
    · exact h _ hl

theorem AgreeOn.writeGroup (vs : List Word) (h : AgreeOn l b c) :
    AgreeOn (regRange f i vs.length ++ l) (b.writeGroup f i vs) (c.writeGroup f i vs) := by
  induction vs generalizing l b c i with
  | nil => exact h
  | cons v vs ih =>
    intro r hr
    refine ih (h.write_cons v) r ?_
    simp only [List.length_cons, regRange_succ, List.mem_append, List.mem_cons] at hr ⊢
    tauto

theorem AgreeOn.write (v : Word) (h : AgreeOn l b c) :
    AgreeOn (regRange f i 1 ++ l) (b.write f i v) (c.write f i v) := h.writeGroup [v]

/-- Two single writes to neighbouring registers. -/
theorem AgreeOn.write_write (v w : Word) (h : AgreeOn l b c) :
    AgreeOn (regRange f i 2 ++ l) ((b.write f i v).write f (i + 1) w) ((c.write f i v).write f (i + 1) w) :=
  h.writeGroup [v, w]

theorem AgreeOn.writeD (v : BitVec 64) (h : AgreeOn l b c) :
    AgreeOn (regRange f i 2 ++ l) (b.writeD f i v) (c.writeD f i v) := by
  rw [Block.writeD_eq_writeGroup, Block.writeD_eq_writeGroup]
  exact h.writeGroup [_, _]

theorem AgreeOn.writeQ (v : BitVec 128) (h : AgreeOn l b c) :
    AgreeOn (regRange f i 4 ++ l) (b.writeQ f i v) (c.writeQ f i v) := by
  rw [Block.writeQ_eq_writeGroup, Block.writeQ_eq_writeGroup]
  exact h.writeGroup [_, _, _, _]

/-- The post-shift reads its own double, so blocks that agree on it before agree on it after. -/
theorem AgreeOn.shiftThrd {thrd : Nat} (h : AgreeOn (l ++ regRange .thr thrd 2) b c) :
    AgreeOn (l ++ regRange .thr thrd 2) (b.shiftThrd thrd) (c.shiftThrd thrd) := by
  obtain ⟨hl, hthr⟩ := agreeOn_append.mp h
  rw [Block.shiftThrd, Block.shiftThrd, hthr.readD, agreeOn_append, and_comm, ← agreeOn_append]
  exact hl.writeD _

end

theorem cutValue_congr {b c : Block} (h : b.cmctl = c.cmctl) (cut : Cut) : cutValue b cut = cutValue c cut := by
  cases cut <;> simp [cutValue, h]

/-! ## What a form's results depend on (R21, R26, R29, R136) -/

/-- The two blocks agree on the registers form `i` writes and, when it is an arithmetic form, on TROV. -/
structure SameResults (i : Instr) (b c : Block) : Prop where
  regs : AgreeOn (writesOf i) b c
  trov : slotKind i = .trellis ∨ slotKind i = .correlator → b.trov = c.trov

section
variable {b c : Block} {f g : RegFile} {i j : Nat}

theorem AgreeOn.copy (h : AgreeOn (regRange g j 1) b c) :
    AgreeOn (regRange f i 1) (b.write f i (b.read g j)) (c.write f i (c.read g j)) := by
  rw [h.read]
  simpa using (agreeOn_nil b c).write _

theorem AgreeOn.copyD (h : AgreeOn (regRange g j 2) b c) :
    AgreeOn (regRange f i 2) (b.writeD f i (b.readD g j)) (c.writeD f i (c.readD g j)) := by
  rw [h.readD]
  simpa using (agreeOn_nil b c).writeD _

theorem AgreeOn.copyQ (h : AgreeOn (regRange g j 4) b c) :
    AgreeOn (regRange f i 4) (b.writeQ f i (b.readQ g j)) (c.writeQ f i (c.readQ g j)) := by
  rw [h.readQ]
  simpa using (agreeOn_nil b c).writeQ _

theorem trellisBlock_congr (isTmax isAdd short : Bool) {trs trm trn rq : Nat}
    (h : AgreeOn (regRange .tr trm 2 ++ regRange .tr trn 2 ++ regRange .r rq 4) b c) :
    AgreeOn (regRange .tr trs 2) (trellisBlock isTmax isAdd short trs trm trn rq b)
        (trellisBlock isTmax isAdd short trs trm trn rq c) ∧
      (trellisBlock isTmax isAdd short trs trm trn rq b).trov =
        (trellisBlock isTmax isAdd short trs trm trn rq c).trov := by
  simp only [agreeOn_append] at h
  obtain ⟨⟨hm, hn⟩, hq⟩ := h
  simp only [trellisBlock, hm.readD, hn.readD, hq.readQ, agreeOn_setFlags, Block.setFlags_trov, and_true]
  simpa using (agreeOn_nil b c).writeD _

theorem tmaxTrBlock_congr (short : Bool) {rs trm trn : Nat}
    (h : AgreeOn (regRange .tr trm 1 ++ regRange .tr trn 1) b c) :
    AgreeOn (regRange .r rs 1) (tmaxTrBlock short rs trm trn b) (tmaxTrBlock short rs trm trn c) ∧
      (tmaxTrBlock short rs trm trn b).trov = (tmaxTrBlock short rs trm trn c).trov := by
  obtain ⟨hm, hn⟩ := agreeOn_append.mp h
  simp only [tmaxTrBlock, hm.read, hn.read, agreeOn_setFlags, Block.setFlags_trov, and_true]
  simpa using (agreeOn_nil b c).write _

theorem despreadAccBlock_congr {trs rq thrd trn : Nat}
    (h : AgreeOn (regRange .r rq 4 ++ regRange .thr thrd 2 ++ regRange .tr trn 1) b c) :
    AgreeOn (regRange .tr trs 1 ++ regRange .thr thrd 2) (despreadAccBlock trs rq thrd trn b)
        (despreadAccBlock trs rq thrd trn c) ∧
      (despreadAccBlock trs rq thrd trn b).trov = (despreadAccBlock trs rq thrd trn c).trov := by
  simp only [agreeOn_append] at h
  obtain ⟨⟨hq, hthr⟩, hn⟩ := h
  simp only [despreadAccBlock, hq.readQ, hthr.readD, hn.read, agreeOn_setFlags, Block.setFlags_trov, and_true]
  exact (hthr.write _).shiftThrd

theorem despreadMovBlock_congr {rs trs rq thrd : Nat}
    (h : AgreeOn (regRange .r rq 4 ++ regRange .thr thrd 2 ++ regRange .tr trs 1) b c) :
    AgreeOn (regRange .r rs 1 ++ regRange .tr trs 1 ++ regRange .thr thrd 2) (despreadMovBlock rs trs rq thrd b)
        (despreadMovBlock rs trs rq thrd c) ∧
      (despreadMovBlock rs trs rq thrd b).trov = (despreadMovBlock rs trs rq thrd c).trov := by
  simp only [agreeOn_append] at h
  obtain ⟨⟨hq, hthr⟩, hold⟩ := h
  simp only [despreadMovBlock, hq.readQ, hthr.readD, hold.read, agreeOn_setFlags, Block.setFlags_trov, and_true]
  refine AgreeOn.shiftThrd ?_
  simpa only [agreeOn_append, and_assoc, and_left_comm] using (hthr.write _).write _

theorem despreadMovdBlock_congr {rs trs rq thrd : Nat}
    (h : AgreeOn (regRange .r rq 4 ++ regRange .thr thrd 2 ++ regRange .tr trs 2) b c) :
    AgreeOn (regRange .r rs 2 ++ regRange .tr trs 2 ++ regRange .thr thrd 2) (despreadMovdBlock rs trs rq thrd b)
        (despreadMovdBlock rs trs rq thrd c) ∧
      (despreadMovdBlock rs trs rq thrd b).trov = (despreadMovdBlock rs trs rq thrd c).trov := by
  simp only [agreeOn_append] at h
  obtain ⟨⟨hq, hthr⟩, hold⟩ := h
  simp only [despreadMovdBlock, hq.readQ, hthr.readD, hold.readD, agreeOn_setFlags, Block.setFlags_trov, and_true]
  refine AgreeOn.shiftThrd ?_
  simpa only [agreeOn_append, and_assoc, and_left_comm] using (hthr.writeD _).write_write _ _

/-- The sixteen results of XCORRS; with `(CLR)` the old accumulators do not matter (R136). -/
theorem xcorrsOut_congr {base rq : Nat} (cut : Cut) {clr : Bool} (hq : AgreeOn (regRange .r rq 4) b c)
    (hthr : AgreeOn (regRange .thr 0 4) b c) (hacc : AgreeOn (if clr then [] else regRange .tr base 16) b c)
    (hcmctl : b.cmctl = c.cmctl) : xcorrsOut base rq cut clr b = xcorrsOut base rq cut clr c := by
  simp only [xcorrsOut, hq.readQ, hthr.readQ, cutValue_congr hcmctl]
  refine List.map_congr_left fun k hk => ?_
  cases clr with
  | true => simp only [xcorrsDelay, if_true]
  | false =>
    have hold : b.read .tr (base + k) = c.read .tr (base + k) := AgreeOn.read_add hacc (List.mem_range.mp hk)
    rw [hold]

theorem xcorrsBlock_congr {base rq : Nat} (cut : Cut) {clr : Bool} (hq : AgreeOn (regRange .r rq 4) b c)
    (hthr : AgreeOn (regRange .thr 0 4) b c) (hacc : AgreeOn (if clr then [] else regRange .tr base 16) b c)
    (hcmctl : b.cmctl = c.cmctl) :
    AgreeOn (regRange .tr base 16 ++ regRange .thr 0 4) (xcorrsBlock base rq cut clr b)
        (xcorrsBlock base rq cut clr c) ∧
      (xcorrsBlock base rq cut clr b).trov = (xcorrsBlock base rq cut clr c).trov := by
  simp only [xcorrsBlock, xcorrsOut_congr cut hq hthr hacc hcmctl, hthr.readQ, agreeOn_setFlags, Block.setFlags_trov,
    and_true]
  have hout := ((agreeOn_nil b c).writeGroup (f := .tr) (i := base)
    ((xcorrsOut base rq cut clr c).map Prod.fst)).writeQ (f := .thr) (i := 0) (shr16 (c.readQ .thr 0))
  simpa [and_comm] using hout

theorem SameResults.of_writesOf {i : Instr} {l : List Reg} (hw : writesOf i = l)
    (h : AgreeOn l b c ∧ b.trov = c.trov) : SameResults i b c where
  regs := hw ▸ h.1
  trov _ := h.2

/-- A transfer is no arithmetic form: its TROV is left to the draw (R165). -/
theorem SameResults.of_transfer {i : Instr} {l : List Reg} {id : BlockId} (hw : writesOf i = l)
    (hkind : slotKind i ≠ .trellis ∧ slotKind i ≠ .correlator) (h : AgreeOn l b c) :
    SameResults i (b.drawTrov id) (c.drawTrov id) where
  regs := agreeOn_drawTrov.mpr (hw ▸ h)
  trov hk := absurd hk (not_or.mpr hkind)

end

/-- The results of an executed form are the same on two blocks that agree on what the tables list as read, and on CMCTL. -/
theorem effect_congr {i : Instr} (id : BlockId) {b c : Block} (himp : Implemented i = true)
    (hreads : AgreeOn (readsOf i) b c) (hcmctl : b.cmctl = c.cmctl) :
    SameResults i (effect i id b) (effect i id c) := by
  cases i
  case movRqThrq | movThrqRq | acs | acsMov | permuteD | permuteQ => cases himp
  case movRTr | movTrR | movRThr | movThrR =>
    exact .of_transfer (List.append_nil _) (by simp [slotKind]) hreads.copy
  case movRdTrd | movTrdRd | movRdThrd => exact .of_transfer (List.append_nil _) (by simp [slotKind]) hreads.copyD
  case movThrdRd _ _ _ optI =>
    exact .of_transfer (List.append_nil _) (by cases optI <;> simp [slotKind]) hreads.copyD
  case movRqTrq | movTrqRq => exact .of_transfer (List.append_nil _) (by simp [slotKind]) hreads.copyQ
  case tmaxAdd | tmaxSub | maxAdd | maxSub =>
    exact .of_writesOf (List.append_nil _) (trellisBlock_congr _ _ _ hreads)
  case tmaxTr => exact .of_writesOf (List.append_nil _) (tmaxTrBlock_congr _ hreads)
  case despreadAcc => exact .of_writesOf rfl (despreadAccBlock_congr hreads)
  case despreadMov => exact .of_writesOf rfl (despreadMovBlock_congr hreads)
  case despreadMovd => exact .of_writesOf rfl (despreadMovdBlock_congr hreads)
  case xcorrs _ base rq cut clr _ =>
    simp only [readsOf, agreeOn_append] at hreads
    obtain ⟨⟨hq, hthr⟩, hacc⟩ := hreads
    exact .of_writesOf rfl (xcorrsBlock_congr cut hq hthr hacc hcmctl)
  case xcorrsMov _ rs trb base rq cut clr _ =>
    simp only [readsOf, agreeOn_append] at hreads
    obtain ⟨⟨⟨hq, hthr⟩, hold⟩, hacc⟩ := hreads
    obtain ⟨hregs, htrov⟩ := xcorrsBlock_congr cut hq hthr hacc hcmctl
    refine .of_writesOf (List.append_assoc ..) ⟨?_, by simpa [effect] using htrov⟩
    rw [effect, effect, hold.readQ]
    exact hregs.writeQ _

/-- Settles O48: whether a slot completes is decided by the term alone, and its effect on the block by what it reads. -/
theorem onlyListedOperandsMatter : Obligations.OnlyListedOperandsMatter := by
  intro i s s' t b hb h hreads hcmctl
  obtain ⟨hwf, himp, -⟩ := (exec_eq_next i s t).mp h
  have h' : exec i s' = .next (s'.onBlocks i.blk (effect i)) := (exec_eq_next i s' _).mpr ⟨hwf, himp, rfl⟩
  obtain ⟨hregs, htrov⟩ := effect_congr b himp hreads hcmctl
  refine ⟨_, h', ?_⟩
  rw [exec_block_selected h hb, exec_block_selected h' hb]
  exact ⟨hregs.symm, fun hk => (htrov hk).symm⟩

end Sys2Proof.Machine
end

section
/-! PROOFS. What a term's checks decide (30_encoding.md R68, R74), the forms refused by name, the absent CUT option and the
line placed by `withFetchWord`. -/

namespace Sys2Proof.Machine

/-! ## Checks (R68, R74) -/

theorem complete_of_failedCheck {i : Instr} {c : Check} (h : i.failedCheck = some c) (f : BlockId → Block → Block)
    (s : State) : complete i f s = .refused (.illFormed c) := by simp [complete, h]

theorem refuse_of_failedCheck {i : Instr} {c : Check} (h : i.failedCheck = some c) (r : Refusal) :
    refuse i r = .refused (.illFormed c) := by simp [refuse, h]

theorem exec_of_failedCheck {i : Instr} {c : Check} (h : i.failedCheck = some c) (s : State) :
    exec i s = .refused (.illFormed c) := by
  obtain ⟨-, hexec⟩ | ⟨-, r, hexec⟩ := exec_eq_complete_or_refuse i
  · rw [hexec, complete_of_failedCheck h]
  · rw [hexec, refuse_of_failedCheck h]

/-- Settles O46: whichever of the two ways `exec` ends, it looks at the checks first. -/
theorem illFormedTermsAreRefused : Obligations.IllFormedTermsAreRefused := by
  intro i s h
  obtain ⟨c, hc⟩ := Option.ne_none_iff_exists'.mp h
  exact ⟨c, hc, exec_of_failedCheck hc s⟩

/-! ## The reserved forms (R159, R162) -/

/-- Settles O44: the meaning of both forms is the refusal. -/
theorem reservedFormsAreRefused : Obligations.ReservedFormsAreRefused :=
  fun _ _ _ _ => ⟨fun h => refuse_of_wellFormed h .reservedForm, fun h => refuse_of_wellFormed h .reservedForm⟩

/-! ## The absent CUT option (R72, R134) -/

/-- The check of the immediate 0 holds, so it is never the first failed one. -/
theorem firstFailed_append_forCut_zero (l : List (Check × Bool)) :
    Check.firstFailed (l ++ Check.forCut (.imm 0)) = Check.firstFailed (l ++ Check.forCut .none) := by
  induction l with
  | nil => rfl
  | cons p l ih =>
    obtain ⟨c, ok⟩ := p
    cases ok
    · rfl
    · exact ih

theorem failedCheck_xcorrs_none (blk : BlockSel) (base rq : Nat) (clr ext : Bool) :
    (Instr.xcorrs blk base rq .none clr ext).failedCheck = (Instr.xcorrs blk base rq (.imm 0) clr ext).failedCheck :=
  (firstFailed_append_forCut_zero _).symm

theorem failedCheck_xcorrsMov_none (blk : BlockSel) (rs trb base rq : Nat) (clr ext : Bool) :
    (Instr.xcorrsMov blk rs trb base rq .none clr ext).failedCheck =
      (Instr.xcorrsMov blk rs trb base rq (.imm 0) clr ext).failedCheck :=
  (firstFailed_append_forCut_zero _).symm

theorem complete_congr {i j : Instr} (hc : i.failedCheck = j.failedCheck) (hb : i.blk = j.blk)
    (f : BlockId → Block → Block) (s : State) : complete i f s = complete j f s := by simp only [complete, hc, hb]

theorem refuse_congr {i j : Instr} (hc : i.failedCheck = j.failedCheck) (r : Refusal) : refuse i r = refuse j r := by
  simp only [refuse, hc]

/-- Settles O35: the CUT value is 0 either way, and the check of the immediate 0 holds. -/
theorem omittedCutIsZero : Obligations.OmittedCutIsZero := by
  intro blk rs trb base rq clr ext s
  cases ext
  case true =>
    exact ⟨refuse_congr (failedCheck_xcorrs_none ..) .extNotInSource,
      refuse_congr (failedCheck_xcorrsMov_none ..) .extNotInSource⟩
  case false =>
    exact ⟨complete_congr (failedCheck_xcorrs_none ..) rfl (fun _ => xcorrsBlock base rq .none clr) s,
      complete_congr (failedCheck_xcorrsMov_none ..) rfl
        (fun _ b => (xcorrsBlock base rq .none clr b).writeQ .r rs (b.readQ .tr trb)) s⟩

/-! ## The placed line (R60, R180, R190) -/

theorem decodeLine_of_decodeTableWord {nbits w : Nat} {i : Instr} (h : decodeTableWord nbits w = some i) :
    decodeLine (textOfWord nbits w) = .ok [i] := by
  simp only [decodeTableWord] at h
  split at h
  · cases h; assumption
  · cases h

/-- Settles O5: the placed text is the one fetched, and its line has one slot. -/
theorem placedWordIsExecuted : Obligations.PlacedWordIsExecuted := by
  intro s nbits w i h
  have hstep := step_of_fetch (State.placeLine_fetch s (textOfWord nbits w))
  rw [execText, decodeLine_of_decodeTableWord h] at hstep
  exact hstep.trans (execLine_single i (s.withFetchWord nbits w))

end Sys2Proof.Machine
end

section
/-! PROOFS. The words of canonical text read back: characters, numbers, register names and keywords (30_encoding.md R62 to
R70, R85). -/

namespace Sys2Proof

/-! ## Characters of canonical text (R66, R85) -/

/-- A character of canonical text as the transcriber sees it: written as a byte, read in upper case. -/
def upper (c : Char) : Char := charOfByte (BitVec.ofNat 8 c.toNat)

theorem upper_of_lt {c : Char} (h : c.toNat < 97) : upper c = c := by
  have hmod : c.toNat % 2 ^ 8 = c.toNat := Nat.mod_eq_of_lt (by omega)
  rw [upper, charOfByte, BitVec.toNat_ofNat, hmod, if_neg (by omega), Char.ofNat_toNat]

/-- The model's digits are the library's. -/
theorem isDigit_eq (c : Char) : isDigit c = c.isDigit := by
  rw [Bool.eq_iff_iff]
  simp only [isDigit, Char.isDigit, decide_eq_true_eq, Bool.and_eq_true, ge_iff_le, UInt32.le_iff_toNat_le]
  rfl

theorem isDigit_of_mem_numText {n : Nat} {c : Char} (h : c ∈ numText n) : isDigit c = true := by
  rw [isDigit_eq]
  exact Nat.isDigit_of_mem_toDigits (by decide) (by decide) h

theorem upper_of_isLetter {c : Char} (h : isLetter c = true) : upper c = c := by
  simp only [isLetter, decide_eq_true_eq] at h
  exact upper_of_lt (by omega)

theorem upper_of_isDigit {c : Char} (h : isDigit c = true) : upper c = c := by
  simp only [isDigit, decide_eq_true_eq] at h
  exact upper_of_lt (by omega)

theorem map_upper_of_forall {cs : List Char} (h : ∀ c ∈ cs, upper c = c) : cs.map upper = cs :=
  (List.map_congr_left h).trans (List.map_id cs)

theorem map_upper_of_isLetter {cs : List Char} (h : ∀ c ∈ cs, isLetter c = true) : cs.map upper = cs :=
  map_upper_of_forall fun c hc => upper_of_isLetter (h c hc)

theorem map_upper_numText (n : Nat) : (numText n).map upper = numText n :=
  map_upper_of_forall fun _ h => upper_of_isDigit (isDigit_of_mem_numText h)

/-! ## Numbers (R66) -/

theorem decimalFrom_eq {acc : Nat} {cs : List Char} (h : ∀ c ∈ cs, isDigit c = true) :
    decimalFrom acc cs = some (Nat.ofDigitChars 10 cs acc) := by
  induction cs generalizing acc with
  | nil => rfl
  | cons c cs ih =>
    obtain ⟨hc, hcs⟩ := List.forall_mem_cons.mp h
    rw [decimalFrom, if_pos hc, ih hcs, Nat.ofDigitChars_cons, Nat.mul_comm acc 10]
    rfl

theorem numText_ne_nil (n : Nat) : numText n ≠ [] := Nat.toDigits_ne_nil

theorem readNat_numText (n : Nat) : readNat (numText n) = some n := by
  obtain ⟨c, cs, h⟩ := List.exists_cons_of_ne_nil (numText_ne_nil n)
  rw [h, readNat, ← h, decimalFrom_eq fun _ => isDigit_of_mem_numText]
  exact congrArg some Nat.ofDigitChars_ten_toDigits

/-! ## Runs of characters -/

theorem spanWhile_append {p : Char → Bool} {cs ds : List Char} (hcs : ∀ c ∈ cs, p c = true)
    (hds : ∀ c ∈ ds.head?, p c = false) : spanWhile p (cs ++ ds) = (cs, ds) := by
  induction cs with
  | nil =>
    cases ds with
    | nil => rfl
    | cons d ds => simp [spanWhile, hds d rfl]
  | cons c cs ih =>
    obtain ⟨hc, hcs⟩ := List.forall_mem_cons.mp hcs
    simp [spanWhile, hc, ih hcs]

theorem spanWhile_isDigit_numText (n : Nat) {ds : List Char} (h : ∀ c ∈ ds.head?, isDigit c = false) :
    spanWhile isDigit (numText n ++ ds) = (numText n, ds) :=
  spanWhile_append (fun _ => isDigit_of_mem_numText) h

theorem isLetter_of_isDigit {c : Char} (h : isDigit c = true) : isLetter c = false := by
  simp only [isDigit, decide_eq_true_eq] at h
  simp only [isLetter, decide_eq_false_iff_not]
  omega

/-- A numeral ends a run of letters. -/
theorem spanWhile_isLetter_numText {cs : List Char} (h : ∀ c ∈ cs, isLetter c = true) (n : Nat) (ds : List Char) :
    spanWhile isLetter (cs ++ (numText n ++ ds)) = (cs, numText n ++ ds) := by
  refine spanWhile_append h fun c hc => isLetter_of_isDigit (isDigit_of_mem_numText (n := n) ?_)
  rw [List.head?_append_of_ne_nil _ (numText_ne_nil n)] at hc
  exact List.mem_of_mem_head? hc

/-! ## Register names (R64 to R69) -/

/-- What leads the file of a register name: the block letters, if any, and the size letter (R64, R65). -/
def leadText (blk : Option BlockSel) (short : Bool) : List Char := blk.elim [] blkText ++ shortText short

/-- The half of a quad as canonical text writes it (R69). -/
def halfText : Half → List Char
  | .whole => []
  | .high => ['_', 'h']
  | .low => ['_', 'l']

theorem isLetter_blkText (blk : BlockSel) : ∀ c ∈ blkText blk, isLetter c = true := by
  cases blk <;> simp [blkText, isLetter]

theorem isLetter_shortText (short : Bool) : ∀ c ∈ shortText short, isLetter c = true := by
  cases short <;> simp [shortText, isLetter]

theorem isLetter_fileText (f : RegFile) : ∀ c ∈ fileText f, isLetter c = true := by
  cases f <;> simp [fileText, isLetter]

theorem isLetter_leadText (blk : Option BlockSel) (short : Bool) :
    ∀ c ∈ leadText blk short, isLetter c = true := by
  cases blk with
  | none => exact isLetter_shortText short
  | some b => exact List.forall_mem_append.mpr ⟨isLetter_blkText b, isLetter_shortText short⟩

theorem readBlk_lead_file (blk : Option BlockSel) (short : Bool) (f : RegFile) :
    readBlk (leadText blk short ++ fileText f) = (blk, shortText short ++ fileText f) := by
  rcases blk with - | - | - | - <;> cases short <;> cases f <;> rfl

theorem readShort_short_file (short : Bool) (f : RegFile) :
    readShort (shortText short ++ fileText f) = (short, fileText f) := by
  cases short <;> cases f <;> rfl

theorem readFile_fileText (f : RegFile) : readFile (fileText f) = some f := by cases f <;> rfl

/-- A name with its letters and first number is read up to what follows that number. -/
theorem readReg_lead (blk : Option BlockSel) (short : Bool) (f : RegFile) (n : Nat) {ds : List Char}
    (h : ∀ c ∈ ds.head?, isDigit c = false) {z : GroupSize} {lo : Nat} {half : Half}
    (hds : readGroup n ds = some (z, lo, half)) :
    readReg (leadText blk short ++ fileText f ++ (numText n ++ ds)) = some ⟨blk, short, f, z, lo, half⟩ := by
  have hletter := List.forall_mem_append.mpr ⟨isLetter_leadText blk short, isLetter_fileText f⟩
  simp only [readReg, spanWhile_isLetter_numText hletter, spanWhile_isDigit_numText n h,
    readBlk_lead_file, readShort_short_file, readFile_fileText, readNat_numText, hds]

theorem readGroup_group (n lo : Nat) (half : Half) :
    readGroup n (':' :: (numText lo ++ (halfText half).map upper)) = some (groupSize n lo, lo, half) := by
  have hspan : spanWhile isDigit (numText lo ++ (halfText half).map upper) = (numText lo, (halfText half).map upper) :=
    spanWhile_isDigit_numText lo (by cases half <;> simp [halfText] <;> rfl)
  have hhalf : readHalf ((halfText half).map upper) = some half := by cases half <;> rfl
  simp only [readGroup, hspan, readNat_numText, hhalf]

theorem readReg_oneText (blk : Option BlockSel) (short : Bool) (f : RegFile) (i : Nat) :
    readReg ((leadText blk short ++ oneText f i).map upper) = some ⟨blk, short, f, .one, i, .whole⟩ := by
  have h := readReg_lead blk short f i (ds := []) (by simp) rfl
  simpa only [oneText, List.map_append, List.append_nil, List.append_assoc, map_upper_numText,
    map_upper_of_isLetter (isLetter_leadText blk short), map_upper_of_isLetter (isLetter_fileText f)] using h

theorem readReg_groupText (blk : Option BlockSel) (short : Bool) (f : RegFile) (k i : Nat) (half : Half) :
    readReg ((leadText blk short ++ groupText f k i ++ halfText half).map upper) =
      some ⟨blk, short, f, groupSize (i + k) i, i, half⟩ := by
  have hcolon : upper ':' = ':' := rfl
  have h := readReg_lead blk short f (i + k) (by simp [isDigit]) (readGroup_group (i + k) i half)
  simpa only [groupText, List.map_append, List.map_cons, List.append_assoc, List.cons_append, map_upper_numText, hcolon,
    map_upper_of_isLetter (isLetter_leadText blk short), map_upper_of_isLetter (isLetter_fileText f)] using h

@[simp] theorem groupSize_two (i : Nat) : groupSize (i + 1) i = .two := by simp [groupSize]
@[simp] theorem groupSize_four (i : Nat) : groupSize (i + 3) i = .four := by simp [groupSize]
@[simp] theorem groupSize_sixteen (i : Nat) : groupSize (i + 15) i = .sixteen := by simp [groupSize]

/-! ## Words as items (R62, R76) -/

/-- The item a word of canonical text is read as. -/
def wordItem (w : List Char) : Except TextError Item := itemOf (.word (w.map upper))

theorem wordItem_of_readReg {w : List Char} {t : RegText} (h : readReg (w.map upper) = some t) :
    wordItem w = .ok (.reg t) := by simp [wordItem, itemOf, h]

@[simp] theorem wordItem_blk_short_one (blk : BlockSel) (short : Bool) (f : RegFile) (i : Nat) :
    wordItem (blkText blk ++ (shortText short ++ oneText f i)) = .ok (.reg ⟨some blk, short, f, .one, i, .whole⟩) :=
  wordItem_of_readReg (by simpa [leadText] using readReg_oneText (some blk) short f i)

@[simp] theorem wordItem_blk_one (blk : BlockSel) (f : RegFile) (i : Nat) :
    wordItem (blkText blk ++ oneText f i) = .ok (.reg ⟨some blk, false, f, .one, i, .whole⟩) := by
  simpa [shortText] using wordItem_blk_short_one blk false f i

@[simp] theorem wordItem_one (f : RegFile) (i : Nat) :
    wordItem (oneText f i) = .ok (.reg ⟨none, false, f, .one, i, .whole⟩) :=
  wordItem_of_readReg (readReg_oneText none false f i)

@[simp] theorem wordItem_blk_short_group (blk : BlockSel) (short : Bool) (f : RegFile) (k i : Nat) :
    wordItem (blkText blk ++ (shortText short ++ groupText f k i)) =
      .ok (.reg ⟨some blk, short, f, groupSize (i + k) i, i, .whole⟩) :=
  wordItem_of_readReg (by simpa [leadText, halfText] using readReg_groupText (some blk) short f k i .whole)

@[simp] theorem wordItem_blk_group (blk : BlockSel) (f : RegFile) (k i : Nat) :
    wordItem (blkText blk ++ groupText f k i) = .ok (.reg ⟨some blk, false, f, groupSize (i + k) i, i, .whole⟩) := by
  simpa [shortText] using wordItem_blk_short_group blk false f k i

@[simp] theorem wordItem_short_group (short : Bool) (f : RegFile) (k i : Nat) :
    wordItem (shortText short ++ groupText f k i) = .ok (.reg ⟨none, short, f, groupSize (i + k) i, i, .whole⟩) :=
  wordItem_of_readReg (by simpa [leadText, halfText] using readReg_groupText none short f k i .whole)

@[simp] theorem wordItem_group (f : RegFile) (k i : Nat) :
    wordItem (groupText f k i) = .ok (.reg ⟨none, false, f, groupSize (i + k) i, i, .whole⟩) :=
  wordItem_short_group false f k i

@[simp] theorem wordItem_group_high (f : RegFile) (k i : Nat) :
    wordItem (groupText f k i ++ ['_', 'h']) = .ok (.reg ⟨none, false, f, groupSize (i + k) i, i, .high⟩) :=
  wordItem_of_readReg (readReg_groupText none false f k i .high)

@[simp] theorem wordItem_group_low (f : RegFile) (k i : Nat) :
    wordItem (groupText f k i ++ ['_', 'l']) = .ok (.reg ⟨none, false, f, groupSize (i + k) i, i, .low⟩) :=
  wordItem_of_readReg (readReg_groupText none false f k i .low)

@[simp] theorem wordItem_keyword (k : Keyword) : wordItem (keywordText k) = .ok (.kw k) := by
  cases k <;> rfl

@[simp] theorem wordItem_i : wordItem ['i'] = .ok (.kw .i) := rfl

@[simp] theorem wordItem_numText (n : Nat) : wordItem (numText n) = .ok (.num n) := by
  have hspan : spanWhile isLetter (numText n) = ([], numText n) := by
    simpa using spanWhile_isLetter_numText (cs := []) (by simp) n []
  have hreg : readReg (numText n) = none := by simp [readReg, hspan, readBlk, readShort, readFile]
  simp [wordItem, itemOf, map_upper_numText, hreg, readNat_numText]

/-! ## The characters of words (R62, R67) -/

/-- A word of canonical text, which the tokenizer takes for one word. -/
structure IsWord (w : List Char) : Prop where
  ne_nil : w ≠ []
  isWordChar_upper : ∀ c ∈ w, isWordChar (upper c) = true

theorem isWordChar_upper_of_isLetter {c : Char} (h : isLetter c = true) : isWordChar (upper c) = true := by
  simp [upper_of_isLetter h, isWordChar, h]

theorem isWordChar_upper_of_isDigit {c : Char} (h : isDigit c = true) : isWordChar (upper c) = true := by
  simp [upper_of_isDigit h, isWordChar, h]

/-- Letters may stand before a word. -/
theorem IsWord.letters_append {v w : List Char} (hv : ∀ c ∈ v, isLetter c = true) (hw : IsWord w) :
    IsWord (v ++ w) where
  ne_nil := List.append_ne_nil_of_right_ne_nil v hw.ne_nil
  isWordChar_upper :=
    List.forall_mem_append.mpr ⟨fun c hc => isWordChar_upper_of_isLetter (hv c hc), hw.isWordChar_upper⟩

@[simp] theorem isWord_blkText_append {w : List Char} (blk : BlockSel) (h : IsWord w) : IsWord (blkText blk ++ w) :=
  h.letters_append (isLetter_blkText blk)

@[simp] theorem isWord_shortText_append {w : List Char} (short : Bool) (h : IsWord w) : IsWord (shortText short ++ w) :=
  h.letters_append (isLetter_shortText short)

@[simp] theorem isWord_numText (n : Nat) : IsWord (numText n) :=
  ⟨numText_ne_nil n, fun _ h => isWordChar_upper_of_isDigit (isDigit_of_mem_numText h)⟩

@[simp] theorem isWord_oneText (f : RegFile) (i : Nat) : IsWord (oneText f i) :=
  (isWord_numText i).letters_append (isLetter_fileText f)

theorem isWord_groupText_half (f : RegFile) (k i : Nat) (half : Half) : IsWord (groupText f k i ++ halfText half) := by
  have hcolon : isWordChar (upper ':') = true := rfl
  have hhalf : ∀ c ∈ halfText half, isWordChar (upper c) = true := by
    cases half <;> simp [halfText] <;> constructor <;> rfl
  rw [groupText, List.append_assoc, List.append_assoc]
  refine IsWord.letters_append (isLetter_fileText f) ⟨by simp, ?_⟩
  simp only [List.cons_append, List.forall_mem_append, List.forall_mem_cons]
  exact ⟨(isWord_numText (i + k)).isWordChar_upper, hcolon, (isWord_numText i).isWordChar_upper, hhalf⟩

@[simp] theorem isWord_groupText (f : RegFile) (k i : Nat) : IsWord (groupText f k i) := by
  simpa [halfText] using isWord_groupText_half f k i .whole

@[simp] theorem isWord_groupText_high (f : RegFile) (k i : Nat) : IsWord (groupText f k i ++ ['_', 'h']) :=
  isWord_groupText_half f k i .high

@[simp] theorem isWord_groupText_low (f : RegFile) (k i : Nat) : IsWord (groupText f k i ++ ['_', 'l']) :=
  isWord_groupText_half f k i .low

@[simp] theorem isWord_i : IsWord ['i'] := ⟨by simp, by simp; rfl⟩

theorem isLetter_keywordText (k : Keyword) : ∀ c ∈ keywordText k, isLetter c = true := by
  cases k <;> simp [keywordText, isLetter]

@[simp] theorem isWord_keywordText (k : Keyword) : IsWord (keywordText k) where
  ne_nil := by cases k <;> simp [keywordText]
  isWordChar_upper := fun c hc => isWordChar_upper_of_isLetter (isLetter_keywordText k c hc)

end Sys2Proof
end

section
/-! PROOFS. The slots of canonical text read back: a slot's pieces give its items, and its items are parsed to the
instruction they were written for (30_encoding.md R62 to R85, D30). -/

namespace Sys2Proof

/-! ## Marks (R85) -/

@[simp] theorem Piece.blank_eq : Piece.blank = .sep ' ' := rfl
@[simp] theorem Piece.assign_eq : Piece.assign = [.sep ' ', .sep '=', .sep ' '] := rfl
@[simp] theorem Piece.next_eq : Piece.next = [.sep ',', .sep ' '] := rfl
@[simp] theorem Piece.kw_eq (k : Keyword) : Piece.kw k = .word (keywordText k) := rfl
@[simp] theorem Piece.sign_true : Piece.sign true = [.sep ' ', .sep '+', .sep ' '] := rfl
@[simp] theorem Piece.sign_false : Piece.sign false = [.sep ' ', .sep '-', .sep ' '] := rfl

/-! ## From pieces to items -/

/-- The token of a piece; a blank has none. -/
def Piece.token : Piece → Option Token
  | .word w => some (.word (w.map upper))
  | .sep c => punctuation c

/-- The tokens of a list of pieces. -/
def tokensOf (ps : List Piece) : List Token := ps.filterMap Piece.token

/-- The items of a list of pieces. -/
def itemsOfPieces (ps : List Piece) : Except TextError (List Item) := itemsOf (tokensOf ps)

@[simp] theorem itemsOfPieces_nil : itemsOfPieces [] = .ok [] := rfl

@[simp] theorem itemsOfPieces_blank (ps : List Piece) : itemsOfPieces (.sep ' ' :: ps) = itemsOfPieces ps := rfl

@[simp] theorem itemsOfPieces_word (w : List Char) (ps : List Piece) :
    itemsOfPieces (.word w :: ps) = (wordItem w).bind fun it => (itemsOfPieces ps).map (it :: ·) := by
  simp only [itemsOfPieces, tokensOf, Piece.token, List.filterMap_cons, itemsOf, wordItem]
  cases itemOf (.word (w.map upper)) <;> rfl

theorem itemsOfPieces_mark {c : Char} {t : Token} {it : Item} (hc : punctuation c = some t) (ht : itemOf t = .ok it)
    (ps : List Piece) : itemsOfPieces (.sep c :: ps) = (itemsOfPieces ps).map (it :: ·) := by
  simp [itemsOfPieces, tokensOf, Piece.token, itemsOf, hc, ht]

@[simp] theorem itemsOfPieces_eq (ps : List Piece) :
    itemsOfPieces (.sep '=' :: ps) = (itemsOfPieces ps).map (.eq :: ·) := itemsOfPieces_mark rfl rfl ps

@[simp] theorem itemsOfPieces_plus (ps : List Piece) :
    itemsOfPieces (.sep '+' :: ps) = (itemsOfPieces ps).map (.plus :: ·) := itemsOfPieces_mark rfl rfl ps

@[simp] theorem itemsOfPieces_minus (ps : List Piece) :
    itemsOfPieces (.sep '-' :: ps) = (itemsOfPieces ps).map (.minus :: ·) := itemsOfPieces_mark rfl rfl ps

@[simp] theorem itemsOfPieces_comma (ps : List Piece) :
    itemsOfPieces (.sep ',' :: ps) = (itemsOfPieces ps).map (.comma :: ·) := itemsOfPieces_mark rfl rfl ps

@[simp] theorem itemsOfPieces_lpar (ps : List Piece) :
    itemsOfPieces (.sep '(' :: ps) = (itemsOfPieces ps).map (.lpar :: ·) := itemsOfPieces_mark rfl rfl ps

@[simp] theorem itemsOfPieces_rpar (ps : List Piece) :
    itemsOfPieces (.sep ')' :: ps) = (itemsOfPieces ps).map (.rpar :: ·) := itemsOfPieces_mark rfl rfl ps

/-! ## The items of each form (R75, R85) -/

/-- A register operand that is its file and number only. -/
@[simp] def regItem (f : RegFile) (z : GroupSize) (i : Nat) : Item := .reg ⟨none, false, f, z, i, .whole⟩

/-- A slot's first register, which carries the block letters. -/
@[simp] def destItem (blk : BlockSel) (short : Bool) (f : RegFile) (z : GroupSize) (i : Nat) : Item :=
  .reg ⟨some blk, short, f, z, i, .whole⟩

/-- One half of a data register quad. -/
@[simp] def halfItem (h : Half) (rq : Nat) : Item := .reg ⟨none, false, .r, .four, rq, h⟩

/-- The sign between the operands of TMAX and MAX. -/
@[simp] def signItem (isAdd : Bool) : Item := if isAdd then .plus else .minus

/-- The items of `trellisPieces`. -/
def trellisItems (k : Keyword) (isAdd : Bool) (blk : BlockSel) (short : Bool) (trs trm trn rq : Nat) : List Item :=
  [destItem blk short .tr .two trs, .eq, .kw k, .lpar, regItem .tr .two trm, signItem isAdd, halfItem .high rq, .comma,
    regItem .tr .two trn, signItem isAdd, halfItem .low rq, .rpar]

/-- The items of `flagPieces`. -/
def flagItems (present : Bool) (k : Keyword) : List Item := if present then [.lpar, .kw k, .rpar] else []

/-- The items of `cutPieces`. -/
def cutItems : Cut → List Item
  | .none => []
  | .imm k => [.lpar, .kw .cut] ++ (if k < 0 then [.minus] else []) ++ [.num k.natAbs, .rpar]
  | .reg => [.lpar, .kw .cut, .kw .r, .rpar]

/-- The items of `despreadPieces`. -/
def despreadItems (rq thrd : Nat) : List Item :=
  [.kw .despread, .lpar, regItem .r .four rq, .comma, regItem .thr .two thrd, .rpar]

/-- The items of `xcorrsPieces`. -/
def xcorrsItems (rq : Nat) (cut : Cut) (clr ext : Bool) : List Item :=
  [.kw .xcorrs, .lpar, regItem .r .four rq, .comma, regItem .thr .four 0, .rpar] ++
    (cutItems cut ++ (flagItems clr .clr ++ flagItems ext .ext))

/-- The items of `acsPieces`. -/
def acsItems (trm trn rm : Nat) (tmax : Bool) : List Item :=
  [.kw .acs, .lpar, regItem .tr .two trm, .comma, regItem .tr .two trn, .comma, regItem .r .one rm, .rpar] ++
    flagItems tmax .tmax

/-- The items of a transfer, or of the move half of a dual operation without its comma. -/
def transferItems (blk : BlockSel) (f : RegFile) (z : GroupSize) (i : Nat) (g : RegFile) (j : Nat) : List Item :=
  [destItem blk false f z i, .eq, regItem g z j]

/-- The items of a slot's canonical text, between the tokenizer and the parser (R75, R85). -/
def slotItems : Instr → List Item
  | .tmaxAdd blk short trs trm trn rq => trellisItems .tmax true blk short trs trm trn rq
  | .tmaxSub blk short trs trm trn rq => trellisItems .tmax false blk short trs trm trn rq
  | .tmaxTr blk short rs trm trn =>
    [destItem blk short .r .one rs, .eq, .kw .tmax, .lpar, regItem .tr .one trm, .comma, regItem .tr .one trn, .rpar]
  | .maxAdd blk short trs trm trn rq => trellisItems .max true blk short trs trm trn rq
  | .maxSub blk short trs trm trn rq => trellisItems .max false blk short trs trm trn rq
  | .movRTr blk rs trm => transferItems blk .r .one rs .tr trm
  | .movRdTrd blk rs trm => transferItems blk .r .two rs .tr trm
  | .movRqTrq blk rs trm => transferItems blk .r .four rs .tr trm
  | .movTrR blk trs rm => transferItems blk .tr .one trs .r rm
  | .movTrdRd blk trs rm => transferItems blk .tr .two trs .r rm
  | .movTrqRq blk trs rm => transferItems blk .tr .four trs .r rm
  | .movRThr blk rs thrm => transferItems blk .r .one rs .thr thrm
  | .movRdThrd blk rs thrm => transferItems blk .r .two rs .thr thrm
  | .movRqThrq blk rs => transferItems blk .r .four rs .thr 0
  | .movThrR blk thrs rm => transferItems blk .thr .one thrs .r rm
  | .movThrdRd blk thrs rm optI => transferItems blk .thr .two thrs .r rm ++ flagItems optI .i
  | .movThrqRq blk rm => transferItems blk .thr .four 0 .r rm
  | .despreadAcc blk trs rq thrd trn =>
    [destItem blk false .tr .one trs, .eq] ++ despreadItems rq thrd ++ [.plus, regItem .tr .one trn]
  | .despreadMov blk rs trs rq thrd =>
    transferItems blk .r .one rs .tr trs ++ [.comma, regItem .tr .one trs, .eq] ++ despreadItems rq thrd
  | .despreadMovd blk rs trs rq thrd =>
    transferItems blk .r .two rs .tr trs ++ [.comma, regItem .tr .two trs, .eq] ++ despreadItems rq thrd
  | .xcorrs blk base rq cut clr ext => [destItem blk false .tr .sixteen base, .eq] ++ xcorrsItems rq cut clr ext
  | .xcorrsMov blk rs trb base rq cut clr ext =>
    transferItems blk .r .four rs .tr trb ++ [.comma, regItem .tr .sixteen base, .eq] ++ xcorrsItems rq cut clr ext
  | .acs blk short trs trm trn rm tmax => [destItem blk short .tr .four trs, .eq] ++ acsItems trm trn rm tmax
  | .acsMov blk rs tra short trs trm trn rm tmax =>
    transferItems blk .r .four rs .tr tra ++ [.comma, .reg ⟨none, short, .tr, .four, trs, .whole⟩, .eq] ++
      acsItems trm trn rm tmax
  | .permuteD blk rs rm rn =>
    [destItem blk false .r .two rs, .eq, .kw .permute, .lpar, regItem .r .two rm, .comma, regItem .r .one rn, .rpar]
  | .permuteQ blk rs rm rn =>
    [destItem blk false .r .four rs, .eq, .kw .permute, .lpar, regItem .r .two rm, .comma, .minus, regItem .r .two rm,
      .comma, regItem .r .one rn, .rpar]

@[simp] theorem itemsOfPieces_flagPieces_append (present : Bool) (k : Keyword) (ps : List Piece) :
    itemsOfPieces (flagPieces present k ++ ps) = (itemsOfPieces ps).map (flagItems present k ++ ·) := by
  cases present <;> simp [flagPieces, flagItems, optionPieces, Except.bind] <;> cases itemsOfPieces ps <;> rfl

@[simp] theorem itemsOfPieces_flagPieces (present : Bool) (k : Keyword) :
    itemsOfPieces (flagPieces present k) = .ok (flagItems present k) := by
  simpa [Except.map] using itemsOfPieces_flagPieces_append present k []

@[simp] theorem itemsOfPieces_cutPieces_append (cut : Cut) (ps : List Piece) :
    itemsOfPieces (cutPieces cut ++ ps) = (itemsOfPieces ps).map (cutItems cut ++ ·) := by
  cases cut with
  | none => cases h : itemsOfPieces ps <;> simp [cutPieces, cutItems, h, Except.map]
  | imm k =>
    by_cases hk : k < 0 <;> simp [cutPieces, cutItems, optionPieces, Except.bind, hk] <;>
      cases itemsOfPieces ps <;> rfl
  | reg =>
    simp only [cutPieces, cutItems, optionPieces]
    cases h : itemsOfPieces ps <;> simp [h, Except.bind, Except.map]

/-- The words and marks of a form's text are read one by one. -/
theorem itemsOfPieces_slotPieces (i : Instr) : itemsOfPieces (slotPieces i) = .ok (slotItems i) := by
  cases i
  case tmaxAdd | tmaxSub | maxAdd | maxSub =>
    simp [slotPieces, trellisPieces, slotItems, trellisItems, Except.bind, Except.map]
  case movThrdRd _ _ _ optI =>
    cases optI <;>
      simp [slotPieces, transferPieces, optionPieces, slotItems, transferItems, flagItems, Except.bind, Except.map]
  case movRTr | movRdTrd | movRqTrq | movTrR | movTrdRd | movTrqRq | movRThr | movRdThrd | movRqThrq | movThrR |
      movThrqRq =>
    simp [slotPieces, transferPieces, slotItems, transferItems, Except.bind, Except.map]
  case despreadAcc | despreadMov | despreadMovd =>
    simp [slotPieces, movePieces, transferPieces, despreadPieces, slotItems, transferItems, despreadItems, Except.bind,
      Except.map]
  case xcorrs | xcorrsMov =>
    simp [slotPieces, movePieces, transferPieces, xcorrsPieces, slotItems, transferItems, xcorrsItems, Except.bind,
      Except.map]
  case acs | acsMov =>
    simp [slotPieces, movePieces, transferPieces, acsPieces, slotItems, transferItems, acsItems, Except.bind, Except.map]
  case tmaxTr | permuteD | permuteQ => simp [slotPieces, slotItems, Except.bind, Except.map]

/-! ## The block of a slot (R62, R64) -/

theorem cutItems_hasBlk (cut : Cut) : (cutItems cut).any Item.hasBlk = false := by
  cases cut with
  | none => rfl
  | imm k => by_cases hk : k < 0 <;> simp [cutItems, hk, Item.hasBlk]
  | reg => rfl

theorem flagItems_hasBlk (present : Bool) (k : Keyword) : (flagItems present k).any Item.hasBlk = false := by
  cases present <;> rfl

theorem blkOf_slotItems (i : Instr) : blkOf (slotItems i) = .ok i.blk := by
  cases i
  case movThrdRd _ _ _ optI => cases optI <;> rfl
  case xcorrs | xcorrsMov =>
    simp [slotItems, transferItems, xcorrsItems, cutItems_hasBlk, flagItems_hasBlk, blkOf, Item.hasBlk, Instr.blk]
  case acs | acsMov =>
    simp [slotItems, transferItems, acsItems, flagItems_hasBlk, blkOf, Item.hasBlk, Instr.blk]
  all_goals rfl

/-! ## Options (R70, R71, R74) -/

theorem flagOption_flagItems (present : Bool) (k : Keyword) : flagOption k (flagItems present k) = (present, []) := by
  cases present
  · rfl
  · exact if_pos rfl

theorem flagOption_clr (clr ext : Bool) :
    flagOption .clr (flagItems clr .clr ++ flagItems ext .ext) = (clr, flagItems ext .ext) := by
  cases clr <;> cases ext <;> rfl

theorem cutOption_cutItems (cut : Cut) (clr ext : Bool) :
    cutOption (cutItems cut ++ (flagItems clr .clr ++ flagItems ext .ext)) =
      (cut, flagItems clr .clr ++ flagItems ext .ext) := by
  cases cut with
  | none => cases clr <;> cases ext <;> rfl
  | imm k =>
    by_cases hk : k < 0
    · simp [cutItems, hk, cutOption, abs_of_neg hk]
    · simp [cutItems, hk, cutOption, abs_of_nonneg (not_lt.mp hk)]
  | reg => rfl

theorem xcorrsOptions_items (cut : Cut) (clr ext : Bool) :
    xcorrsOptions (cutItems cut ++ (flagItems clr .clr ++ flagItems ext .ext)) = .ok (cut, clr, ext) := by
  simp [xcorrsOptions, cutOption_cutItems, flagOption_clr, flagOption_flagItems]

theorem acsOption_items (tmax : Bool) : acsOption (flagItems tmax .tmax) = .ok tmax := by
  simp [acsOption, flagOption_flagItems]

/-! ## Parsing (R75, R76) -/

/-- The parser finds the form and the block the items were written for; where an operand is written twice, it finds the same
one. -/
theorem parseSlot_slotItems (i : Instr) : parseSlot i.blk (slotItems i) = .ok i := by
  cases i
  case movThrdRd _ _ _ optI => cases optI <;> rfl
  case tmaxAdd | tmaxSub | maxAdd | maxSub | permuteQ | despreadMov | despreadMovd => exact if_pos rfl
  case xcorrs =>
    simp [slotItems, xcorrsItems, Instr.blk, parseSlot, parseSingle, xcorrsForm, xcorrsOptions_items, RegText.operand,
      thrQuad]
  case xcorrsMov =>
    simp [slotItems, transferItems, xcorrsItems, Instr.blk, parseSlot, parseDual, xcorrsDualForm, xcorrsOptions_items,
      RegText.operand, thrQuad]
  case acs =>
    simp [slotItems, acsItems, Instr.blk, parseSlot, parseSingle, acsForm, acsOption_items, RegText.operand,
      RegText.result]
  case acsMov =>
    simp [slotItems, transferItems, acsItems, Instr.blk, parseSlot, parseDual, acsDualForm, acsForm, acsOption_items,
      RegText.operand, RegText.result]
  all_goals rfl

theorem itemsOf_slotPieces (i : Instr) : itemsOf (tokensOf (slotPieces i)) = .ok (slotItems i) :=
  itemsOfPieces_slotPieces i

/-- The tokens of a slot's canonical text decode to the instruction, up to the checks of R68. -/
theorem decodeSlot_slotPieces (i : Instr) : decodeSlot (tokensOf (slotPieces i)) = checked i := by
  simp only [decodeSlot, itemsOf_slotPieces, blkOf_slotItems, parseSlot_slotItems]

end Sys2Proof
end

section
/-! PROOFS. The lines of canonical text read back: the text is cut into its pieces again and the pieces into slots; and
what any accepted text decodes to (30_encoding.md R60 to R62, R68, R81, R85, D30). -/

namespace Sys2Proof

/-! ## Text that can be cut into its pieces (R62) -/

/-- The marks and the blank of canonical text. -/
def IsMark (c : Char) : Prop := c ∈ [' ', '=', '+', '-', ',', '(', ')', ';']

/-- Pieces the tokenizer can tell apart: no word follows a word. -/
def Separated : List Piece → Prop
  | [] => True
  | .word w :: ps => IsWord w ∧ (∀ v, ps.head? ≠ some (.word v)) ∧ Separated ps
  | .sep c :: ps => IsMark c ∧ Separated ps

/-- The characters of a list of pieces, as the transcriber sees them. -/
def textOf (ps : List Piece) : List Char := (ps.flatMap Piece.text).map upper

@[simp] theorem textOf_nil : textOf [] = [] := rfl

@[simp] theorem textOf_word (w : List Char) (ps : List Piece) : textOf (.word w :: ps) = w.map upper ++ textOf ps := by
  simp [textOf, Piece.text]

@[simp] theorem textOf_sep (c : Char) (ps : List Piece) : textOf (.sep c :: ps) = upper c :: textOf ps := by
  simp [textOf, Piece.text]

theorem IsMark.cases {c : Char} (h : IsMark c) :
    c = ' ' ∨ c = '=' ∨ c = '+' ∨ c = '-' ∨ c = ',' ∨ c = '(' ∨ c = ')' ∨ c = ';' := by simpa [IsMark] using h

/-- A mark is no lower-case letter and no part of a word, and it opens no comment. -/
theorem IsMark.plain {c : Char} (h : IsMark c) : upper c = c ∧ isWordChar c = false ∧ c ≠ '/' := by
  rcases h.cases with rfl | rfl | rfl | rfl | rfl | rfl | rfl | rfl <;> exact ⟨rfl, rfl, by decide⟩

/-! ## Comments (R62) -/

theorem stripComments_of_notMem {cs : List Char} (h : '/' ∉ cs) : stripComments .text cs = .ok cs := by
  induction cs with
  | nil => rfl
  | cons c cs ih =>
    rw [List.mem_cons, not_or] at h
    obtain ⟨hc, hcs⟩ := h
    rw [stripComments, if_neg (Ne.symm hc), ih hcs]
    rfl

theorem IsWord.slash_notMem {w : List Char} (h : IsWord w) : '/' ∉ w.map upper := by
  intro hmem
  obtain ⟨c, hc, heq⟩ := List.mem_map.mp hmem
  have hslash := h.isWordChar_upper c hc
  rw [heq] at hslash
  cases hslash

theorem slash_notMem_textOf {ps : List Piece} (h : Separated ps) : '/' ∉ textOf ps := by
  induction ps with
  | nil => simp
  | cons p ps ih =>
    cases p with
    | word w =>
      obtain ⟨hw, -, hps⟩ := h
      simpa using ⟨by simpa using hw.slash_notMem, ih hps⟩
    | sep c =>
      obtain ⟨hc, hps⟩ := h
      obtain ⟨hupper, -, hslash⟩ := hc.plain
      simpa [hupper] using ⟨hslash.symm, ih hps⟩

/-! ## Tokens (R62) -/

theorem tokens_mark {c : Char} (h : IsMark c) (cs : List Char) :
    tokens [] (c :: cs) = (tokens [] cs).map ((punctuation c).toList ++ ·) := by
  have hflush : flushWord [] = fun ts => ts := rfl
  rcases h.cases with rfl | rfl | rfl | rfl | rfl | rfl | rfl | rfl <;>
    simp [tokens, isWordChar, isDigit, isLetter, isBlank, punctuation, hflush]

theorem tokens_word {w : List Char} (h : ∀ c ∈ w, isWordChar c = true) (cur cs : List Char) :
    tokens cur (w ++ cs) = tokens (cur ++ w) cs := by
  induction w generalizing cur with
  | nil => simp
  | cons c w ih =>
    obtain ⟨hc, hw⟩ := List.forall_mem_cons.mp h
    rw [List.cons_append, tokens, if_pos hc, ih hw, List.append_assoc, List.singleton_append]

/-- A word ends where no further character of a word stands. -/
theorem tokens_flush (cur : List Char) {cs : List Char} (h : ∀ c ∈ cs.head?, isWordChar c = false) :
    tokens cur cs = (tokens [] cs).map (flushWord cur) := by
  cases cs with
  | nil => rfl
  | cons c cs =>
    simp only [tokens, h c rfl, Bool.false_eq_true, if_false]
    split
    · cases tokens [] cs <;> rfl
    · cases punctuation c with
      | none => rfl
      | some t => cases tokens [] cs <;> rfl

theorem isWordChar_head?_textOf {ps : List Piece} (h : Separated ps) (hhead : ∀ v, ps.head? ≠ some (.word v)) :
    ∀ c ∈ (textOf ps).head?, isWordChar c = false := by
  cases ps with
  | nil => simp
  | cons p ps =>
    cases p with
    | word w => exact absurd rfl (hhead w)
    | sep c =>
      obtain ⟨hc, -⟩ := h
      obtain ⟨hupper, hword, -⟩ := hc.plain
      simp [hupper, hword]

theorem tokens_textOf {ps : List Piece} (h : Separated ps) : tokens [] (textOf ps) = .ok (tokensOf ps) := by
  induction ps with
  | nil => rfl
  | cons p ps ih =>
    cases p with
    | sep c =>
      obtain ⟨hc, hps⟩ := h
      obtain ⟨hupper, -, -⟩ := hc.plain
      rw [textOf_sep, hupper, tokens_mark hc, ih hps]
      cases hp : punctuation c <;> simp [tokensOf, Piece.token, hp, Except.map]
    | word w =>
      obtain ⟨⟨hne, hw⟩, hhead, hps⟩ := h
      rw [textOf_word, tokens_word (List.forall_mem_map.mpr hw), tokens_flush _ (isWordChar_head?_textOf hps hhead),
        ih hps]
      cases w with
      | nil => exact absurd rfl hne
      | cons c w => rfl

theorem slotTokens_textOf {ps : List Piece} (h : Separated ps) : slotTokens (textOf ps) = slotsOf [] (tokensOf ps) := by
  simp only [slotTokens, stripComments_of_notMem (slash_notMem_textOf h), tokens_textOf h]

/-! ## The pieces of slots and lines are separated (R85) -/

theorem Separated.append_sep {ps qs : List Piece} {c : Char} (hps : Separated ps) (hqs : Separated (.sep c :: qs)) :
    Separated (ps ++ .sep c :: qs) := by
  induction ps with
  | nil => exact hqs
  | cons p ps ih =>
    cases p with
    | sep d =>
      obtain ⟨hd, hps⟩ := hps
      exact ⟨hd, ih hps⟩
    | word w =>
      obtain ⟨hw, hhead, hps⟩ := hps
      refine ⟨hw, ?_, ih hps⟩
      cases ps with
      | nil => simp
      | cons p ps => exact hhead

@[simp] theorem separated_flagPieces_append (present : Bool) (k : Keyword) (ps : List Piece) :
    Separated (flagPieces present k ++ ps) ↔ Separated ps := by
  cases present <;> simp [flagPieces, optionPieces, Separated, IsMark]

@[simp] theorem separated_flagPieces (present : Bool) (k : Keyword) : Separated (flagPieces present k) := by
  simpa [Separated] using separated_flagPieces_append present k []

@[simp] theorem separated_cutPieces_append (cut : Cut) (ps : List Piece) :
    Separated (cutPieces cut ++ ps) ↔ Separated ps := by
  cases cut with
  | none => rfl
  | imm k => by_cases hk : k < 0 <;> simp [cutPieces, optionPieces, Separated, IsMark, hk]
  | reg => simp [cutPieces, optionPieces, Separated, IsMark]

/-- Between any two words of a form's text stands a mark or a blank. -/
theorem separated_slotPieces (i : Instr) : Separated (slotPieces i) := by
  cases i
  case tmaxAdd | tmaxSub | maxAdd | maxSub => simp [slotPieces, trellisPieces, Separated, IsMark]
  case movThrdRd _ _ _ optI => cases optI <;> simp [slotPieces, transferPieces, optionPieces, Separated, IsMark]
  case movRTr | movRdTrd | movRqTrq | movTrR | movTrdRd | movTrqRq | movRThr | movRdThrd | movRqThrq | movThrR |
      movThrqRq =>
    simp [slotPieces, transferPieces, Separated, IsMark]
  case despreadAcc | despreadMov | despreadMovd =>
    simp [slotPieces, movePieces, transferPieces, despreadPieces, Separated, IsMark]
  case xcorrs | xcorrsMov => simp [slotPieces, movePieces, transferPieces, xcorrsPieces, Separated, IsMark]
  case acs | acsMov => simp [slotPieces, movePieces, transferPieces, acsPieces, Separated, IsMark]
  case tmaxTr | permuteD | permuteQ => simp [slotPieces, Separated, IsMark]

theorem separated_linePieces (line : Line) : Separated (linePieces line) := by
  have hsemi : IsMark ';' := by simp [IsMark]
  have hblank : IsMark ' ' := by simp [IsMark]
  induction line using linePieces.induct with
  | case1 => exact trivial
  | case2 i => exact (separated_slotPieces i).append_sep (qs := [.sep ';']) ⟨hsemi, hsemi, trivial⟩
  | case3 i j is ih =>
    rw [linePieces, List.append_assoc]
    exact (separated_slotPieces i).append_sep (qs := .blank :: linePieces (j :: is)) ⟨hsemi, hblank, ih⟩

/-! ## Slots (R61) -/

theorem slotsOf_append {ts : List Token} (h : .semi ∉ ts) (cur rest : List Token) :
    slotsOf cur (ts ++ rest) = slotsOf (cur ++ ts) rest := by
  induction ts generalizing cur with
  | nil => simp
  | cons t ts ih =>
    rw [List.mem_cons, not_or] at h
    obtain ⟨ht, hts⟩ := h
    simp [slotsOf.eq_def cur (t :: _), Ne.symm ht, ih hts]

theorem slotsOf_append_semi {ts : List Token} (hne : ts ≠ []) (h : .semi ∉ ts) (rest : List Token) :
    slotsOf [] (ts ++ .semi :: rest) = (slotsOf [] rest).map (ts :: ·) := by
  rw [slotsOf_append h]
  cases ts with
  | nil => exact absurd rfl hne
  | cons t ts => rfl

theorem itemsOf_cons_eq_ok {t : Token} {ts : List Token} {its : List Item} (h : itemsOf (t :: ts) = .ok its) :
    ∃ it its', itemOf t = .ok it ∧ itemsOf ts = .ok its' ∧ its = it :: its' := by
  simp only [itemsOf] at h
  cases ht : itemOf t with
  | error e => simp [ht] at h
  | ok it =>
    cases hts : itemsOf ts with
    | error e => simp [ht, hts, Except.map] at h
    | ok its' => exact ⟨it, its', rfl, rfl, by simpa [ht, hts, Except.map] using h.symm⟩

/-- Tokens that have been read as items hold no semicolon. -/
theorem semi_notMem_of_itemsOf {ts : List Token} {its : List Item} (h : itemsOf ts = .ok its) : .semi ∉ ts := by
  induction ts generalizing its with
  | nil => simp
  | cons t ts ih =>
    obtain ⟨it, its', ht, hts, -⟩ := itemsOf_cons_eq_ok h
    rw [List.mem_cons, not_or]
    refine ⟨?_, ih hts⟩
    rintro rfl
    cases ht

theorem slotItems_ne_nil (i : Instr) : slotItems i ≠ [] := by
  intro h
  have hblk := blkOf_slotItems i
  rw [h] at hblk
  cases hblk

theorem tokensOf_slotPieces_ne_nil (i : Instr) : tokensOf (slotPieces i) ≠ [] := by
  intro h
  have hitems := itemsOf_slotPieces i
  rw [h, itemsOf, Except.ok.injEq] at hitems
  exact slotItems_ne_nil i hitems.symm

theorem slotsOf_slotPieces (i : Instr) (rest : List Token) :
    slotsOf [] (tokensOf (slotPieces i) ++ .semi :: rest) =
      (slotsOf [] rest).map (tokensOf (slotPieces i) :: ·) :=
  slotsOf_append_semi (tokensOf_slotPieces_ne_nil i) (semi_notMem_of_itemsOf (itemsOf_slotPieces i)) rest

theorem tokensOf_append (ps qs : List Piece) : tokensOf (ps ++ qs) = tokensOf ps ++ tokensOf qs := List.filterMap_append

theorem slotsOf_linePieces {line : Line} (h : line ≠ []) :
    slotsOf [] (tokensOf (linePieces line)) = .ok (line.map fun i => tokensOf (slotPieces i)) := by
  induction line using linePieces.induct with
  | case1 => exact absurd rfl h
  | case2 i =>
    rw [linePieces, tokensOf_append]
    exact slotsOf_slotPieces i [.semi]
  | case3 i j is ih =>
    rw [linePieces, List.append_assoc, tokensOf_append]
    refine (slotsOf_slotPieces i (tokensOf (linePieces (j :: is)))).trans ?_
    rw [ih (by simp)]
    rfl

/-! ## The round trip (R85) -/

theorem decodeSlots_slotPieces {line : Line} (h : ∀ i ∈ line, WellFormed i) :
    decodeSlots (line.map fun i => tokensOf (slotPieces i)) = .ok line := by
  induction line with
  | nil => rfl
  | cons i is ih =>
    obtain ⟨hi, his⟩ := List.forall_mem_cons.mp h
    have hwf : i.failedCheck = none := hi
    simp [decodeSlots, decodeSlot_slotPieces, checked, hwf, ih his, Except.map]

theorem map_charOfByte_encodeLine (line : Line) : (encodeLine line).map charOfByte = textOf (linePieces line) := by
  simp [encodeLine, textOf, upper, Function.comp_def]

/-- Settles O56: the line's text is cut into its pieces, the pieces into the slots' tokens, and each slot decodes to
itself. -/
theorem decodeOfEncodedLine : Obligations.DecodeOfEncodedLine := by
  intro line hne hwf
  have hslots : slotTokens ((encodeLine line).map charOfByte) = .ok (line.map fun i => tokensOf (slotPieces i)) := by
    rw [map_charOfByte_encodeLine, slotTokens_textOf (separated_linePieces line), slotsOf_linePieces hne]
  have hdecode := decodeSlots_slotPieces hwf
  rw [decodeLine, hslots]
  cases line with
  | nil => exact absurd rfl hne
  | cons i is => exact hdecode

/-- Settles O55: the canonical text of an instruction is that of a line of one slot. -/
theorem decodeOfEncode : Obligations.DecodeOfEncode :=
  fun i h => decodeOfEncodedLine [i] (by simp) (by simpa using h)

/-! ## Accepted text (R61, R68, R74, R81) -/

theorem wellFormed_of_checked {i j : Instr} (h : checked i = .ok j) : WellFormed j := by
  simp only [checked] at h
  split at h
  · cases h; assumption
  · cases h

theorem wellFormed_of_decodeSlot {ts : List Token} {i : Instr} (h : decodeSlot ts = .ok i) : WellFormed i := by
  simp only [decodeSlot] at h
  split at h
  · cases h
  · split at h
    · cases h
    · split at h
      · cases h
      · exact wellFormed_of_checked h

theorem length_and_wellFormed_of_decodeSlots {slots : List (List Token)} {line : Line} (h : decodeSlots slots = .ok line) :
    line.length = slots.length ∧ ∀ i ∈ line, WellFormed i := by
  induction slots generalizing line with
  | nil => cases h; simp
  | cons ts rest ih =>
    simp only [decodeSlots] at h
    split at h
    · cases h
    · cases hrest : decodeSlots rest with
      | error e => simp [hrest, Except.map] at h
      | ok is =>
        rw [hrest] at h
        cases h
        obtain ⟨hlen, hwf⟩ := ih hrest
        exact ⟨by simp [hlen], List.forall_mem_cons.mpr ⟨wellFormed_of_decodeSlot ‹_›, hwf⟩⟩

/-- Settles O57: a line is decoded slot by slot from at least one slot, and each slot ends in the checks. -/
theorem decodedLinesAreWellFormed : Obligations.DecodedLinesAreWellFormed := by
  intro text line h
  simp only [decodeLine] at h
  split at h
  · cases h
  · cases h
  · obtain ⟨hlen, hwf⟩ := length_and_wellFormed_of_decodeSlots h
    exact ⟨List.ne_nil_of_length_pos (by simp [hlen]), hwf⟩

/-- Settles O58, by running the transcriber on the four texts. -/
theorem sampleTextsDecode : Obligations.SampleTextsDecode := by
  unfold Obligations.SampleTextsDecode
  decide

end Sys2Proof
end

section
/-! PROOFS. The TMAX function and the TMAX/MAX trellis instructions (40_tmax_max.md): the table, the lanes, the results
of the five forms and their frames. -/

namespace Sys2Proof.Machine

/-! ## Table 4-1 and its index (R91, R92) -/

theorem tmaxTab_of_le {t : Nat} (h : 128 ≤ t) : tmaxTab t = 0 := by
  simp (disch := omega) only [tmaxTab, if_neg]

/-- A property of the table's values follows from its value 0 and the 128 values of the seven-bit indices. -/
theorem tmaxTab_induction {P : Int → Prop} (hrows : ∀ t < 128, P (tmaxTab t)) (hzero : P 0) (t : Nat) :
    P (tmaxTab t) := by
  obtain h | h := Nat.lt_or_ge t 128
  · exact hrows t h
  · rwa [tmaxTab_of_le h]

theorem tmaxTab_bounds (t : Nat) : 0 ≤ tmaxTab t ∧ tmaxTab t ≤ 22 :=
  tmaxTab_induction (P := fun v => 0 ≤ v ∧ v ≤ 22) (by decide) (by decide) t

theorem tmaxTab_ne_skipped (t : Nat) : tmaxTab t ≠ 9 ∧ tmaxTab t ≠ 4 ∧ tmaxTab t ≠ 15 :=
  tmaxTab_induction (P := fun v => v ≠ 9 ∧ v ≠ 4 ∧ v ≠ 15) (by decide) (by decide) t

theorem tmaxIndex_of_nonneg {d : Int} (h : 0 ≤ d) : tmaxIndex d = d.toNat := if_pos h

theorem tmaxIndex_of_neg {d : Int} (h : d < 0) : tmaxIndex d = (-d - 1).toNat := if_neg (by omega)

/-- In two's complement `-d - 1` is the bitwise inverse of `d`, at every width. -/
theorem tmaxIndex_toInt {n : Nat} (d : BitVec n) :
    tmaxIndex d.toInt = if d.toInt < 0 then (~~~d).toNat else d.toNat := by
  have hlt := d.isLt
  split_ifs with h
  · have hd : d.toInt = d.toNat - ((2 ^ n : Nat) : Int) := by
      rw [BitVec.toInt_eq_toNat_cond] at h ⊢
      split_ifs at h ⊢
      · omega
      · rfl
    rw [tmaxIndex_of_neg h, hd, BitVec.toNat_not]
    omega
  · have hd : d.toInt = d.toNat := by
      rw [BitVec.toInt_eq_toNat_cond] at h ⊢
      split_ifs at h ⊢
      · rfl
      · omega
    rw [tmaxIndex_of_nonneg (by omega), hd, Int.toNat_natCast]

/-- Settles O10: the rows are the 128 indices of the table, evaluated; beyond them the table is 0. -/
theorem tmaxTableRows : Obligations.TmaxTableRows := by
  unfold Obligations.TmaxTableRows
  exact ⟨by decide, fun t => tmaxTab_of_le, fun n d => tmaxIndex_toInt d, tmaxTab_ne_skipped⟩

/-! ## The function `tmax` (R93) -/

theorem tmax_of_le {a b : Int} (h : b ≤ a) : tmax a b = a + tmaxTab (a - b).toNat := by
  simp only [tmax, corr, compareSub, Config.tmaxSubOrder]
  rw [max_eq_left h, tmaxIndex_of_nonneg (by omega)]

theorem tmax_of_lt {a b : Int} (h : a < b) : tmax a b = b + tmaxTab (b - a - 1).toNat := by
  simp only [tmax, corr, compareSub, Config.tmaxSubOrder]
  rw [max_eq_right h.le, tmaxIndex_of_neg (by omega), neg_sub]

/-- Settles O11, by the sign of the difference. -/
theorem tmaxOfOrderedOperands : Obligations.TmaxOfOrderedOperands := fun _ _ => ⟨tmax_of_le, tmax_of_lt⟩

theorem tmax_bounds (a b : Int) : max a b ≤ tmax a b ∧ tmax a b ≤ max a b + 22 := by
  obtain ⟨hnonneg, hle⟩ := tmaxTab_bounds (tmaxIndex (compareSub Config.tmaxSubOrder a b))
  simp only [tmax, corr]
  omega

theorem tmax_self (a : Int) : tmax a a = a + 22 := by
  rw [tmax_of_le le_rfl, sub_self]
  rfl

theorem tmax_of_abs_gt {a b : Int} (h : 128 < |a - b|) : tmax a b = max a b := by
  obtain hab | hab := le_or_gt b a
  · rw [abs_of_nonneg (by omega)] at h
    rw [tmax_of_le hab, tmaxTab_of_le (by omega), add_zero, max_eq_left hab]
  · rw [abs_of_neg (by omega)] at h
    rw [tmax_of_lt hab, tmaxTab_of_le (by omega), add_zero, max_eq_right hab.le]

/-- Settles O12, by the bounds of the table and its value 0 from index 128 on. -/
theorem tmaxCorrectionBounds : Obligations.TmaxCorrectionBounds := by
  intro a b
  obtain ⟨hmax, hle⟩ := tmax_bounds a b
  exact ⟨hmax, hle, tmax_self a, tmax_of_abs_gt⟩

/-! ## One lane (R94 to R99) -/

theorem laneWidth_pos (short : Bool) : 0 < laneWidth short := by cases short <;> decide

theorem laneWidth_dvd (short : Bool) : laneWidth short ∣ 64 := by cases short <;> decide

/-- The sum of the add forms, or the difference of the subtract forms with the trellis lane the minuend. -/
def addOrSub : Bool → Int → Int → Int
  | true, a, h => a + h
  | false, a, h => a - h

section
variable {n : Nat} {isAdd : Bool} {a h b l p r : BitVec n}

theorem addSubLane_eq : addSubLane isAdd a h = sat n (addOrSub isAdd a.toInt h.toInt) := by cases isAdd <;> rfl

theorem addSubLane_toInt (hn : 0 < n) :
    (addSubLane isAdd a h).1.toInt = Safety.clamp n (addOrSub isAdd a.toInt h.toInt) := by
  rw [addSubLane_eq, sat_toInt n hn, Safety.clamp]

theorem addSubLane_ov : (addSubLane isAdd a h).2 = true ↔ Safety.Overflows n (addOrSub isAdd a.toInt h.toInt) := by
  rw [addSubLane_eq, sat_ov]

/-- The larger of two lanes is one of them, so nothing is lost (R98). -/
theorem selectLane_max_toInt : (selectLane false p r).1.toInt = max p.toInt r.toInt := by
  change (BitVec.ofInt n (max p.toInt r.toInt)).toInt = _
  obtain h | h := max_choice p.toInt r.toInt <;> rw [h, BitVec.ofInt_toInt]

theorem selectLane_tmax_toInt (hn : 0 < n) :
    (selectLane true p r).1.toInt = Safety.clamp n (tmax p.toInt r.toInt) := sat_toInt n hn _

theorem selectLane_tmax_ov : (selectLane true p r).2 = true ↔ Safety.Overflows n (tmax p.toInt r.toInt) := sat_ov n _

theorem trellisLane_tmax_toInt (hn : 0 < n) : (trellisLane true isAdd a h b l).1.toInt =
    Safety.clamp n (tmax (Safety.clamp n (addOrSub isAdd a.toInt h.toInt))
      (Safety.clamp n (addOrSub isAdd b.toInt l.toInt))) := by
  rw [trellisLane, selectLane_tmax_toInt hn, addSubLane_toInt hn, addSubLane_toInt hn]

theorem trellisLane_tmax_ov (hn : 0 < n) : (trellisLane true isAdd a h b l).2 = true ↔
    Safety.Overflows n (addOrSub isAdd a.toInt h.toInt) ∨ Safety.Overflows n (addOrSub isAdd b.toInt l.toInt) ∨
      Safety.Overflows n (tmax (Safety.clamp n (addOrSub isAdd a.toInt h.toInt))
        (Safety.clamp n (addOrSub isAdd b.toInt l.toInt))) := by
  simp only [trellisLane, Bool.or_eq_true, or_assoc, addSubLane_ov, selectLane_tmax_ov, addSubLane_toInt hn]

theorem trellisLane_max_toInt (hn : 0 < n) : (trellisLane false isAdd a h b l).1.toInt =
    max (Safety.clamp n (addOrSub isAdd a.toInt h.toInt)) (Safety.clamp n (addOrSub isAdd b.toInt l.toInt)) := by
  rw [trellisLane, selectLane_max_toInt, addSubLane_toInt hn, addSubLane_toInt hn]

theorem trellisLane_max_ov : (trellisLane false isAdd a h b l).2 = true ↔
    Safety.Overflows n (addOrSub isAdd a.toInt h.toInt) ∨ Safety.Overflows n (addOrSub isAdd b.toInt l.toInt) := by
  simp only [trellisLane, selectLane, Bool.or_false, Bool.or_eq_true, addSubLane_ov, Bool.false_eq_true, if_false]

end

/-! ## The lanes of a result (R8, R94) -/

theorem lane_packLanes_range {n w j : Nat} (f : Nat → BitVec n × Bool) (hj : j < w / n) :
    lane n (packLanes w (((List.range (w / n)).map f).map Prod.fst)) j = (f j).1 := by
  rw [lane_packLanes _ j (by simpa using hj) (by simpa using Nat.mul_div_le w n)]
  simp

theorem any_ov_range (m : Nat) {β : Type} (f : Nat → β × Bool) :
    ((List.range m).map f).any Prod.snd = true ↔ ∃ j < m, (f j).2 = true := by simp

theorem lane_extractLsb' {n w len j : Nat} (v : BitVec w) (start : Nat) (hj : n * j + n ≤ len) :
    lane n (v.extractLsb' start len) j = v.extractLsb' (start + n * j) n := by
  ext k hk
  simp [lane, show n * j + k < len by omega, Nat.add_assoc]

section
variable {short : Bool} {j : Nat} (hj : j < Safety.lanesOfDouble short)
include hj

theorem lane_fits_double : laneWidth short * j + laneWidth short ≤ 64 :=
  calc laneWidth short * j + laneWidth short = laneWidth short * (j + 1) := rfl
    _ ≤ laneWidth short * (64 / laneWidth short) := Nat.mul_le_mul_left _ hj
    _ ≤ 64 := Nat.mul_div_le ..

theorem lane_lowHalf (b : Block) (rq : Nat) :
    (lane (laneWidth short) ((b.readQ .r rq).extractLsb' 0 64) j).toInt = Safety.lowLane short b rq j := by
  rw [lane_extractLsb' _ _ (lane_fits_double hj), Nat.zero_add, Safety.lowLane, lane]

/-- Lane `j` of the upper half is lane `64 / n + j` of the quad, since `n` divides 64. -/
theorem lane_highHalf (b : Block) (rq : Nat) :
    (lane (laneWidth short) ((b.readQ .r rq).extractLsb' 64 64) j).toInt = Safety.highLane short b rq j := by
  rw [lane_extractLsb' _ _ (lane_fits_double hj), Safety.highLane, lane, Nat.mul_add,
    Nat.mul_div_cancel' (laneWidth_dvd short)]

end

/-! ## The add and subtract forms on one block (R95, R96, R98, R99) -/

section
variable (isTmax isAdd short : Bool) (trs trm trn rq : Nat) (b c : Block)

/-- The sum or difference of lane `j` of the first two operands, before saturation. -/
def firstSum (j : Nat) : Int := addOrSub isAdd (Safety.trLane short b trm j) (Safety.highLane short b rq j)

/-- The sum or difference of lane `j` of the second two operands, before saturation. -/
def secondSum (j : Nat) : Int := addOrSub isAdd (Safety.trLane short b trn j) (Safety.lowLane short b rq j)

/-- TMAX of lane `j` of the two clamped sums, before saturation. -/
def tmaxOfSums (j : Nat) : Int :=
  tmax (Safety.clamp (laneWidth short) (firstSum isAdd short trm rq b j))
    (Safety.clamp (laneWidth short) (secondSum isAdd short trn rq b j))

/-- The block after `TMAX_ADD` or `TMAX_SUB`, lane by lane. -/
def TmaxResult : Prop :=
  (∀ j < Safety.lanesOfDouble short,
    Safety.trLane short c trs j = Safety.clamp (laneWidth short) (tmaxOfSums isAdd short trm trn rq b j)) ∧
  Safety.FlagsAre (∃ j < Safety.lanesOfDouble short,
    Safety.Overflows (laneWidth short) (firstSum isAdd short trm rq b j) ∨
    Safety.Overflows (laneWidth short) (secondSum isAdd short trn rq b j) ∨
    Safety.Overflows (laneWidth short) (tmaxOfSums isAdd short trm trn rq b j)) b c

/-- The block after `MAX_ADD` or `MAX_SUB`, lane by lane. -/
def MaxResult : Prop :=
  (∀ j < Safety.lanesOfDouble short, Safety.trLane short c trs j =
    max (Safety.clamp (laneWidth short) (firstSum isAdd short trm rq b j))
      (Safety.clamp (laneWidth short) (secondSum isAdd short trn rq b j))) ∧
  Safety.FlagsAre (∃ j < Safety.lanesOfDouble short,
    Safety.Overflows (laneWidth short) (firstSum isAdd short trm rq b j) ∨
    Safety.Overflows (laneWidth short) (secondSum isAdd short trn rq b j)) b c

/-- Lane `j` of the form's result and its overflow bit. -/
def trellisLaneOf (j : Nat) : BitVec (laneWidth short) × Bool :=
  trellisLane isTmax isAdd (lane _ (b.readD .tr trm) j) (lane _ ((b.readQ .r rq).extractLsb' 64 64) j)
    (lane _ (b.readD .tr trn) j) (lane _ ((b.readQ .r rq).extractLsb' 0 64) j)

variable {isTmax isAdd short trs trm trn rq b}

theorem trellisBlock_trLane (htrs : trs + 1 < RegFile.size .tr) {j : Nat} (hj : j < Safety.lanesOfDouble short) :
    Safety.trLane short (trellisBlock isTmax isAdd short trs trm trn rq b) trs j =
      (trellisLaneOf isTmax isAdd short trm trn rq b j).1.toInt := by
  rw [Safety.trLane, trellisBlock, Block.setFlags_readD, Block.readD_writeD_same _ _ _ _ htrs, trellisLanes,
    lane_packLanes_range _ hj, trellisLaneOf]

theorem trellisBlock_flags {P : Nat → Prop}
    (hP : ∀ j < Safety.lanesOfDouble short, (trellisLaneOf isTmax isAdd short trm trn rq b j).2 = true ↔ P j) :
    Safety.FlagsAre (∃ j < Safety.lanesOfDouble short, P j) b (trellisBlock isTmax isAdd short trs trm trn rq b) where
  trov := (any_ov_range _ _).trans (exists_congr fun j => and_congr_right (hP j))
  trsov := trellisBlock_trsov ..

theorem trellisBlock_tmaxResult (htrs : trs + 1 < RegFile.size .tr) :
    TmaxResult isAdd short trs trm trn rq b (trellisBlock true isAdd short trs trm trn rq b) := by
  refine ⟨fun j hj => ?_, trellisBlock_flags fun j hj => ?_⟩
  · rw [trellisBlock_trLane htrs hj, trellisLaneOf,
      trellisLane_tmax_toInt (laneWidth_pos short), lane_highHalf hj, lane_lowHalf hj]
    rfl
  · rw [trellisLaneOf, trellisLane_tmax_ov (laneWidth_pos short), lane_highHalf hj, lane_lowHalf hj]
    rfl

theorem trellisBlock_maxResult (htrs : trs + 1 < RegFile.size .tr) :
    MaxResult isAdd short trs trm trn rq b (trellisBlock false isAdd short trs trm trn rq b) := by
  refine ⟨fun j hj => ?_, trellisBlock_flags fun j hj => ?_⟩
  · rw [trellisBlock_trLane htrs hj, trellisLaneOf,
      trellisLane_max_toInt (laneWidth_pos short), lane_highHalf hj, lane_lowHalf hj]
    rfl
  · rw [trellisLaneOf, trellisLane_max_ov, lane_highHalf hj, lane_lowHalf hj]
    rfl

end

/-! ## How the forms complete (R181, R182) -/

theorem onlySelected_of_exec {i : Instr} {s t : State} (h : exec i s = .next t) : Safety.OnlySelected i.blk s t := by
  obtain ⟨-, -, rfl⟩ := (exec_eq_next i s t).mp h
  exact ⟨rfl, rfl, fun b hb => by simp [hb]⟩

/-- A well-formed term of an executed form completes; what its effect does to a block, every selected block shows. -/
theorem exec_completes {i : Instr} (h : WellFormed i) (himp : Implemented i = true) (s : State)
    {R : Block → Block → Prop} (hR : ∀ id b, R b (effect i id b)) :
    ∃ t, exec i s = .next t ∧ Safety.OnlySelected i.blk s t ∧
      ∀ b, i.blk.has b = true → R (s.block b) (t.block b) := by
  have ht := (exec_eq_next i s _).mpr ⟨h, himp, rfl⟩
  refine ⟨_, ht, onlySelected_of_exec ht, fun b hb => ?_⟩
  rw [exec_block_selected ht hb]
  exact hR b (s.block b)

/-! ## The results of the five forms (R95 to R99) -/

/-- The four add and subtract forms have the same checks; the upper half of the destination exists too. -/
theorem trellisDestination_exists {trs trm trn rq : Nat}
    (h : Check.Passed (Check.forTrd trs ++ Check.forTrd trm ++ Check.forTrd trn ++ Check.forRq rq)) :
    trs + 1 < RegFile.size .tr := by
  simp only [Check.passed_append, Check.passed_forTrd, Check.passed_forRq] at h
  simp only [RegFile.size]
  omega

/-- Settles O13, by the lanes of the block's effect: the sums, saturated, then TMAX of them. -/
theorem tmaxAddResult : Obligations.TmaxAddResult := fun _ short trs trm trn rq s h =>
  exec_completes h rfl s (R := TmaxResult true short trs trm trn rq)
    fun _ _ => trellisBlock_tmaxResult (trellisDestination_exists h)

/-- Settles O14, as O13 with the differences. -/
theorem tmaxSubResult : Obligations.TmaxSubResult := fun _ short trs trm trn rq s h =>
  exec_completes h rfl s (R := TmaxResult false short trs trm trn rq)
    fun _ _ => trellisBlock_tmaxResult (trellisDestination_exists h)

/-- Settles O16, by the lanes of the block's effect: the larger of two saturated sums needs no saturation. -/
theorem maxAddResult : Obligations.MaxAddResult := fun _ short trs trm trn rq s h =>
  exec_completes h rfl s (R := MaxResult true short trs trm trn rq)
    fun _ _ => trellisBlock_maxResult (trellisDestination_exists h)

/-- Settles O17, as O16 with the differences. -/
theorem maxSubResult : Obligations.MaxSubResult := fun _ short trs trm trn rq s h =>
  exec_completes h rfl s (R := MaxResult false short trs trm trn rq)
    fun _ _ => trellisBlock_maxResult (trellisDestination_exists h)

section
variable (short : Bool) (rs trm trn : Nat) (b c : Block)

/-- TMAX of lane `j` of two trellis registers, before saturation. -/
def tmaxOfLanes (j : Nat) : Int :=
  tmax (lane (laneWidth short) (b.read .tr trm) j).toInt (lane (laneWidth short) (b.read .tr trn) j).toInt

/-- The block after `TMAX_TR`, lane by lane. -/
def TmaxTrLanes : Prop :=
  (∀ j < 32 / laneWidth short, (lane (laneWidth short) (c.read .r rs) j).toInt =
    Safety.clamp (laneWidth short) (tmaxOfLanes short trm trn b j)) ∧
  Safety.FlagsAre (∃ j < 32 / laneWidth short,
    Safety.Overflows (laneWidth short) (tmaxOfLanes short trm trn b j)) b c

variable {short rs trm trn b}

theorem tmaxTrBlock_lanes (hrs : rs < RegFile.size .r) :
    TmaxTrLanes short rs trm trn b (tmaxTrBlock short rs trm trn b) := by
  refine ⟨fun j hj => ?_, ⟨(any_ov_range _ _).trans ?_, tmaxTrBlock_trsov ..⟩⟩
  · rw [tmaxTrBlock, Block.setFlags_read, Block.read_write_same _ _ _ _ hrs, tmaxTrLanes, lane_packLanes_range _ hj,
      selectLane_tmax_toInt (laneWidth_pos short), tmaxOfLanes]
  · simp only [selectLane_tmax_ov, tmaxOfLanes]

end

/-- Settles O15, by the lanes of the block's effect. -/
theorem tmaxTrResult : Obligations.TmaxTrResult := by
  intro blk short rs trm trn s h
  have hrs : rs < RegFile.size .r := by
    simp only [wellFormed_def, Instr.checks, Check.passed_append, Check.passed_forR, Check.passed_forTr] at h
    simp only [RegFile.size]
    omega
  exact exec_completes h rfl s (R := TmaxTrLanes short rs trm trn) fun _ _ => tmaxTrBlock_lanes hrs

/-! ## The frames (R21, R26, R32, R97, R100) -/

@[simp] theorem xcorrsBlock_cmctl (base rq : Nat) (cut : Cut) (clr : Bool) (b : Block) :
    (xcorrsBlock base rq cut clr b).cmctl = b.cmctl := by
  rw [xcorrsBlock, Block.setFlags_cmctl, Block.writeQ_cmctl, Block.writeGroup_cmctl]

@[simp] theorem xcorrsBlock_draws (base rq : Nat) (cut : Cut) (clr : Bool) (b : Block) :
    (xcorrsBlock base rq cut clr b).draws = b.draws := by
  rw [xcorrsBlock, Block.setFlags_draws, Block.writeQ_draws, Block.writeGroup_draws]

@[simp] theorem Block.shiftThrd_cmctl (b : Block) (thrd : Nat) : (b.shiftThrd thrd).cmctl = b.cmctl := by
  simp [Block.shiftThrd]

@[simp] theorem Block.shiftThrd_draws (b : Block) (thrd : Nat) : (b.shiftThrd thrd).draws = b.draws := by
  simp [Block.shiftThrd]

@[simp] theorem despreadMovdBlock_cmctl (rs trs rq thrd : Nat) (b : Block) :
    (despreadMovdBlock rs trs rq thrd b).cmctl = b.cmctl := by
  rw [despreadMovdBlock, Block.setFlags_cmctl, Block.shiftThrd_cmctl, Block.write_cmctl, Block.write_cmctl,
    Block.writeD_cmctl]

@[simp] theorem despreadMovdBlock_draws (rs trs rq thrd : Nat) (b : Block) :
    (despreadMovdBlock rs trs rq thrd b).draws = b.draws := by
  rw [despreadMovdBlock, Block.setFlags_draws, Block.shiftThrd_draws, Block.write_draws, Block.write_draws,
    Block.writeD_draws]

theorem effect_cmctl (i : Instr) (id : BlockId) (b : Block) : (effect i id b).cmctl = b.cmctl := by
  cases i <;> simp [effect, trellisBlock, tmaxTrBlock, despreadAccBlock, despreadMovBlock]

/-- Only a transfer draws a free value (log 8). -/
theorem effect_draws_of_arithmetic {i : Instr} (hk : slotKind i = .trellis ∨ slotKind i = .correlator) (id : BlockId)
    (b : Block) : (effect i id b).draws = b.draws := by
  cases i
  case movThrdRd _ _ _ optI => cases optI <;> simp [slotKind] at hk
  case movRTr | movRdTrd | movRqTrq | movTrR | movTrdRd | movTrqRq | movRThr | movRdThrd | movRqThrq | movThrR |
      movThrqRq | acs | acsMov | permuteD | permuteQ => simp [slotKind] at hk
  case tmaxAdd | tmaxSub | tmaxTr | maxAdd | maxSub => simp [effect, trellisBlock, tmaxTrBlock]
  case despreadAcc | despreadMov | despreadMovd => simp [effect, despreadAccBlock, despreadMovBlock]
  case xcorrs | xcorrsMov => simp [effect]

/-- The frame of an arithmetic slot: the registers that the tables list as written hold all that can change. -/
theorem exec_frame_of_arithmetic {i : Instr} {s t : State} (h : exec i s = .next t)
    (hk : slotKind i = .trellis ∨ slotKind i = .correlator) {written : RegFile → Nat → Prop}
    (hw : ∀ f k, (⟨f, k⟩ : Reg) ∈ writesOf i → written f k) :
    Safety.OnlySelected i.blk s t ∧ ∀ b, (t.block b).draws = (s.block b).draws ∧
      Safety.UnchangedBut written (s.block b) (t.block b) := by
  refine ⟨onlySelected_of_exec h, fun b => ?_⟩
  have hread (f k) (hout : ¬written f k) : (t.block b).read f k = (s.block b).read f k :=
    onlyListedRegistersChange i s t h b f k (mt (hw f k) hout)
  cases hb : i.blk.has b with
  | false =>
    rw [exec_block_unselected h hb]
    exact ⟨rfl, fun _ _ _ => rfl, rfl⟩
  | true =>
    rw [exec_block_selected h hb] at hread ⊢
    exact ⟨effect_draws_of_arithmetic hk b _, hread, effect_cmctl i b _⟩

/-- Settles O18: the four forms write the double `TRd(trs)`. -/
theorem trellisFrame : Obligations.TrellisFrame := by
  intro i blk short trs trm trn rq s t hi h
  have hw (f k) (hmem : (⟨f, k⟩ : Reg) ∈ regRange .tr trs 2) : f = .tr ∧ (k = trs ∨ k = trs + 1) := by
    obtain ⟨hf, hlo, hhi⟩ := (mem_regRange ..).mp hmem
    exact ⟨hf, by omega⟩
  obtain rfl | rfl | rfl | rfl := hi <;> exact exec_frame_of_arithmetic h (.inl rfl) hw

/-- Settles O19: the form writes the one register `R[rs]`. -/
theorem tmaxTrFrame : Obligations.TmaxTrFrame := by
  intro blk short rs trm trn s t h
  refine exec_frame_of_arithmetic h (.inl rfl) fun f k hmem => ?_
  obtain ⟨hf, hlo, hhi⟩ := (mem_regRange .r f rs 1 k).mp hmem
  exact ⟨hf, by omega⟩

end Sys2Proof.Machine
end

section
/-! PROOFS. The ACS instructions (41_acs.md): their meaning is the refusal that names the gap in the source (D17). -/

namespace Sys2Proof.Machine

theorem exec_acs (blk : BlockSel) (short : Bool) (trs trm trn rm : Nat) (tmax : Bool) (s : State) :
    exec (.acs blk short trs trm trn rm tmax) s =
      refuse (.acs blk short trs trm trn rm tmax) .acsNotInSource := rfl

/-- The move half is not executed alone: the whole form is refused (R113). -/
theorem exec_acsMov (blk : BlockSel) (rs tra : Nat) (short : Bool) (trs trm trn rm : Nat) (tmax : Bool) (s : State) :
    exec (.acsMov blk rs tra short trs trm trn rm tmax) s =
      refuse (.acsMov blk rs tra short trs trm trn rm tmax) .acsNotInSource := rfl

/-- Settles O42: a well-formed term fails no check, so the refusal of its meaning is the one given. -/
theorem acsIsRefused : Obligations.AcsIsRefused := by
  intro blk rs tra short trs trm trn rm tmax s
  refine ⟨fun h => ?_, fun h => ?_⟩
  · rw [exec_acs, refuse_of_wellFormed h]
  · rw [exec_acsMov, refuse_of_wellFormed h]

end Sys2Proof.Machine
end

section
/-! PROOFS. The DESPREAD instructions (42_despread.md): the saturated complex word, the bounds of the despread sums, the
post-shift, the results of the three forms, their frame, and the codes that four of them use up. -/

namespace Sys2Proof.Machine

/-! ## The complex word and its saturation (R8, R11, R124) -/

theorem wordRe_append (q i : BitVec 16) : wordRe (q ++ i) = i.toInt :=
  congrArg BitVec.toInt BitVec.extractLsb'_append_eq_right

theorem wordIm_append (q i : BitVec 16) : wordIm (q ++ i) = q.toInt :=
  congrArg BitVec.toInt BitVec.extractLsb'_append_eq_left

theorem wordRe_satComplex (i q : Int) : wordRe (satComplex i q).1 = Safety.clamp 16 i := by
  rw [satComplex, wordRe_append, sat_toInt 16 (by decide), Safety.clamp]

theorem wordIm_satComplex (i q : Int) : wordIm (satComplex i q).1 = Safety.clamp 16 q := by
  rw [satComplex, wordIm_append, sat_toInt 16 (by decide), Safety.clamp]

theorem satComplex_ov (i q : Int) :
    (satComplex i q).2 = true ↔ Safety.Overflows 16 i ∨ Safety.Overflows 16 q := by
  simp only [satComplex, Bool.or_eq_true, sat_ov]

theorem clamp_of_not_overflows {n : Nat} {z : Int} (h : ¬Safety.Overflows n z) : Safety.clamp n z = z := by
  rw [Safety.clamp]
  omega

theorem sat_of_not_overflows {n : Nat} {z : Int} (h : ¬Safety.Overflows n z) : sat n z = (BitVec.ofInt n z, false) := by
  obtain ⟨hmax, hmin⟩ := not_or.mp h
  simp only [sat, satWith, if_neg hmax, if_neg hmin]

theorem toInt_ofInt_of_not_overflows {n : Nat} (hn : 0 < n) {z : Int} (h : ¬Safety.Overflows n z) :
    (BitVec.ofInt n z).toInt = z := by
  have hsat := sat_toInt n hn z
  rwa [sat_of_not_overflows h, ← Safety.clamp, clamp_of_not_overflows h] at hsat

/-! ## The bounds of the terms and their sums (R121, R122, R123, R131, D36) -/

theorem abs_codeBit_mul {w : Nat} (t : BitVec w) (k : Nat) (x : Int) : |codeBit t k * x| = |x| := by
  rw [codeBit]
  split <;> simp

theorem abs_toInt_byte_le (v : BitVec 8) : |v.toInt| ≤ 128 :=
  abs_le.mpr ⟨v.le_toInt, v.toInt_lt.le⟩

/-- Two code bits times two bytes: what both parts of a term are made of. -/
theorem abs_codeBit_mul_add_abs_codeBit_mul_le {w : Nat} (t : BitVec w) (j k : Nat) (u v : BitVec 8) :
    |codeBit t j * u.toInt| + |codeBit t k * v.toInt| ≤ 256 := by
  rw [abs_codeBit_mul, abs_codeBit_mul]
  exact add_le_add (abs_toInt_byte_le u) (abs_toInt_byte_le v)

theorem abs_termRe_le (b : Block) (rq m : Nat) {n : Nat} (codes : BitVec n) (w : Nat) :
    |Safety.termRe b rq m codes w| ≤ 256 :=
  (abs_sub ..).trans (abs_codeBit_mul_add_abs_codeBit_mul_le ..)

theorem abs_termIm_le (b : Block) (rq m : Nat) {n : Nat} (codes : BitVec n) (w : Nat) :
    |Safety.termIm b rq m codes w| ≤ 256 :=
  (abs_add_le ..).trans (abs_codeBit_mul_add_abs_codeBit_mul_le ..)

theorem abs_sum_le_card_mul {f : Nat → Int} {z : Int} (h : ∀ n, |f n| ≤ z) (s : Finset Nat) :
    |∑ n ∈ s, f n| ≤ s.card * z := by
  rw [← nsmul_eq_mul]
  exact (Finset.abs_sum_le_sum_abs f s).trans (Finset.sum_le_card_nsmul s _ z fun n _ => h n)

/-- Eight terms reach 2048 at most, far inside sixteen bits. -/
theorem not_overflows_sum_Ico {f : Nat → Int} (h : ∀ n, |f n| ≤ 256) {lo hi : Nat} (hlen : hi ≤ lo + 8) :
    ¬Safety.Overflows 16 (∑ n ∈ Finset.Ico lo hi, f n) := by
  obtain ⟨hlow, hhigh⟩ := abs_le.mp (abs_sum_le_card_mul h (Finset.Ico lo hi))
  rw [Nat.card_Ico] at hlow hhigh
  rw [Safety.Overflows]
  omega

section
variable (b : Block) (rq thrd : Nat) {lo hi : Nat}

theorem not_overflows_despreadRe (hlen : hi ≤ lo + 8) : ¬Safety.Overflows 16 (Safety.despreadRe b rq thrd lo hi) :=
  not_overflows_sum_Ico (fun _ => abs_termRe_le ..) hlen

theorem not_overflows_despreadIm (hlen : hi ≤ lo + 8) : ¬Safety.Overflows 16 (Safety.despreadIm b rq thrd lo hi) :=
  not_overflows_sum_Ico (fun _ => abs_termIm_le ..) hlen

end

/-! ## The sums as the machine computes them (R123) -/

theorem dsumRe_eq_despreadRe (b : Block) (rq thrd lo hi : Nat) :
    dsumRe (b.readQ .r rq) (b.readD .thr thrd) lo hi = Safety.despreadRe b rq thrd lo (hi + 1) := rfl

theorem dsumIm_eq_despreadIm (b : Block) (rq thrd lo hi : Nat) :
    dsumIm (b.readQ .r rq) (b.readD .thr thrd) lo hi = Safety.despreadIm b rq thrd lo (hi + 1) := rfl

/-! ## The post-shift (R31, R123, R127) -/

theorem toNat_shr16 {w : Nat} (v : BitVec w) : (shr16 v).toNat = v.toNat / 2 ^ 16 := by
  simp [shr16, Config.thrShiftFill, Nat.shiftRight_eq_div_pow]

section
variable (b : Block) {f g : RegFile} (hne : f ≠ g)
include hne

theorem Block.readD_write_file_ne (i j : Nat) (v : Word) : (b.write f i v).readD g j = b.readD g j := by
  rw [Block.readD, Block.read_write_file_ne _ _ _ _ _ _ hne, Block.read_write_file_ne _ _ _ _ _ _ hne, Block.readD]

theorem Block.read_writeD_file_ne (i j : Nat) (v : BitVec 64) : (b.writeD f i v).read g j = b.read g j := by
  rw [Block.writeD, Block.read_write_file_ne _ _ _ _ _ _ hne, Block.read_write_file_ne _ _ _ _ _ _ hne]

theorem Block.readD_writeD_file_ne (i j : Nat) (v : BitVec 64) : (b.writeD f i v).readD g j = b.readD g j := by
  rw [Block.writeD, Block.readD_write_file_ne _ hne, Block.readD_write_file_ne _ hne]

end

theorem Block.shiftThrd_read_r (b : Block) (thrd k : Nat) : (b.shiftThrd thrd).read .r k = b.read .r k :=
  b.read_writeD_file_ne (by decide) ..

theorem Block.shiftThrd_read_tr (b : Block) (thrd k : Nat) : (b.shiftThrd thrd).read .tr k = b.read .tr k :=
  b.read_writeD_file_ne (by decide) ..

/-- Whatever a form has written before the post-shift, if it has left the code double alone. -/
theorem thrdShifted_shiftThrd {b c : Block} {thrd : Nat} (hthrd : thrd + 1 < RegFile.size .thr)
    (hc : c.readD .thr thrd = b.readD .thr thrd) (ov : Bool) :
    Safety.ThrdShifted thrd b ((c.shiftThrd thrd).setFlags ov) := by
  rw [Safety.ThrdShifted, Block.setFlags_readD, Block.shiftThrd, Block.readD_writeD_same _ _ _ _ hthrd, toNat_shr16, hc]

theorem codeDouble_exists {thrd : Nat} {i : Instr} (hi : Safety.DespreadOn thrd i) (h : WellFormed i) :
    thrd + 1 < RegFile.size .thr := by
  have hthrd : Check.Passed (Check.forThrd thrd) := by
    cases hi <;> simp only [wellFormed_def, Instr.checks, Check.passed_append] at h <;> tauto
  rw [Check.passed_forThrd] at hthrd
  simp only [RegFile.size]
  omega

/-- Every form's other destinations are data and trellis registers. -/
theorem effect_thrdShifted {thrd : Nat} {i : Instr} (hi : Safety.DespreadOn thrd i) (h : WellFormed i) (id : BlockId)
    (b : Block) : Safety.ThrdShifted thrd b (effect i id b) := by
  have hthrd := codeDouble_exists hi h
  cases hi with
  | acc blk trs rq trn => exact thrdShifted_shiftThrd hthrd (b.readD_write_file_ne (by decide) ..) _
  | mov blk rs trs rq =>
    refine thrdShifted_shiftThrd hthrd ?_ _
    rw [Block.readD_write_file_ne _ (by decide), Block.readD_write_file_ne _ (by decide)]
  | movd blk rs trs rq =>
    refine thrdShifted_shiftThrd hthrd ?_ _
    rw [Block.readD_write_file_ne _ (by decide), Block.readD_write_file_ne _ (by decide),
      Block.readD_writeD_file_ne _ (by decide)]

/-- A well-formed DESPREAD form completes: a selected block is its effect, with the code double shifted. -/
theorem exec_despreadOn {thrd : Nat} {i : Instr} (hi : Safety.DespreadOn thrd i) (h : WellFormed i) (s : State) :
    ∃ t, exec i s = .next t ∧ Safety.OnlySelected i.blk s t ∧ ∀ b, i.blk.has b = true →
      t.block b = effect i b (s.block b) ∧ Safety.ThrdShifted thrd (s.block b) (t.block b) := by
  have himp : Implemented i = true := by cases hi <;> rfl
  have ht := (exec_eq_next i s _).mpr ⟨h, himp, rfl⟩
  refine ⟨_, ht, onlySelected_of_exec ht, fun b hb => ?_⟩
  rw [exec_block_selected ht hb]
  exact ⟨rfl, effect_thrdShifted hi h b _⟩

/-! ## The accumulating form (R124) -/

section
variable {trs rq thrd trn : Nat} {b : Block}

theorem despreadAccBlock_read_tr (htrs : trs < RegFile.size .tr) :
    (despreadAccBlock trs rq thrd trn b).read .tr trs =
      (satComplex (Safety.despreadRe b rq thrd 0 8 + wordRe (b.read .tr trn))
        (Safety.despreadIm b rq thrd 0 8 + wordIm (b.read .tr trn))).1 := by
  rw [despreadAccBlock, Block.setFlags_read, Block.shiftThrd_read_tr, Block.read_write_same _ _ _ _ htrs,
    dsumRe_eq_despreadRe, dsumIm_eq_despreadIm]

theorem despreadAccBlock_flags :
    Safety.FlagsAre (Safety.Overflows 16 (Safety.despreadRe b rq thrd 0 8 + wordRe (b.read .tr trn)) ∨
      Safety.Overflows 16 (Safety.despreadIm b rq thrd 0 8 + wordIm (b.read .tr trn))) b
      (despreadAccBlock trs rq thrd trn b) where
  trov := satComplex_ov ..
  trsov := despreadAccBlock_trsov ..

end

/-- Settles O26, by the saturated complex word of the sums. -/
theorem despreadAccResult : Obligations.DespreadAccResult := by
  intro blk trs rq thrd trn s h
  have htrs : trs < RegFile.size .tr := by
    simp only [wellFormed_def, Instr.checks, Check.passed_append, Check.passed_forTr] at h
    simp only [RegFile.size]
    omega
  obtain ⟨t, ht, hsel, hblock⟩ := exec_despreadOn (.acc blk trs rq trn) h s
  refine ⟨t, ht, hsel, fun b hb => ?_⟩
  obtain ⟨heq, hthr⟩ := hblock b hb
  rw [effect] at heq
  refine ⟨?_, ?_, hthr, ?_⟩
  · rw [heq, despreadAccBlock_read_tr htrs, wordRe_satComplex]
  · rw [heq, despreadAccBlock_read_tr htrs, wordIm_satComplex]
  · rw [heq]
    exact despreadAccBlock_flags

/-! ## The form with a move (R125) -/

section
variable {rs trs rq thrd : Nat} {b : Block}

theorem despreadMovBlock_read_r (hrs : rs < RegFile.size .r) :
    (despreadMovBlock rs trs rq thrd b).read .r rs = b.read .tr trs := by
  rw [despreadMovBlock, Block.setFlags_read, Block.shiftThrd_read_r, Block.read_write_file_ne _ _ _ _ _ _ (by decide),
    Block.read_write_same _ _ _ _ hrs]

theorem despreadMovBlock_read_tr (htrs : trs < RegFile.size .tr) :
    (despreadMovBlock rs trs rq thrd b).read .tr trs =
      (satComplex (Safety.despreadRe b rq thrd 0 8) (Safety.despreadIm b rq thrd 0 8)).1 := by
  rw [despreadMovBlock, Block.setFlags_read, Block.shiftThrd_read_tr, Block.read_write_same _ _ _ _ htrs,
    dsumRe_eq_despreadRe, dsumIm_eq_despreadIm]

theorem despreadMovBlock_trov : (despreadMovBlock rs trs rq thrd b).trov = false := by
  rw [despreadMovBlock, Block.setFlags_trov, dsumRe_eq_despreadRe, dsumIm_eq_despreadIm, ← Bool.not_eq_true,
    satComplex_ov]
  exact not_or.mpr ⟨not_overflows_despreadRe b rq thrd (by decide), not_overflows_despreadIm b rq thrd (by decide)⟩

theorem despreadMovBlock_trsov_eq : (despreadMovBlock rs trs rq thrd b).trsov = b.trsov := by
  rw [despreadMovBlock_trsov, despreadMovBlock_trov, Bool.or_false]

end

/-- Settles O27: eight terms fit sixteen bits, so saturation changes neither part. -/
theorem despreadMovResult : Obligations.DespreadMovResult := by
  intro blk rs trs rq thrd s h
  have hdest : rs < RegFile.size .r ∧ trs < RegFile.size .tr := by
    simp only [wellFormed_def, Instr.checks, Check.passed_append, Check.passed_forR, Check.passed_forTr] at h
    simp only [RegFile.size]
    omega
  obtain ⟨hrs, htrs⟩ := hdest
  obtain ⟨t, ht, hsel, hblock⟩ := exec_despreadOn (.mov blk rs trs rq) h s
  refine ⟨t, ht, hsel, fun b hb => ?_⟩
  obtain ⟨heq, hthr⟩ := hblock b hb
  rw [effect] at heq
  refine ⟨?_, ?_, ?_, hthr, ?_, ?_⟩
  · rw [heq, despreadMovBlock_read_r hrs]
  · rw [heq, despreadMovBlock_read_tr htrs, wordRe_satComplex,
      clamp_of_not_overflows (not_overflows_despreadRe _ _ _ (by decide))]
  · rw [heq, despreadMovBlock_read_tr htrs, wordIm_satComplex,
      clamp_of_not_overflows (not_overflows_despreadIm _ _ _ (by decide))]
  · rw [heq, despreadMovBlock_trov]
  · rw [heq, despreadMovBlock_trsov_eq]

/-! ## The form with a double move (R126) -/

/-- A double copied between files is copied register by register. -/
theorem Block.read_writeD_readD (b c : Block) {f g : RegFile} {i j k : Nat} (hi : i + 1 < f.size) (hk : k < 2) :
    (b.writeD f i (c.readD g j)).read f (i + k) = c.read g (j + k) := by
  rw [Block.read_writeD _ _ _ _ _ _ hi, Block.readD]
  obtain rfl | rfl : k = 0 ∨ k = 1 := by omega
  · simpa using BitVec.extractLsb'_append_eq_right
  · simpa using BitVec.extractLsb'_append_eq_left

/-- The complex word of the despread sum over samples `lo .. hi - 1`, not saturated. -/
def despreadWord (b : Block) (rq thrd lo hi : Nat) : Word :=
  BitVec.ofInt 16 (Safety.despreadIm b rq thrd lo hi) ++ BitVec.ofInt 16 (Safety.despreadRe b rq thrd lo hi)

section
variable {rs trs rq thrd lo hi j : Nat} {b : Block}

theorem wordRe_despreadWord (hlen : hi ≤ lo + 8) :
    wordRe (despreadWord b rq thrd lo hi) = Safety.despreadRe b rq thrd lo hi := by
  rw [despreadWord, wordRe_append,
    toInt_ofInt_of_not_overflows (by decide) (not_overflows_despreadRe b rq thrd hlen)]

theorem wordIm_despreadWord (hlen : hi ≤ lo + 8) :
    wordIm (despreadWord b rq thrd lo hi) = Safety.despreadIm b rq thrd lo hi := by
  rw [despreadWord, wordIm_append,
    toInt_ofInt_of_not_overflows (by decide) (not_overflows_despreadIm b rq thrd hlen)]

theorem despreadMovdBlock_read_r (hrs : rs + 1 < RegFile.size .r) (hj : j < 2) :
    (despreadMovdBlock rs trs rq thrd b).read .r (rs + j) = b.read .tr (trs + j) := by
  rw [despreadMovdBlock, Block.setFlags_read, Block.shiftThrd_read_r, Block.read_write_file_ne _ _ _ _ _ _ (by decide),
    Block.read_write_file_ne _ _ _ _ _ _ (by decide), Block.read_writeD_readD _ _ hrs hj]

theorem despreadMovdBlock_read_tr (htrs : trs + 1 < RegFile.size .tr) (hj : j < 2) :
    (despreadMovdBlock rs trs rq thrd b).read .tr (trs + j) = despreadWord b rq thrd (4 * j) (4 * j + 4) := by
  rw [despreadMovdBlock, Block.setFlags_read, Block.shiftThrd_read_tr]
  obtain rfl | rfl : j = 0 ∨ j = 1 := by omega
  · rw [Block.read_write_idx_ne _ _ _ _ _ _ (by omega)]
    exact Block.read_write_same _ _ _ _ (by omega)
  · exact Block.read_write_same _ _ _ _ htrs

theorem despreadMovdBlock_trsov_eq : (despreadMovdBlock rs trs rq thrd b).trsov = b.trsov := by
  rw [despreadMovdBlock_trsov, despreadMovdBlock, Block.setFlags_trov, Bool.or_false]

end

/-- Settles O28: four terms fit sixteen bits, so each half sum is its register's value. -/
theorem despreadMovdResult : Obligations.DespreadMovdResult := by
  intro blk rs trs rq thrd s h
  have hdest : rs + 1 < RegFile.size .r ∧ trs + 1 < RegFile.size .tr := by
    simp only [wellFormed_def, Instr.checks, Check.passed_append, Check.passed_forRd, Check.passed_forTrd] at h
    simp only [RegFile.size]
    omega
  obtain ⟨hrs, htrs⟩ := hdest
  obtain ⟨t, ht, hsel, hblock⟩ := exec_despreadOn (.movd blk rs trs rq) h s
  refine ⟨t, ht, hsel, fun b hb => ?_⟩
  obtain ⟨heq, hthr⟩ := hblock b hb
  rw [effect] at heq
  refine ⟨fun j hj => ?_, fun j hj => ⟨?_, ?_⟩, hthr, ?_, ?_⟩
  · rw [heq, despreadMovdBlock_read_r hrs hj]
  · rw [heq, despreadMovdBlock_read_tr htrs hj, wordRe_despreadWord (by omega)]
  · rw [heq, despreadMovdBlock_read_tr htrs hj, wordIm_despreadWord (by omega)]
  · rw [heq, despreadMovdBlock, Block.setFlags_trov]
  · rw [heq, despreadMovdBlock_trsov_eq]

/-! ## The frame (R128) -/

theorem mem_regRange_one (f g : RegFile) (i j : Nat) : (⟨g, j⟩ : Reg) ∈ regRange f i 1 ↔ g = f ∧ j = i := by
  rw [mem_regRange]
  exact and_congr_right fun _ => by omega

theorem mem_regRange_two (f g : RegFile) (i j : Nat) :
    (⟨g, j⟩ : Reg) ∈ regRange f i 2 ↔ g = f ∧ (j = i ∨ j = i + 1) := by
  rw [mem_regRange]
  exact and_congr_right fun _ => by omega

/-- Settles O29: the registers the tables list for the three forms are the named destinations and the code double. -/
theorem despreadFrame : Obligations.DespreadFrame := by
  intro blk rs trs rq thrd trn s t
  refine ⟨fun h => ?_, fun h => ?_, fun h => ?_⟩
  all_goals
    refine exec_frame_of_arithmetic h (.inr rfl) fun f k hmem => ?_
    simpa only [writesOf, resultsOf, shiftedOf, List.mem_append, mem_regRange_one, mem_regRange_two, or_assoc] using hmem

/-! ## Four forms on one code double (R127, D11, log 9) -/

/-- Settles O30: four shifts by sixteen places leave nothing of the 64 bits. -/
theorem fourDespreadsExhaustCodes : Obligations.FourDespreadsExhaustCodes := by
  intro thrd i1 i2 i3 i4 s hforms
  simp only [List.forall_mem_cons] at hforms ⊢
  obtain ⟨⟨on1, wf1⟩, ⟨on2, wf2⟩, ⟨on3, wf3⟩, ⟨on4, wf4⟩, -⟩ := hforms
  obtain ⟨s1, hs1, -, hblock1⟩ := exec_despreadOn on1 wf1 s
  obtain ⟨s2, hs2, -, hblock2⟩ := exec_despreadOn on2 wf2 s1
  obtain ⟨s3, hs3, -, hblock3⟩ := exec_despreadOn on3 wf3 s2
  obtain ⟨s4, hs4, -, hblock4⟩ := exec_despreadOn on4 wf4 s3
  refine ⟨s1, s2, s3, s4, hs1, hs2, hs3, hs4, fun b ⟨hb1, hb2, hb3, hb4, _⟩ => BitVec.eq_of_toNat_eq ?_⟩
  obtain ⟨-, shift1⟩ := hblock1 b hb1
  obtain ⟨-, shift2⟩ := hblock2 b hb2
  obtain ⟨-, shift3⟩ := hblock3 b hb3
  obtain ⟨-, shift4⟩ := hblock4 b hb4
  rw [shift4, shift3, shift2, shift1, Nat.div_div_eq_div_mul, Nat.div_div_eq_div_mul, Nat.div_div_eq_div_mul]
  exact Nat.div_eq_of_lt (BitVec.isLt _)

end Sys2Proof.Machine
end

section
/-! PROOFS. The XCORRS instructions (43_xcorrs.md): quads and complex words, the CUT function and the sums it keeps, the
result of both forms and their frame, the codes they read and shift, and the accumulators that start from zero. -/

namespace Sys2Proof.Machine

/-! ## Complex words (R8) -/

theorem append_shorts (w : Word) : w.extractLsb' 16 16 ++ w.extractLsb' 0 16 = w :=
  (BitVec.extractLsb'_append_extractLsb'_eq_extractLsb' rfl).trans BitVec.extractLsb'_eq_self

theorem word_ext {v w : Word} (hre : wordRe v = wordRe w) (him : wordIm v = wordIm w) : v = w := by
  rw [← append_shorts v, ← append_shorts w, BitVec.eq_of_toInt_eq hre, BitVec.eq_of_toInt_eq him]

/-! ## Quads beside other files and copied between them (R9) -/

section
variable (b : Block) {f g : RegFile} (hne : f ≠ g)
include hne

theorem Block.read_writeQ_file_ne (i j : Nat) (v : BitVec 128) : (b.writeQ f i v).read g j = b.read g j := by
  rw [Block.writeQ, Block.read_writeD_file_ne _ hne, Block.read_writeD_file_ne _ hne]

theorem Block.readQ_writeQ_file_ne (i j : Nat) (v : BitVec 128) : (b.writeQ f i v).readQ g j = b.readQ g j := by
  simp only [Block.readQ, Block.readD, Block.read_writeQ_file_ne b hne]

end

theorem Block.writeQ_readQ (b c : Block) (f g : RegFile) (i j : Nat) :
    b.writeQ f i (c.readQ g j) = (b.writeD f i (c.readD g j)).writeD f (i + 2) (c.readD g (j + 2)) := by
  rw [Block.writeQ, Block.readQ, BitVec.extractLsb'_append_eq_left, BitVec.extractLsb'_append_eq_right]

/-- A quad copied between files is copied register by register. -/
theorem Block.read_writeQ_readQ (b c : Block) {f g : RegFile} {i j k : Nat} (hi : i + 3 < f.size) (hk : k < 4) :
    (b.writeQ f i (c.readQ g j)).read f (i + k) = c.read g (j + k) := by
  rw [Block.writeQ_readQ]
  obtain hlow | hhigh := Nat.lt_or_ge k 2
  · rw [Block.read_writeD_of_notMem (by rw [mem_regRange]; omega), Block.read_writeD_readD _ _ (by omega) hlow]
  · obtain ⟨m, rfl⟩ := Nat.exists_eq_add_of_le hhigh
    rw [← Nat.add_assoc, ← Nat.add_assoc, Block.read_writeD_readD _ _ (by omega) (by omega)]

/-! ## The CUT function (R133) -/

theorem fCut_zero (w : Nat) : fCut 0 w = true := rfl

theorem fCut_of_pos {cut : Int} (h : 0 < cut) (w : Nat) : fCut cut w = true ↔ (w : Int) < cut := by
  rw [fCut, if_neg h.ne', if_pos h, decide_eq_true_iff]

theorem fCut_of_neg {cut : Int} (h : cut < 0) (w : Nat) : fCut cut w = true ↔ -cut ≤ (w : Int) := by
  rw [fCut, if_neg h.ne, if_neg h.not_gt, decide_eq_true_iff]

/-- Settles O34, by the sign of the CUT value. -/
theorem cutFunctionCases : Obligations.CutFunctionCases :=
  fun _ w => ⟨fun h => h ▸ fCut_zero w, fun h => fCut_of_pos h w, fun h => fCut_of_neg h w⟩

theorem fCut_neg_of_pos {c : Int} (h : 0 < c) (w : Nat) : fCut (-c) w = !fCut c w := by
  rw [Bool.eq_not_iff, ne_eq, Bool.eq_iff_iff, fCut_of_pos h, fCut_of_neg (neg_neg_of_pos h)]
  omega

/-- Opposite CUT values keep complementary indices. -/
theorem fCut_neg {c : Int} (h : c ≠ 0) (w : Nat) : fCut (-c) w = !fCut c w := by
  obtain hneg | hpos := lt_or_gt_of_ne h
  · rw [← Bool.not_not (fCut (-c) w), ← fCut_neg_of_pos (neg_pos_of_neg hneg), neg_neg]
  · exact fCut_neg_of_pos hpos w

/-! ## The sum over the samples that the CUT value keeps (R131, R133) -/

/-- The sum over the samples `m` whose code index at delay `k` the CUT value keeps. -/
def keptSum (cut : Int) (k : Nat) (f : Nat → Int) : Int :=
  ∑ m ∈ Finset.range 8, if fCut cut (m + 15 - k) then f m else 0

theorem sum_map_keptSamples (cut : Int) (k : Nat) (f : Nat → Int) :
    ((keptSamples cut k).map f).sum = keptSum cut k f := by
  have hkept : keptSamples cut k = (List.range 8).filter fun m => decide (fCut cut (m + 15 - k) = true) := by
    simp only [keptSamples, Bool.decide_eq_true]
  rw [hkept, keptSum, ← Finset.sum_filter]
  rfl

theorem keptSum_congr {cut : Int} {k : Nat} {f g : Nat → Int}
    (h : ∀ m, fCut cut (m + 15 - k) = true → f m = g m) : keptSum cut k f = keptSum cut k g :=
  Finset.sum_congr rfl fun m _ => ite_congr rfl (h m) fun _ => rfl

theorem keptSum_zero (k : Nat) (f : Nat → Int) : keptSum 0 k f = ∑ m ∈ Finset.range 8, f m := rfl

theorem keptSum_add_keptSum_neg {c : Int} (h : c ≠ 0) (k : Nat) (f : Nat → Int) :
    keptSum c k f + keptSum (-c) k f = keptSum 0 k f := by
  rw [keptSum_zero, keptSum, keptSum, ← Finset.sum_add_distrib]
  refine Finset.sum_congr rfl fun m _ => ?_
  rw [fCut_neg h]
  cases fCut c (m + 15 - k) <;> simp

/-- Eight terms, cut or not, stay far inside sixteen bits. -/
theorem not_overflows_keptSum {f : Nat → Int} (h : ∀ m, |f m| ≤ 256) (cut : Int) (k : Nat) :
    ¬Safety.Overflows 16 (keptSum cut k f) := by
  rw [keptSum, Finset.range_eq_Ico]
  refine not_overflows_sum_Ico (fun m => ?_) le_rfl
  split
  · exact h m
  · decide

/-! ## The sums of a delay (R131, R136, R138) -/

section
variable (base rq : Nat) (cut : Int) (clr : Bool) (b : Block) (k : Nat)

theorem delayRe_eq_keptSum : Safety.delayRe base rq cut clr b k =
    (if clr then 0 else wordRe (b.read .tr (base + k))) +
      keptSum cut k fun m => Safety.termRe b rq m (b.readQ .thr 0) (m + 15 - k) := rfl

theorem delayIm_eq_keptSum : Safety.delayIm base rq cut clr b k =
    (if clr then 0 else wordIm (b.read .tr (base + k))) +
      keptSum cut k fun m => Safety.termIm b rq m (b.readQ .thr 0) (m + 15 - k) := rfl

theorem delayRe_clear : Safety.delayRe base rq cut true b k =
    keptSum cut k fun m => Safety.termRe b rq m (b.readQ .thr 0) (m + 15 - k) := zero_add _

theorem delayIm_clear : Safety.delayIm base rq cut true b k =
    keptSum cut k fun m => Safety.termIm b rq m (b.readQ .thr 0) (m + 15 - k) := zero_add _

theorem xcorrsDelay_eq_satComplex :
    xcorrsDelay (b.readQ .r rq) (b.readQ .thr 0) cut clr (b.read .tr (base + k)) k =
      satComplex (Safety.delayRe base rq cut clr b k) (Safety.delayIm base rq cut clr b k) := by
  rw [xcorrsDelay, delayRe, delayIm, sum_map_keptSamples, sum_map_keptSamples]
  rfl

end

/-- Settles O41: every term of the uncut sum is in exactly one of the two. -/
theorem oppositeCutsAreComplementary : Obligations.OppositeCutsAreComplementary := by
  intro base rq c b k h
  simp only [delayRe_clear, delayIm_clear]
  exact ⟨keptSum_add_keptSum_neg h k _, keptSum_add_keptSum_neg h k _⟩

/-! ## The result on one block (R138, R139) -/

theorem thrqShifted_iff (b c : Block) : Safety.ThrqShifted b c ↔ c.readQ .thr 0 = shr16 (b.readQ .thr 0) := by
  rw [Safety.ThrqShifted, BitVec.toNat_eq, toNat_shr16]

section
variable {base rq : Nat} {cut : Cut} {clr : Bool} {b : Block}

theorem xcorrsOut_eq_map : xcorrsOut base rq cut clr b = (List.range 16).map fun k =>
    satComplex (Safety.delayRe base rq (cutValue b cut) clr b k) (Safety.delayIm base rq (cutValue b cut) clr b k) := by
  simp only [xcorrsOut, xcorrsDelay_eq_satComplex]

theorem xcorrsBlock_read_tr (hbase : base + 16 ≤ RegFile.size .tr) {k : Nat} (hk : k < 16) :
    (xcorrsBlock base rq cut clr b).read .tr (base + k) =
      (satComplex (Safety.delayRe base rq (cutValue b cut) clr b k)
        (Safety.delayIm base rq (cutValue b cut) clr b k)).1 := by
  rw [xcorrsBlock, Block.setFlags_read, Block.read_writeQ_file_ne _ (by decide),
    Block.read_writeGroup _ _ _ _ _ _ (by simpa using hbase)]
  simp [xcorrsOut_eq_map, hk]

theorem xcorrsBlock_readQ_thr : (xcorrsBlock base rq cut clr b).readQ .thr 0 = shr16 (b.readQ .thr 0) := by
  rw [xcorrsBlock, Block.setFlags_readQ, Block.readQ_writeQ_same _ _ _ _ (by decide)]

theorem xcorrsBlock_trov : (xcorrsBlock base rq cut clr b).trov = true ↔ ∃ k < 16,
    Safety.Overflows 16 (Safety.delayRe base rq (cutValue b cut) clr b k) ∨
      Safety.Overflows 16 (Safety.delayIm base rq (cutValue b cut) clr b k) := by
  simp only [xcorrsBlock, Block.setFlags_trov, xcorrsOut_eq_map, any_ov_range, satComplex_ov]

theorem xcorrsBlock_result (hbase : base + 16 ≤ RegFile.size .tr) :
    Safety.XcorrsResult base rq (cutValue b cut) clr b (xcorrsBlock base rq cut clr b) where
  re k hk := by rw [xcorrsBlock_read_tr hbase hk, wordRe_satComplex]
  im k hk := by rw [xcorrsBlock_read_tr hbase hk, wordIm_satComplex]
  thr := (thrqShifted_iff ..).mpr xcorrsBlock_readQ_thr
  flags := ⟨xcorrsBlock_trov, xcorrsBlock_trsov ..⟩

end

/-- The move half writes data registers, which the result does not speak of. -/
theorem xcorrsResult_writeQ_r {base rq : Nat} {cut : Int} {clr : Bool} {b c : Block}
    (h : Safety.XcorrsResult base rq cut clr b c) (rs : Nat) (v : BitVec 128) :
    Safety.XcorrsResult base rq cut clr b (c.writeQ .r rs v) where
  re k hk := by rw [Block.read_writeQ_file_ne _ (by decide), h.re k hk]
  im k hk := by rw [Block.read_writeQ_file_ne _ (by decide), h.im k hk]
  thr := by
    rw [thrqShifted_iff, Block.readQ_writeQ_file_ne _ (by decide), ← thrqShifted_iff]
    exact h.thr
  flags := ⟨by rw [Block.writeQ_trov, h.flags.trov], by rw [Block.writeQ_trsov, Block.writeQ_trov, h.flags.trsov]⟩

/-! ## How the two forms complete (R138, R139) -/

/-- An XCORRS form without `(EXT)`, with or without the move half. -/
inductive XcorrsOn (blk : BlockSel) (base rq : Nat) (cut : Cut) (clr : Bool) : Instr → Prop
  | single : XcorrsOn blk base rq cut clr (.xcorrs blk base rq cut clr false)
  | dual (rs trb : Nat) : XcorrsOn blk base rq cut clr (.xcorrsMov blk rs trb base rq cut clr false)

section
variable {blk : BlockSel} {base rq : Nat} {cut : Cut} {clr : Bool} {i : Instr}

theorem xcorrsOn_of_eq {rs trb : Nat}
    (h : i = .xcorrs blk base rq cut clr false ∨ i = .xcorrsMov blk rs trb base rq cut clr false) :
    XcorrsOn blk base rq cut clr i := by
  obtain rfl | rfl := h
  · exact .single
  · exact .dual rs trb

theorem accumulators_exist (hi : XcorrsOn blk base rq cut clr i) (h : WellFormed i) :
    base + 16 ≤ RegFile.size .tr := by
  have hbase : Check.Passed (Check.forTra base) := by
    cases hi <;> simp only [wellFormed_def, Instr.checks, Check.passed_append] at h <;> tauto
  rw [Check.passed_forTra] at hbase
  simp only [RegFile.size]
  omega

theorem effect_xcorrsResult (hi : XcorrsOn blk base rq cut clr i) (h : WellFormed i) (id : BlockId) (b : Block) :
    Safety.XcorrsResult base rq (cutValue b cut) clr b (effect i id b) := by
  have hres := xcorrsBlock_result (rq := rq) (cut := cut) (clr := clr) (b := b) (accumulators_exist hi h)
  cases hi with
  | single => exact hres
  | dual rs trb => exact xcorrsResult_writeQ_r hres rs (b.readQ .tr trb)

/-- A well-formed XCORRS form completes: a selected block is its effect, with the result of R138. -/
theorem exec_xcorrsOn (hi : XcorrsOn blk base rq cut clr i) (h : WellFormed i) (s : State) :
    ∃ t, exec i s = .next t ∧ Safety.OnlySelected blk s t ∧ ∀ b, blk.has b = true →
      t.block b = effect i b (s.block b) ∧
        Safety.XcorrsResult base rq (cutValue (s.block b) cut) clr (s.block b) (t.block b) := by
  have hform : Implemented i = true ∧ i.blk = blk := by cases hi <;> exact ⟨rfl, rfl⟩
  obtain ⟨himp, rfl⟩ := hform
  have ht := (exec_eq_next i s _).mpr ⟨h, himp, rfl⟩
  refine ⟨_, ht, onlySelected_of_exec ht, fun b hb => ?_⟩
  rw [exec_block_selected ht hb]
  exact ⟨rfl, effect_xcorrsResult hi h b _⟩

end

/-- Settles O31, by the result of the block's effect. -/
theorem xcorrsAccumulates : Obligations.XcorrsAccumulates := by
  intro blk base rq cut clr s h
  obtain ⟨t, ht, hsel, hblock⟩ := exec_xcorrsOn .single h s
  exact ⟨t, ht, hsel, fun b hb => (hblock b hb).2⟩

theorem moveDestination_exists {blk : BlockSel} {rs trb base rq : Nat} {cut : Cut} {clr ext : Bool}
    (h : WellFormed (.xcorrsMov blk rs trb base rq cut clr ext)) : rs + 3 < RegFile.size .r := by
  simp only [wellFormed_def, Instr.checks, Check.passed_append, Check.passed_forRq] at h
  simp only [RegFile.size]
  omega

/-- Settles O32: the move half copies the old quad, and the rest is XCORRS. -/
theorem xcorrsMovAccumulates : Obligations.XcorrsMovAccumulates := by
  intro blk rs trb base rq cut clr s h
  obtain ⟨t, ht, hsel, hblock⟩ := exec_xcorrsOn (.dual rs trb) h s
  refine ⟨t, ht, hsel, fun b hb => ?_⟩
  obtain ⟨heq, hres⟩ := hblock b hb
  refine ⟨fun j hj => ?_, hres⟩
  rw [heq, effect, Block.read_writeQ_readQ _ _ (moveDestination_exists h) hj]

/-- Settles O59: each case of the option is its case of `cutValue`. -/
theorem cutOptionGivesValue : Obligations.CutOptionGivesValue := by
  intro blk rs trb base rq cut clr s b hb c
  have hc : c = cutValue (s.block b) cut := by cases cut <;> rfl
  rw [hc]
  refine ⟨fun h => ?_, fun h => ?_⟩
  · obtain ⟨t, ht, -, hblock⟩ := exec_xcorrsOn .single h s
    exact ⟨t, ht, (hblock b hb).2⟩
  · obtain ⟨t, ht, -, hblock⟩ := exec_xcorrsOn (.dual rs trb) h s
    exact ⟨t, ht, (hblock b hb).2⟩

/-- Settles O33: the registers the tables list for the two forms are the accumulators, THR and `Rq(rs)`. -/
theorem xcorrsFrame : Obligations.XcorrsFrame := by
  intro blk rs trb base rq cut clr s t
  refine ⟨fun h => ?_, fun h => ?_⟩
  all_goals
    refine exec_frame_of_arithmetic h (.inr rfl) fun f k hmem => ?_
    simp only [writesOf, resultsOf, shiftedOf, List.mem_append, mem_regRange] at hmem
    tauto

/-! ## The code window (R132, R138) -/

theorem codeBit_shr16 {w : Nat} (v : BitVec w) (k : Nat) : codeBit (shr16 v) k = codeBit v (16 + k) := by
  rw [codeBit, codeBit, getLsbD_shr16]

theorem codeRe_shr16 {n : Nat} (v : BitVec n) (w : Nat) : codeRe (shr16 v) w = codeRe v (w + 8) := by
  rw [codeRe, codeBit_shr16, codeRe, show 16 + 2 * w = 2 * (w + 8) by ring]

theorem codeIm_shr16 {n : Nat} (v : BitVec n) (w : Nat) : codeIm (shr16 v) w = codeIm v (w + 8) := by
  rw [codeIm, codeBit_shr16, codeIm, show 16 + (2 * w + 1) = 2 * (w + 8) + 1 by ring]

/-- Settles O40: a shift of sixteen bits is one of eight codes. -/
theorem codeWindowAdvances : Obligations.CodeWindowAdvances := by
  intro i blk rs trb base rq cut clr s hi h
  obtain ⟨t, ht, -, hblock⟩ := exec_xcorrsOn (xcorrsOn_of_eq hi) h s
  refine ⟨t, ht, fun b hb w _ => ?_⟩
  obtain ⟨-, hres⟩ := hblock b hb
  rw [(thrqShifted_iff ..).mp hres.thr]
  exact ⟨codeRe_shr16 _ w, codeIm_shr16 _ w⟩

/-! ## Equal codes and equal sums (R131, R133) -/

/-- Where the sums of a delay are equal, so are its new accumulators. -/
theorem xcorrsResult_read_eq {base rq k : Nat} {cut : Int} {clr : Bool} {b b' c c' : Block} (hk : k < 16)
    (h : Safety.XcorrsResult base rq cut clr b c) (h' : Safety.XcorrsResult base rq cut clr b' c')
    (hre : Safety.delayRe base rq cut clr b k = Safety.delayRe base rq cut clr b' k)
    (him : Safety.delayIm base rq cut clr b k = Safety.delayIm base rq cut clr b' k) :
    c.read .tr (base + k) = c'.read .tr (base + k) :=
  word_ext (by rw [h.re k hk, h'.re k hk, hre]) (by rw [h.im k hk, h'.im k hk, him])

/-- Code `w` of the THR quad is the same in the two blocks. -/
structure SameCode (b c : Block) (w : Nat) : Prop where
  re : codeRe (b.readQ .thr 0) w = codeRe (c.readQ .thr 0) w
  im : codeIm (b.readQ .thr 0) w = codeIm (c.readQ .thr 0) w

section
variable {b c : Block}

theorem sameCode_of_bits {w : Nat}
    (hre : (b.readQ .thr 0).getLsbD (2 * w) = (c.readQ .thr 0).getLsbD (2 * w))
    (him : (b.readQ .thr 0).getLsbD (2 * w + 1) = (c.readQ .thr 0).getLsbD (2 * w + 1)) : SameCode b c w where
  re := by rw [codeRe, codeRe, codeBit, codeBit, hre]
  im := by rw [codeIm, codeIm, codeBit, codeBit, him]

section
variable {base rq : Nat} {cut : Int} {clr : Bool} {k : Nat} (hd : b.readQ .r rq = c.readQ .r rq)
  (hold : b.read .tr (base + k) = c.read .tr (base + k)) (hcodes : ∀ w, fCut cut w = true → SameCode b c w)
include hd hold hcodes

theorem delayRe_congr : Safety.delayRe base rq cut clr b k = Safety.delayRe base rq cut clr c k := by
  rw [delayRe_eq_keptSum, delayRe_eq_keptSum, hold, add_right_inj]
  refine keptSum_congr fun m hm => ?_
  rw [Safety.termRe, Safety.termRe, hd, (hcodes _ hm).re, (hcodes _ hm).im]

theorem delayIm_congr : Safety.delayIm base rq cut clr b k = Safety.delayIm base rq cut clr c k := by
  rw [delayIm_eq_keptSum, delayIm_eq_keptSum, hold, add_right_inj]
  refine keptSum_congr fun m hm => ?_
  rw [Safety.termIm, Safety.termIm, hd, (hcodes _ hm).re, (hcodes _ hm).im]

end

/-- The bits on the kept side of `2 * k` hold the kept codes. -/
theorem sameCode_of_kept {k : Nat} {cut : Cut} (hk : 0 < k)
    (h : cut = .imm k ∧ (∀ n < 2 * k, (b.readQ .thr 0).getLsbD n = (c.readQ .thr 0).getLsbD n) ∨
      cut = .imm (-k) ∧ ∀ n, 2 * k ≤ n → (b.readQ .thr 0).getLsbD n = (c.readQ .thr 0).getLsbD n)
    (w : Nat) (hw : fCut (cutValue b cut) w = true) : SameCode b c w := by
  obtain ⟨rfl, hbits⟩ | ⟨rfl, hbits⟩ := h
  · have hlt : (w : Int) < k := (fCut_of_pos (by omega) w).mp hw
    exact sameCode_of_bits (hbits _ (by omega)) (hbits _ (by omega))
  · have hle : -(-(k : Int)) ≤ w := (fCut_of_neg (by omega) w).mp hw
    exact sameCode_of_bits (hbits _ (by omega)) (hbits _ (by omega))

end

/-- Settles O36: equal kept codes give equal sums, and equal sums equal accumulators. -/
theorem cutCodesAreIgnored : Obligations.CutCodesAreIgnored := by
  intro blk rs trb base rq k cut clr s s' b hk _ hb hsame hcut
  have hread (f) (j) (hf : f ≠ .thr) : (s.block b).read f j = (s'.block b).read f j := (hsame.read f j hf).symm
  have hd : (s.block b).readQ .r rq = (s'.block b).readQ .r rq := by
    simp only [Block.readQ, Block.readD, hread .r _ (by decide)]
  have key {i} (hi : XcorrsOn blk base rq cut clr i) (h : WellFormed i) :
      ∃ t t', exec i s = .next t ∧ exec i s' = .next t' ∧
        ∀ j < 16, (t.block b).read .tr (base + j) = (t'.block b).read .tr (base + j) := by
    obtain ⟨t, ht, -, hblock⟩ := exec_xcorrsOn hi h s
    obtain ⟨t', ht', -, hblock'⟩ := exec_xcorrsOn hi h s'
    obtain ⟨-, hres⟩ := hblock b hb
    obtain ⟨-, hres'⟩ := hblock' b hb
    rw [← cutValue_congr hsame.cmctl.symm] at hres'
    have hcodes := sameCode_of_kept hk hcut
    have hold (j) := hread .tr (base + j) (by decide)
    exact ⟨t, t', ht, ht', fun j hj =>
      xcorrsResult_read_eq hj hres hres' (delayRe_congr hd (hold j) hcodes) (delayIm_congr hd (hold j) hcodes)⟩
  exact ⟨key .single, key (.dual rs trb)⟩

/-! ## Delay 15 and DESPREAD (R124, R130, R131) -/

theorem codeBit_append {m n : Nat} (u : BitVec m) (v : BitVec n) {k : Nat} (hk : k < n) :
    codeBit (u ++ v) k = codeBit v k := by
  rw [codeBit, codeBit, BitVec.getLsbD_append, if_pos hk]

section
variable (b : Block) (base rq : Nat)

/-- The first 32 codes of the quad THR3:0 are those of the double THR1:0. -/
theorem code_readQ_thr {w : Nat} (hw : w < 32) : codeRe (b.readQ .thr 0) w = codeRe (b.readD .thr 0) w ∧
    codeIm (b.readQ .thr 0) w = codeIm (b.readD .thr 0) w :=
  ⟨codeBit_append _ _ (by omega), codeBit_append _ _ (by omega)⟩

/-- At delay 15 sample `m` meets code `m`. -/
theorem delayRe_fifteen : Safety.delayRe base rq 0 false b 15 =
    Safety.despreadRe b rq 0 0 8 + wordRe (b.read .tr (base + 15)) := by
  rw [delayRe_eq_keptSum, keptSum_zero, Safety.despreadRe, Finset.range_eq_Ico, add_comm]
  refine congrArg (· + wordRe _) (Finset.sum_congr rfl fun m hm => ?_)
  obtain ⟨hre, him⟩ := code_readQ_thr b (w := m) (by rw [Finset.mem_Ico] at hm; omega)
  rw [Nat.add_sub_cancel, Safety.termRe, Safety.termRe, hre, him]

theorem delayIm_fifteen : Safety.delayIm base rq 0 false b 15 =
    Safety.despreadIm b rq 0 0 8 + wordIm (b.read .tr (base + 15)) := by
  rw [delayIm_eq_keptSum, keptSum_zero, Safety.despreadIm, Finset.range_eq_Ico, add_comm]
  refine congrArg (· + wordIm _) (Finset.sum_congr rfl fun m hm => ?_)
  obtain ⟨hre, him⟩ := code_readQ_thr b (w := m) (by rw [Finset.mem_Ico] at hm; omega)
  rw [Nat.add_sub_cancel, Safety.termIm, Safety.termIm, hre, him]

end

/-- The DESPREAD of delay 15's accumulator with the codes of THR1:0 has no check that the XCORRS has not. -/
theorem wellFormed_despreadAcc_of_xcorrs {blk : BlockSel} {base rq : Nat} {cut : Cut} {clr ext : Bool}
    (h : WellFormed (.xcorrs blk base rq cut clr ext)) :
    WellFormed (.despreadAcc blk (base + 15) rq 0 (base + 15)) := by
  simp only [wellFormed_def, Instr.checks, Check.passed_append, Check.passed_forTra, Check.passed_forRq,
    Check.passed_forTr, Check.passed_forThrd, true_or, and_true] at h ⊢
  omega

/-- Settles O39: both forms clamp the same two sums. -/
theorem delayFifteenIsDespread : Obligations.DelayFifteenIsDespread := by
  intro blk base rq s h
  obtain ⟨t, ht, -, hblock⟩ := xcorrsAccumulates blk base rq .none false s h
  obtain ⟨t', ht', -, hblock'⟩ :=
    despreadAccResult blk (base + 15) rq 0 (base + 15) s (wellFormed_despreadAcc_of_xcorrs h)
  refine ⟨t, t', ht, ht', fun b hb => ?_⟩
  have hres := hblock b hb
  obtain ⟨hre, him, -, -⟩ := hblock' b hb
  refine word_ext ?_ ?_
  · rw [hres.re 15 (by decide), hre, ← delayRe_fifteen]
    rfl
  · rw [hres.im 15 (by decide), him, ← delayIm_fifteen]
    rfl

/-! ## Accumulators that start from zero (R136) -/

/-- Settles O38: a sum of eight terms fits sixteen bits. -/
theorem clearedXcorrsNeverOverflows : Obligations.ClearedXcorrsNeverOverflows := by
  intro i blk rs trb base rq cut s hi h
  obtain ⟨t, ht, -, hblock⟩ := exec_xcorrsOn (xcorrsOn_of_eq hi) h s
  refine ⟨t, ht, fun b hb => ?_⟩
  obtain ⟨-, hres⟩ := hblock b hb
  have htrov : (t.block b).trov = false := by
    rw [← Bool.not_eq_true, hres.flags.trov]
    rintro ⟨k, -, hov | hov⟩
    · rw [delayRe_clear] at hov
      exact not_overflows_keptSum (fun _ => abs_termRe_le ..) _ k hov
    · rw [delayIm_clear] at hov
      exact not_overflows_keptSum (fun _ => abs_termIm_le ..) _ k hov
  exact ⟨htrov, by rw [hres.flags.trsov, htrov, Bool.or_false]⟩

section
variable {base rq : Nat} {cut : Cut} {b c : Block}

theorem xcorrsBlock_clear_of_zero (h : ∀ k < 16, b.read .tr (base + k) = 0) :
    xcorrsBlock base rq cut true b = xcorrsBlock base rq cut false b := by
  have hout : xcorrsOut base rq cut true b = xcorrsOut base rq cut false b :=
    List.map_congr_left fun k hk => by
      rw [h k (List.mem_range.mp hk)]
      rfl
  rw [xcorrsBlock, xcorrsBlock, hout]

/-- With `(CLR)` blocks that differ in the sixteen accumulators alone become equal. -/
theorem xcorrsBlock_clear_eq (h : Safety.SameBut (fun f k => f = .tr ∧ base ≤ k ∧ k < base + 16) b c) :
    xcorrsBlock base rq cut true b = xcorrsBlock base rq cut true c := by
  have hread (f k) (hout : (⟨f, k⟩ : Reg) ∉ regRange .tr base 16) : b.read f k = c.read f k :=
    (h.read f k (mt (mem_regRange ..).mpr hout)).symm
  have hother {f i n} (hf : f ≠ .tr) : AgreeOn (regRange f i n) b c := by
    rintro ⟨g, j⟩ hr
    obtain ⟨rfl, -⟩ := (mem_regRange ..).mp hr
    exact hread g j fun hmem => hf ((mem_regRange ..).mp hmem).1
  obtain ⟨hwritten, htrov⟩ := xcorrsBlock_congr (rq := rq) (base := base) cut (clr := true) (hother (by decide))
    (hother (by decide)) (agreeOn_nil b c) h.cmctl.symm
  refine Block.ext_read (fun f k _ => ?_) ?_ htrov ?_ ?_
  · by_cases hmem : (⟨f, k⟩ : Reg) ∈ regRange .tr base 16 ++ regRange .thr 0 4
    · exact hwritten _ hmem
    · obtain ⟨htr, hthr⟩ := not_or.mp (List.mem_append.not.mp hmem)
      rw [xcorrsBlock_read_of_notMem htr hthr, xcorrsBlock_read_of_notMem htr hthr, hread f k htr]
  · rw [xcorrsBlock_cmctl, xcorrsBlock_cmctl, h.cmctl]
  · rw [xcorrsBlock_trsov, xcorrsBlock_trsov, htrov, h.trsov]
  · rw [xcorrsBlock_draws, xcorrsBlock_draws, h.draws]

end

/-- Settles O37: the old accumulators are not read, and a sum from old zeros is the sum from zero. -/
theorem clearStartsFromZero : Obligations.ClearStartsFromZero := by
  intro blk rs trb base rq cut s s' b hb hsame hzero
  have hxcorrs : xcorrsBlock base rq cut true (s.block b) = xcorrsBlock base rq cut false (s'.block b) :=
    (xcorrsBlock_clear_eq hsame).trans (xcorrsBlock_clear_of_zero hzero)
  refine ⟨fun h => ?_, fun h => ?_⟩
  · obtain ⟨t, ht, -, hblock⟩ := exec_xcorrsOn .single h s
    obtain ⟨t', ht', -, hblock'⟩ := exec_xcorrsOn (clr := false) .single h s'
    refine ⟨t, t', ht, ht', ?_⟩
    rw [(hblock b hb).1, (hblock' b hb).1]
    exact hxcorrs
  · obtain ⟨t, ht, -, hblock⟩ := xcorrsMovAccumulates blk rs trb base rq cut true s h
    obtain ⟨t', ht', -, -⟩ := exec_xcorrsOn (clr := false) (.dual rs trb) h s'
    refine ⟨t, t', ht, ht', fun k _ => ?_, (hblock b hb).1⟩
    rw [exec_block_selected ht hb, exec_block_selected ht' hb, effect, effect,
      Block.read_writeQ_file_ne _ (by decide), Block.read_writeQ_file_ne _ (by decide), hxcorrs]

end Sys2Proof.Machine
end

section
/-! PROOFS. The register transfers (44_transfers.md): what each copies, the flags they leave, their frame, and the options
whose meaning is not in the source. -/

namespace Sys2Proof.Machine

/-! ## Copies within one block (R150, R165) -/

/-- The block after a copy of one register: the copy, and the flags of a transfer. -/
def CopiedOne (f : RegFile) (d : Nat) (g : RegFile) (m : Nat) (b c : Block) : Prop :=
  c.read f d = b.read g m ∧ Safety.FlagsOfTransfer b c

/-- The block after a copy of `k` registers: each register of its place, and the flags of a transfer. -/
def CopiedGroup (k : Nat) (f : RegFile) (d : Nat) (g : RegFile) (m : Nat) (b c : Block) : Prop :=
  (∀ j < k, c.read f (d + j) = b.read g (m + j)) ∧ Safety.FlagsOfTransfer b c

section
variable {b : Block} {f g : RegFile} {d m : Nat} {id : BlockId}

theorem copiedOne_write (hd : d < f.size) : CopiedOne f d g m b ((b.write f d (b.read g m)).drawTrov id) := by
  refine ⟨?_, flagsOfTransfer_drawTrov id (b.write_trov ..) (b.write_trsov ..)⟩
  rw [Block.drawTrov_read, Block.read_write_same _ _ _ _ hd]

theorem copiedGroup_writeD (hd : d + 1 < f.size) :
    CopiedGroup 2 f d g m b ((b.writeD f d (b.readD g m)).drawTrov id) := by
  refine ⟨fun j hj => ?_, flagsOfTransfer_drawTrov id (b.writeD_trov ..) (b.writeD_trsov ..)⟩
  rw [Block.drawTrov_read, Block.read_writeD_readD _ _ hd hj]

theorem copiedGroup_writeQ (hd : d + 3 < f.size) :
    CopiedGroup 4 f d g m b ((b.writeQ f d (b.readQ g m)).drawTrov id) := by
  refine ⟨fun j hj => ?_, flagsOfTransfer_drawTrov id (b.writeQ_trov ..) (b.writeQ_trsov ..)⟩
  rw [Block.drawTrov_read, Block.read_writeQ_readQ _ _ hd hj]

end

/-- The last register of the range that the tables list for a well-formed term exists. -/
theorem destination_exists (k : Nat) {i : Instr} {f : RegFile} {d : Nat} (hi : Laws.Registers.Statement i)
    (h : WellFormed i) (hw : writesOf i = regRange f d (k + 1)) : d + k < f.size := by
  refine hi h ⟨f, d + k⟩ (List.mem_append_right _ ?_)
  rw [hw, mem_regRange]
  exact ⟨rfl, by omega, by omega⟩

/-! ## The copies to data registers (R151 to R153, R157, R158) -/

/-- Settles O20, by the copy in the block's effect. -/
theorem trellisReadsCopy : Obligations.TrellisReadsCopy := fun blk rs trm s =>
  ⟨fun h => exec_completes h rfl s (R := CopiedOne .r rs .tr trm) fun _ _ =>
      copiedOne_write (destination_exists 0 (Laws.Registers.movRTr blk rs trm) h rfl),
    fun h => exec_completes h rfl s (R := CopiedGroup 2 .r rs .tr trm) fun _ _ =>
      copiedGroup_writeD (destination_exists 1 (Laws.Registers.movRdTrd blk rs trm) h rfl),
    fun h => exec_completes h rfl s (R := CopiedGroup 4 .r rs .tr trm) fun _ _ =>
      copiedGroup_writeQ (destination_exists 3 (Laws.Registers.movRqTrq blk rs trm) h rfl)⟩

/-- Settles O22, as O20 with the history registers the source. -/
theorem historyReadsCopy : Obligations.HistoryReadsCopy := fun blk rs thrm s =>
  ⟨fun h => exec_completes h rfl s (R := CopiedOne .r rs .thr thrm) fun _ _ =>
      copiedOne_write (destination_exists 0 (Laws.Registers.movRThr blk rs thrm) h rfl),
    fun h => exec_completes h rfl s (R := CopiedGroup 2 .r rs .thr thrm) fun _ _ =>
      copiedGroup_writeD (destination_exists 1 (Laws.Registers.movRdThrd blk rs thrm) h rfl)⟩

/-! ## The loads of trellis and trellis history registers (R154 to R156, R160, R161) -/

/-- Settles O21, as O20 with the trellis registers the destination. -/
theorem trellisLoadsCopy : Obligations.TrellisLoadsCopy := fun blk trs rm s =>
  ⟨fun h => exec_completes h rfl s (R := CopiedOne .tr trs .r rm) fun _ _ =>
      copiedOne_write (destination_exists 0 (Laws.Registers.movTrR blk trs rm) h rfl),
    fun h => exec_completes h rfl s (R := CopiedGroup 2 .tr trs .r rm) fun _ _ =>
      copiedGroup_writeD (destination_exists 1 (Laws.Registers.movTrdRd blk trs rm) h rfl),
    fun h => exec_completes h rfl s (R := CopiedGroup 4 .tr trs .r rm) fun _ _ =>
      copiedGroup_writeQ (destination_exists 3 (Laws.Registers.movTrqRq blk trs rm) h rfl)⟩

/-- Settles O23, as O20 with the history registers the destination; without `(i)` the double load is executed. -/
theorem historyLoadsCopy : Obligations.HistoryLoadsCopy := fun blk thrs rm s =>
  ⟨fun h => exec_completes h rfl s (R := CopiedOne .thr thrs .r rm) fun _ _ =>
      copiedOne_write (destination_exists 0 (Laws.Registers.movThrR blk thrs rm) h rfl),
    fun h => exec_completes h rfl s (R := CopiedGroup 2 .thr thrs .r rm) fun _ _ =>
      copiedGroup_writeD (destination_exists 1 (Laws.Registers.movThrdRd blk thrs rm false) h rfl)⟩

/-! ## The frame (R164, R165) -/

/-- Every form that is not arithmetic ends in the draw of TROV, or is refused and has no effect. -/
theorem effect_flagsOfTransfer {i : Instr} (hk : slotKind i ≠ .trellis ∧ slotKind i ≠ .correlator) (id : BlockId)
    (b : Block) : Safety.FlagsOfTransfer b (effect i id b) := by
  obtain ⟨htrellis, hcorrelator⟩ := hk
  cases i
  case movRTr | movRdTrd | movRqTrq | movTrR | movTrdRd | movTrqRq | movRThr | movRdThrd | movThrR | movThrdRd =>
    exact flagsOfTransfer_drawTrov id (by simp) (by simp)
  case movRqThrq | movThrqRq | acs | acsMov | permuteD | permuteQ => exact ⟨.inl rfl, rfl⟩
  case tmaxAdd | tmaxSub | tmaxTr | maxAdd | maxSub => exact absurd rfl htrellis
  case despreadAcc | despreadMov | despreadMovd | xcorrs | xcorrsMov => exact absurd rfl hcorrelator

/-- The frame of a slot that is not arithmetic and writes one register range. -/
theorem exec_frame_of_transfer {i : Instr} {s t : State} (h : exec i s = .next t)
    (hk : slotKind i ≠ .trellis ∧ slotKind i ≠ .correlator) {g : RegFile} {d k : Nat}
    (hw : writesOf i = regRange g d k) :
    Safety.OnlySelected i.blk s t ∧ ∀ b,
      Safety.UnchangedBut (fun f j => f = g ∧ d ≤ j ∧ j < d + k) (s.block b) (t.block b) ∧
        Safety.FlagsOfTransfer (s.block b) (t.block b) := by
  refine ⟨onlySelected_of_exec h, fun b => ?_⟩
  have hread (f j) (hout : ¬(f = g ∧ d ≤ j ∧ j < d + k)) : (t.block b).read f j = (s.block b).read f j :=
    onlyListedRegistersChange i s t h b f j (by rwa [hw, mem_regRange])
  cases hb : i.blk.has b with
  | false =>
    rw [exec_block_unselected h hb]
    exact ⟨⟨fun _ _ _ => rfl, rfl⟩, .inl rfl, rfl⟩
  | true =>
    rw [exec_block_selected h hb] at hread ⊢
    exact ⟨⟨hread, effect_cmctl i b _⟩, effect_flagsOfTransfer hk b _⟩

/-- Settles O24: the tables list the destination group as all that the five forms write. -/
theorem readTransferFrame : Obligations.ReadTransferFrame := by
  intro i blk rs m k s t hi h
  obtain ⟨rfl | rfl, rfl⟩ | ⟨rfl | rfl, rfl⟩ | ⟨rfl, rfl⟩ := hi <;>
    exact exec_frame_of_transfer h ⟨nofun, nofun⟩ rfl

/-- Settles O25, as O24 with trellis or history registers the destination. -/
theorem loadTransferFrame : Obligations.LoadTransferFrame := by
  intro i blk d m g k s t hi h
  obtain ⟨rfl, rfl, rfl⟩ | ⟨rfl, rfl, rfl⟩ | ⟨rfl, rfl, rfl⟩ | ⟨rfl, rfl, rfl⟩ | ⟨rfl, rfl, rfl⟩ := hi <;>
    exact exec_frame_of_transfer h ⟨nofun, nofun⟩ rfl

/-! ## The options whose meaning is not in the source (R141, R163) -/

/-- Settles O45: under the option the meaning of each form is the refusal. -/
theorem unexplainedOptionsAreRefused : Obligations.UnexplainedOptionsAreRefused :=
  fun _ _ _ _ _ _ _ _ _ _ => ⟨fun h => refuse_of_wellFormed h .optionINotInSource,
    fun h => refuse_of_wellFormed h .extNotInSource, fun h => refuse_of_wellFormed h .extNotInSource⟩

end Sys2Proof.Machine
end

section
/-! PROOFS. The PERMUTE instructions (45_permute.md): their meaning is the refusal that names the gap in the source
(D18). -/

namespace Sys2Proof.Machine

theorem exec_permuteD (blk : BlockSel) (rs rm rn : Nat) (s : State) :
    exec (.permuteD blk rs rm rn) s = refuse (.permuteD blk rs rm rn) .permuteNotInSource := rfl

theorem exec_permuteQ (blk : BlockSel) (rs rm rn : Nat) (s : State) :
    exec (.permuteQ blk rs rm rn) s = refuse (.permuteQ blk rs rm rn) .permuteNotInSource := rfl

/-- Settles O43: the meaning of both forms is the refusal, and a well-formed term fails no check before it. -/
theorem permuteIsRefused : Obligations.PermuteIsRefused := by
  intro blk rs rm rn s
  refine ⟨fun h => ?_, fun h => ?_⟩
  · rw [exec_permuteD, refuse_of_wellFormed h]
  · rw [exec_permuteQ, refuse_of_wellFormed h]

end Sys2Proof.Machine
end

section
/-! PROOFS. The execution of an instruction line (46_line_execution.md): what a step does to the flags, the pc and CMCTL
(R184 to R187, R190), which lines are admitted and complete (R186, R191, R192), and how the results of the slots are
joined block by block (R187 to R189). -/

namespace Sys2Proof.Machine

/-! ## The flags over a step (R165, R184, R185, R187) -/

/-- Settles O2: both flags are clear at launch, and the pc 0 is the end of the empty program. -/
theorem invariantAtLaunch : Obligations.InvariantAtLaunch := ⟨nofun, nofun, Nat.le_refl 0⟩

theorem flagsCoherent_of_inv {s : State} (h : Safety.Inv s) (b : BlockId) : Safety.FlagsCoherent (s.block b) := by
  cases b
  · exact h.x
  · exact h.y

/-- A set TROV that a transfer keeps is already recorded. -/
theorem trsov_of_flagsOfTransfer {b c : Block} (h : Safety.FlagsOfTransfer b c) (hb : Safety.FlagsCoherent b) :
    c.trsov = (b.trsov || c.trov) := by
  obtain ⟨hkept | hclear, hs⟩ := h
  · rw [hs, hkept, Bool.or_eq_left_iff_imp.mpr hb]
  · rw [hs, hclear, Bool.or_false]

theorem effect_trsov (i : Instr) (id : BlockId) {b : Block} (hb : Safety.FlagsCoherent b) :
    (effect i id b).trsov = (b.trsov || (effect i id b).trov) := by
  obtain h | h := effect_flags i id b
  · exact h
  · exact trsov_of_flagsOfTransfer h hb

/-- Settles O8: a block after a step is the old one, or has the flags of one form's effect on it. -/
theorem stickyFlagCollectsTrov : Obligations.StickyFlagCollectsTrov := by
  intro s t hinv h b
  have hb := flagsCoherent_of_inv hinv b
  obtain hold | ⟨i, from_, regs, -, heq⟩ := step_block_cases h b
  · rw [hold, Bool.or_eq_left_iff_imp.mpr hb]
  · obtain ⟨-, htrov, htrsov, -⟩ := overlay_rest from_ (effect i b (s.block b)) regs
    rw [heq, htrsov, htrov, effect_trsov i b hb]

/-! ## The pc, the program and CMCTL over a step (R32, R43, R190) -/

theorem step_cmctl {s t : State} (h : step s = .next t) (b : BlockId) : (t.block b).cmctl = (s.block b).cmctl := by
  obtain hold | ⟨i, from_, regs, -, heq⟩ := step_block_cases h b
  · rw [hold]
  · obtain ⟨hcmctl, -⟩ := overlay_rest from_ (effect i b (s.block b)) regs
    rw [heq, hcmctl, effect_cmctl]

/-- Settles O6: the line at the pc was fetched, and no form's effect changes CMCTL. -/
theorem stepAdvancesPc : Obligations.StepAdvancesPc := by
  intro s t h
  have hcmctl := step_cmctl h
  obtain ⟨text, line, done, hfetch, -, -, -, rfl⟩ := step_eq_next h
  obtain ⟨hlt, -⟩ := List.getElem?_eq_some_iff.mp hfetch
  exact ⟨hlt, rfl, rfl, hcmctl .x, hcmctl .y⟩

/-- Settles O3: a TRSOV that collects TROV records it, and the line executed was one of the program. -/
theorem stepKeepsInvariant : Obligations.StepKeepsInvariant := by
  intro s t hinv h
  have hflags (b : BlockId) : Safety.FlagsCoherent (t.block b) := fun htrov => by
    rw [stickyFlagCollectsTrov s t hinv h b, htrov, Bool.or_true]
  obtain ⟨hlt, hpc, hprogram, -⟩ := stepAdvancesPc s t h
  exact ⟨hflags .x, hflags .y, by rw [hpc, hprogram]; exact hlt⟩

/-! ## The line fetched (R60, R180) -/

theorem step_of_fetches {s : State} {line : Line} (h : Safety.Fetches s line) : step s = execLine line s := by
  obtain ⟨text, hfetch, hdecode⟩ := h
  rw [step_of_fetch hfetch, execText, hdecode]

theorem ne_nil_of_fetches {s : State} {line : Line} (h : Safety.Fetches s line) : line ≠ [] := by
  obtain ⟨text, -, hdecode⟩ := h
  exact (decodedLinesAreWellFormed text line hdecode).1

/-- A fetched line that does not complete is refused: it does not fault. -/
theorem step_refused_of_fetches {s : State} {line : Line} (h : Safety.Fetches s line) (hnext : ¬∃ u, step s = .next u) :
    ∃ r, step s = .refused r := by
  rw [step_of_fetches h] at hnext ⊢
  cases hstep : execLine line s with
  | next u => exact absurd ⟨u, hstep⟩ hnext
  | fault e => exact absurd hstep (execLine_ne_fault line s e)
  | refused r => exact ⟨r, rfl⟩

/-- Settles O4: a line of one slot is that slot followed by the advance of the pc. -/
theorem stepRunsDecodedSlot : Obligations.StepRunsDecodedSlot :=
  fun s i h => (step_of_fetches h).trans (execLine_single i s)

/-! ## The kinds of slots (R186) -/

/-- The form that the kind of a slot names. -/
def FormOfKind : SlotKind → Instr → Prop
  | .trellis, i => Safety.TrellisForm i
  | .correlator, i => Safety.CorrelatorForm i
  | .trLoad, i => Safety.TrellisLoad i
  | .thrLoad, i => Safety.HistoryLoad i
  | .alone, _ => True

theorem formOfKind_of_slotKind_eq {i : Instr} {k : SlotKind} (h : slotKind i = k) : FormOfKind k i := by
  subst h
  cases i
  case movThrdRd _ _ _ optI =>
    cases optI
    · exact .double ..
    · trivial
  case movThrR => exact .single ..
  case tmaxAdd | tmaxSub | tmaxTr | maxAdd | maxSub => constructor
  case despreadAcc | despreadMov | despreadMovd | xcorrs | xcorrsMov => constructor
  case movTrR | movTrdRd | movTrqRq => constructor
  case movRTr | movRdTrd | movRqTrq | movRThr | movRdThrd | movRqThrq | movThrqRq => trivial
  case acs | acsMov | permuteD | permuteQ => trivial

theorem slotKind_eq_trellis_iff (i : Instr) : slotKind i = .trellis ↔ Safety.TrellisForm i :=
  ⟨formOfKind_of_slotKind_eq, fun h => by cases h <;> rfl⟩

theorem slotKind_eq_correlator_iff (i : Instr) : slotKind i = .correlator ↔ Safety.CorrelatorForm i :=
  ⟨formOfKind_of_slotKind_eq, fun h => by cases h <;> rfl⟩

theorem slotKind_eq_trLoad_iff (i : Instr) : slotKind i = .trLoad ↔ Safety.TrellisLoad i :=
  ⟨formOfKind_of_slotKind_eq, fun h => by cases h <;> rfl⟩

theorem slotKind_eq_thrLoad_iff (i : Instr) : slotKind i = .thrLoad ↔ Safety.HistoryLoad i :=
  ⟨formOfKind_of_slotKind_eq, fun h => by cases h <;> rfl⟩

theorem admitsLoad_iff (k m : SlotKind) : admitsLoad k m = true ↔
    k = .trellis ∧ (m = .trLoad ∨ m = .thrLoad) ∨ k = .correlator ∧ m = .thrLoad := by
  cases k <;> cases m <;> decide

/-- An arithmetic slot and a load are not also a load and an arithmetic slot. -/
theorem admitsLoad_swap {k m : SlotKind} (h : admitsLoad k m = true) : admitsLoad m k = false := by
  obtain ⟨rfl, rfl | rfl⟩ | ⟨rfl, rfl⟩ := (admitsLoad_iff k m).mp h <;> rfl

theorem admitsLoad_iff_mayShare (a l : Instr) :
    admitsLoad (slotKind a) (slotKind l) = true ↔ Safety.MayShare a l := by
  rw [admitsLoad_iff, slotKind_eq_trellis_iff, slotKind_eq_correlator_iff, slotKind_eq_trLoad_iff,
    slotKind_eq_thrLoad_iff, Safety.MayShare]

/-! ## Which lines are admitted (R186, R192) -/

theorem conflict_eq_false_iff (i j : Instr) : conflict i j = false ↔ ∀ r ∈ resultsOf i, r ∉ resultsOf j := by
  simp [conflict]

theorem conflict_comm (i j : Instr) : conflict i j = conflict j i := by
  rw [Bool.eq_iff_iff]
  simp only [conflict, List.any_eq_true, List.contains_iff_mem]
  exact exists_congr fun r => and_comm

/-- Two slots are an arithmetic slot `a` and a load `l` of R186 (b) or (c), without a common result register. -/
structure AdmittedPair (a l : Instr) : Prop where
  share : Safety.MayShare a l
  results : ∀ r ∈ resultsOf a, r ∉ resultsOf l

theorem admittedPair_iff (a l : Instr) :
    AdmittedPair a l ↔ admitsLoad (slotKind a) (slotKind l) = true ∧ conflict a l = false := by
  rw [admitsLoad_iff_mayShare, conflict_eq_false_iff]
  exact ⟨fun ⟨hs, hr⟩ => ⟨hs, hr⟩, fun ⟨hs, hr⟩ => ⟨hs, hr⟩⟩

theorem blockRefusal_pair_eq_none_iff (b : BlockId) (i j : Instr) :
    blockRefusal b [i, j] = none ↔ AdmittedPair i j ∨ AdmittedPair j i := by
  rw [admittedPair_iff, admittedPair_iff, conflict_comm j i, ← or_and_right, ← Bool.or_eq_true]
  simp only [blockRefusal]
  cases admitsLoad (slotKind i) (slotKind j) || admitsLoad (slotKind j) (slotKind i) <;> cases conflict i j <;> simp

theorem blockRefusal_eq_none_iff (b : BlockId) (slots : List Instr) : blockRefusal b slots = none ↔
    slots.length ≤ 1 ∨ ∃ a l, (slots = [a, l] ∨ slots = [l, a]) ∧ AdmittedPair a l := by
  match slots with
  | [] | [_] => simp [blockRefusal]
  | [i, j] =>
    rw [blockRefusal_pair_eq_none_iff]
    constructor
    · rintro (h | h)
      · exact .inr ⟨i, j, .inl rfl, h⟩
      · exact .inr ⟨j, i, .inr rfl, h⟩
    · rintro (h | ⟨a, l, h | h, hpair⟩)
      · simp at h
      · cases h
        exact .inl hpair
      · cases h
        exact .inr hpair
  | i :: j :: k :: rest => simp [blockRefusal]

theorem admittedLine_iff (line : Line) :
    Safety.AdmittedLine line ↔ line.length ≤ 4 ∧ ∀ b, blockRefusal b (slotsFor b line) = none := by
  simp only [blockRefusal_eq_none_iff]
  constructor
  · rintro ⟨hslots, hblock⟩
    refine ⟨hslots, fun b => (hblock b).imp_right ?_⟩
    rintro ⟨a, l, ⟨horder, hshare⟩, hresults⟩
    exact ⟨a, l, horder, hshare, hresults⟩
  · rintro ⟨hslots, hblock⟩
    refine ⟨hslots, fun b => (hblock b).imp_right ?_⟩
    rintro ⟨a, l, horder, hshare, hresults⟩
    exact ⟨a, l, ⟨horder, hshare⟩, hresults⟩

theorem lineRefusal_eq_none_iff {line : Line} (hne : line ≠ []) :
    lineRefusal line = none ↔ Safety.AdmittedLine line := by
  have hlen : line.length ≠ 0 := mt List.length_eq_zero_iff.mp hne
  have hboth : (∀ b, blockRefusal b (slotsFor b line) = none) ↔
      blockRefusal .x (slotsFor .x line) = none ∧ blockRefusal .y (slotsFor .y line) = none :=
    ⟨fun h => ⟨h .x, h .y⟩, fun ⟨hx, hy⟩ b => by cases b <;> assumption⟩
  rw [admittedLine_iff, hboth, lineRefusal]
  by_cases h4 : 4 < line.length
  · simp [h4]
  · cases hx : blockRefusal .x (slotsFor .x line) <;> simp [h4, hlen, Nat.not_lt.mp h4]

/-! ## Which lines complete (R188, R191) -/

/-- A slot with the state it leaves when it completes. -/
def slotResult (s : State) (i : Instr) : Instr × State := (i, s.onBlocks i.blk (effect i))

theorem exec_eq_slotResult {i : Instr} {s t : State} (h : exec i s = .next t) : t = (slotResult s i).2 := by
  obtain ⟨-, -, ht⟩ := (exec_eq_next i s t).mp h
  exact ht

theorem runSlots_of_slotsComplete {s : State} {line : Line} (h : Safety.SlotsComplete s line) :
    runSlots s line = .next (line.map (slotResult s)) := by
  induction line with
  | nil => rfl
  | cons i is ih =>
    obtain ⟨⟨t, ht⟩, his⟩ := List.forall_mem_cons.mp h
    rw [runSlots, ht, ih his, exec_eq_slotResult ht]
    rfl

theorem slotsComplete_of_runSlots {s : State} {line : Line} {done : List (Instr × State)}
    (h : runSlots s line = .next done) : Safety.SlotsComplete s line := by
  obtain ⟨rfl, hexec⟩ := runSlots_eq_next h
  intro i hi
  obtain ⟨p, hp, rfl⟩ := List.mem_map.mp hi
  exact ⟨p.2, hexec p hp⟩

theorem execLine_of_slotsComplete {s : State} {line : Line} (hl : lineRefusal line = none)
    (hc : Safety.SlotsComplete s line) :
    execLine line s = .next (State.advance
      { s with x := joinBlock .x s (line.map (slotResult s)), y := joinBlock .y s (line.map (slotResult s)) }) := by
  rw [execLine, hl, runSlots_of_slotsComplete hc]

/-- A fetched line completes exactly when it is admitted and every slot completes on the state before it. -/
theorem step_completes_iff {s : State} {line : Line} (h : Safety.Fetches s line) :
    (∃ u, step s = .next u) ↔ Safety.AdmittedLine line ∧ Safety.SlotsComplete s line := by
  rw [step_of_fetches h, ← lineRefusal_eq_none_iff (ne_nil_of_fetches h)]
  constructor
  · rintro ⟨u, hu⟩
    cases hl : lineRefusal line with
    | some r => simp [execLine, hl] at hu
    | none =>
      cases hr : runSlots s line with
      | next done => exact ⟨rfl, slotsComplete_of_runSlots hr⟩
      | fault e => simp [execLine, hl, hr] at hu
      | refused r => simp [execLine, hl, hr] at hu
  · rintro ⟨hl, hc⟩
    exact ⟨_, execLine_of_slotsComplete hl hc⟩

/-- Settles O53: a line that is not admitted does not complete, and no line faults. -/
theorem onlyAdmittedLinesExecute : Obligations.OnlyAdmittedLinesExecute := by
  intro s line hf hadm
  refine step_refused_of_fetches hf fun hnext => ?_
  obtain ⟨hadm', -⟩ := (step_completes_iff hf).mp hnext
  exact hadm hadm'

/-- Settles O54: a line of which some slot does not complete does not complete, and no line faults. -/
theorem refusedSlotRefusesLine : Obligations.RefusedSlotRefusesLine := by
  intro s line i r hf hi hr
  refine step_refused_of_fetches hf fun hnext => ?_
  obtain ⟨-, hc⟩ := (step_completes_iff hf).mp hnext
  obtain ⟨t, ht⟩ := hc i hi
  rw [ht] at hr
  cases hr

/-! ## Two slots with a block in common (R186, R192) -/

/-- The block in common decides; another block is given one slot or the same two. -/
theorem admittedLine_pair_iff {i j : Instr} {b : BlockId} (hi : i.blk.has b = true) (hj : j.blk.has b = true) :
    Safety.AdmittedLine [i, j] ↔ AdmittedPair i j ∨ AdmittedPair j i := by
  rw [admittedLine_iff]
  constructor
  · rintro ⟨-, hblock⟩
    have hboth : slotsFor b [i, j] = [i, j] := by simp [slotsFor, hi, hj]
    rw [← blockRefusal_pair_eq_none_iff b, ← hboth]
    exact hblock b
  · intro hpair
    refine ⟨by simp, fun c => ?_⟩
    cases hic : i.blk.has c <;> cases hjc : j.blk.has c <;> simp only [slotsFor, List.filter, hic, hjc]
    case true.true => exact (blockRefusal_pair_eq_none_iff c i j).mpr hpair
    all_goals rfl

theorem trellisForm_iff (a : Instr) : Safety.TrellisForm a ↔ ∃ blk short trs trm trn rq,
    a = .tmaxAdd blk short trs trm trn rq ∨ a = .tmaxSub blk short trs trm trn rq ∨
      a = .maxAdd blk short trs trm trn rq ∨ a = .maxSub blk short trs trm trn rq ∨ a = .tmaxTr blk short trs trm trn := by
  constructor
  · intro h
    cases h with
    | tmaxAdd blk short trs trm trn rq => exact ⟨blk, short, trs, trm, trn, rq, by simp⟩
    | tmaxSub blk short trs trm trn rq => exact ⟨blk, short, trs, trm, trn, rq, by simp⟩
    | tmaxTr blk short rs trm trn => exact ⟨blk, short, rs, trm, trn, 0, by simp⟩
    | maxAdd blk short trs trm trn rq => exact ⟨blk, short, trs, trm, trn, rq, by simp⟩
    | maxSub blk short trs trm trn rq => exact ⟨blk, short, trs, trm, trn, rq, by simp⟩
  · rintro ⟨blk, short, trs, trm, trn, rq, rfl | rfl | rfl | rfl | rfl⟩ <;> constructor

theorem correlatorForm_iff (a : Instr) : Safety.CorrelatorForm a ↔
    (∃ blk rs trs rq thrd trn, a = .despreadAcc blk trs rq thrd trn ∨ a = .despreadMov blk rs trs rq thrd ∨
      a = .despreadMovd blk rs trs rq thrd) ∨
    ∃ blk rs trb base rq cut clr ext, a = .xcorrs blk base rq cut clr ext ∨
      a = .xcorrsMov blk rs trb base rq cut clr ext := by
  constructor
  · intro h
    cases h with
    | despreadAcc blk trs rq thrd trn => exact .inl ⟨blk, 0, trs, rq, thrd, trn, by simp⟩
    | despreadMov blk rs trs rq thrd => exact .inl ⟨blk, rs, trs, rq, thrd, 0, by simp⟩
    | despreadMovd blk rs trs rq thrd => exact .inl ⟨blk, rs, trs, rq, thrd, 0, by simp⟩
    | xcorrs blk base rq cut clr ext => exact .inr ⟨blk, 0, 0, base, rq, cut, clr, ext, by simp⟩
    | xcorrsMov blk rs trb base rq cut clr ext => exact .inr ⟨blk, rs, trb, base, rq, cut, clr, ext, by simp⟩
  · rintro (⟨blk, rs, trs, rq, thrd, trn, rfl | rfl | rfl⟩ | ⟨blk, rs, trb, base, rq, cut, clr, ext, rfl | rfl⟩) <;>
      constructor

theorem historyLoad_iff (l : Instr) : Safety.HistoryLoad l ↔
    ∃ blk thrs rm, l = .movThrR blk thrs rm ∨ l = .movThrdRd blk thrs rm false := by
  constructor
  · rintro (⟨blk, thrs, rm⟩ | ⟨blk, thrs, rm⟩)
    · exact ⟨blk, thrs, rm, .inl rfl⟩
    · exact ⟨blk, thrs, rm, .inr rfl⟩
  · rintro ⟨blk, thrs, rm, rfl | rfl⟩ <;> constructor

theorem load_iff (l : Instr) : Safety.TrellisLoad l ∨ Safety.HistoryLoad l ↔ ∃ blk d rm,
    l = .movTrR blk d rm ∨ l = .movTrdRd blk d rm ∨ l = .movTrqRq blk d rm ∨ l = .movThrR blk d rm ∨
      l = .movThrdRd blk d rm false := by
  rw [historyLoad_iff]
  constructor
  · rintro ((⟨blk, trs, rm⟩ | ⟨blk, trs, rm⟩ | ⟨blk, trs, rm⟩) | ⟨blk, thrs, rm, h⟩)
    · exact ⟨blk, trs, rm, by simp⟩
    · exact ⟨blk, trs, rm, by simp⟩
    · exact ⟨blk, trs, rm, by simp⟩
    · exact ⟨blk, thrs, rm, .inr (.inr (.inr h))⟩
  · rintro ⟨blk, d, rm, rfl | rfl | rfl | h⟩
    · exact .inl (.single ..)
    · exact .inl (.double ..)
    · exact .inl (.quad ..)
    · exact .inr ⟨blk, d, rm, h⟩

/-- Settles O60: of two slots that complete, admission decides, and the pairs admitted are those of `MayShare`. -/
theorem pairsAdmittedInALine : Obligations.PairsAdmittedInALine := by
  intro s i j b hf hi hj hc
  rw [step_completes_iff hf, and_iff_left hc, admittedLine_pair_iff hi hj]
  simp only [← trellisForm_iff, ← correlatorForm_iff, ← load_iff, ← historyLoad_iff]
  constructor
  · rintro (⟨hshare, hresults⟩ | ⟨hshare, hresults⟩)
    · exact ⟨i, j, .inl ⟨rfl, rfl⟩, hresults, hshare⟩
    · exact ⟨j, i, .inr ⟨rfl, rfl⟩, hresults, hshare⟩
  · rintro ⟨a, l, ⟨rfl, rfl⟩ | ⟨rfl, rfl⟩, hresults, hshare⟩
    · exact .inl ⟨hshare, hresults⟩
    · exact .inr ⟨hshare, hresults⟩

/-! ## The joined results (R181, R187, R188, R189) -/

/-- Copying a register of one block to another makes them agree on it; past the end of a file both read 0. -/
theorem Block.read_write_self (b c : Block) (f : RegFile) (k : Nat) :
    (b.write f k (c.read f k)).read f k = c.read f k := by
  rw [Block.read_write]
  split
  · rfl
  next hout =>
    have hsize : f.size ≤ k := by simpa using hout
    rw [Block.read_of_size_le hsize, Block.read_of_size_le hsize]

/-- A register of an overlay. -/
theorem overlay_read (from_ onto : Block) (regs : List Reg) (f : RegFile) (k : Nat) :
    (overlay from_ onto regs).read f k = if (⟨f, k⟩ : Reg) ∈ regs then from_.read f k else onto.read f k := by
  induction regs generalizing onto with
  | nil => simp [overlay]
  | cons r regs ih =>
    have hcons : overlay from_ onto (r :: regs) =
        overlay from_ (onto.write r.file r.idx (from_.read r.file r.idx)) regs := rfl
    rw [hcons, ih]
    by_cases hmem : (⟨f, k⟩ : Reg) ∈ regs
    · rw [if_pos hmem, if_pos (List.mem_cons_of_mem r hmem)]
    · simp only [hmem, if_false, List.mem_cons, or_false]
      by_cases hr : (⟨f, k⟩ : Reg) = r
      · subst hr
        rw [if_pos rfl, Block.read_write_self]
      · rw [if_neg hr, Block.read_write, if_neg]
        rintro ⟨hf, hk, -⟩
        exact hr (by rw [← hf, ← hk])

/-- A block after the slots that it executes, each of which reads the block before the line. -/
def joinEffects (b : BlockId) (c : Block) : List Instr → Block
  | [] => c
  | [i] => effect i b c
  | i :: j :: _ =>
    if admitsLoad (slotKind i) (slotKind j) then overlay (effect j b c) (effect i b c) (resultsOf j)
    else overlay (effect i b c) (effect j b c) (resultsOf i)

/-- In either order of the two slots, the load is laid over the arithmetic slot. -/
theorem joinEffects_pair {slots : List Instr} {a l : Instr} (hslots : slots = [a, l] ∨ slots = [l, a])
    (h : Safety.MayShare a l) (b : BlockId) (c : Block) :
    joinEffects b c slots = overlay (effect l b c) (effect a b c) (resultsOf l) := by
  have hal := (admitsLoad_iff_mayShare a l).mpr h
  obtain rfl | rfl := hslots
  · rw [joinEffects, if_pos hal]
  · rw [joinEffects, admitsLoad_swap hal]
    rfl

theorem has_of_mem_slotsFor {b : BlockId} {line : Line} {i : Instr} (h : i ∈ slotsFor b line) : i.blk.has b = true :=
  (List.mem_filter.mp h).2

theorem slotResult_block {b : BlockId} {line : Line} {i : Instr} (h : i ∈ slotsFor b line) (s : State) :
    (slotResult s i).2.block b = effect i b (s.block b) := by
  rw [slotResult, State.onBlocks_block, has_of_mem_slotsFor h, if_pos rfl]

theorem joinBlock_slotResults (b : BlockId) (s : State) (line : Line) :
    joinBlock b s (line.map (slotResult s)) = joinEffects b (s.block b) (slotsFor b line) := by
  have hfilter : (line.map (slotResult s)).filter (fun p => p.1.blk.has b) = (slotsFor b line).map (slotResult s) :=
    List.filter_map
  have hblock (i) (hi : i ∈ slotsFor b line) := slotResult_block hi s
  rw [joinBlock, hfilter]
  match hslots : slotsFor b line with
  | [] => rfl
  | [i] => exact hblock i (by simp [hslots])
  | i :: j :: rest =>
    have hi := hblock i (by simp [hslots])
    have hj := hblock j (by simp [hslots])
    simp only [List.map_cons, joinEffects, ← hi, ← hj]
    rfl

/-- An admitted line of slots that complete: the step completes, the pc advances, and each block is the joined effects
of its slots. -/
theorem step_of_admitted {s : State} {line : Line} (hf : Safety.Fetches s line) (hadm : Safety.AdmittedLine line)
    (hc : Safety.SlotsComplete s line) :
    ∃ u, step s = .next u ∧ u.pc = s.pc + 1 ∧ u.program = s.program ∧
      ∀ b, u.block b = joinEffects b (s.block b) (slotsFor b line) := by
  have hl := (lineRefusal_eq_none_iff (ne_nil_of_fetches hf)).mpr hadm
  refine ⟨_, (step_of_fetches hf).trans (execLine_of_slotsComplete hl hc), rfl, rfl, fun b => ?_⟩
  rw [← joinBlock_slotResults]
  cases b <;> rfl

/-- Settles O50: in either order of the pair, the load's registers are laid over the arithmetic slot's block. -/
theorem loadBesideArithmetic : Obligations.LoadBesideArithmetic := by
  intro s line hf hadm hc
  obtain ⟨u, hu, hpc, hprogram, hblock⟩ := step_of_admitted hf hadm hc
  refine ⟨u, hu, hpc, hprogram, fun b a l ta tl ⟨hslots, hshare⟩ ha hl => ?_⟩
  have hmem : a ∈ slotsFor b line ∧ l ∈ slotsFor b line := by obtain h | h := hslots <;> simp [h]
  obtain ⟨hamem, hlmem⟩ := hmem
  rw [exec_block_selected ha (has_of_mem_slotsFor hamem), exec_block_selected hl (has_of_mem_slotsFor hlmem), hblock,
    joinEffects_pair hslots hshare]
  obtain ⟨hcmctl, htrov, htrsov, -⟩ := overlay_rest (effect l b (s.block b)) (effect a b (s.block b)) (resultsOf l)
  exact ⟨overlay_read _ _ _, hcmctl, htrov, htrsov⟩

/-- Settles O52: the joined effects of no slot are the block, and of one slot that slot's effect. -/
theorem differentBlocksShareALine : Obligations.DifferentBlocksShareALine := by
  intro s line hf hadm hc
  obtain ⟨u, hu, hpc, hprogram, hblock⟩ := step_of_admitted hf hadm hc
  refine ⟨u, hu, hpc, hprogram, fun b => ⟨fun hslots => ?_, fun i t hslots ht => ?_⟩⟩
  · rw [hblock, hslots, joinEffects]
  · rw [hblock, hslots, joinEffects, exec_block_selected ht (has_of_mem_slotsFor (line := line) (by simp [hslots]))]

/-! ## A THR load beside the THR shift (R189, R225) -/

theorem Block.read_eq_extractLsb'_readD (b : Block) (f : RegFile) (i : Nat) {j : Nat} (hj : j < 2) :
    b.read f (i + j) = (b.readD f i).extractLsb' (32 * j) 32 := by
  rw [Block.readD_eq]
  obtain rfl | rfl : j = 0 ∨ j = 1 := by omega
  · exact BitVec.extractLsb'_append_eq_right.symm
  · exact BitVec.extractLsb'_append_eq_left.symm

theorem thrdShifted_iff (i : Nat) (b c : Block) :
    Safety.ThrdShifted i b c ↔ c.readD .thr i = b.readD .thr i >>> 16 := by
  rw [Safety.ThrdShifted, ← BitVec.toNat_inj, BitVec.toNat_ushiftRight, Nat.shiftRight_eq_div_pow]

theorem admittedPair_despreadAcc_movThrR (blk blk' : BlockSel) (trs rq thrd trn thrs rm : Nat) :
    AdmittedPair (.despreadAcc blk trs rq thrd trn) (.movThrR blk' thrs rm) where
  share := .inr ⟨.despreadAcc .., .single ..⟩
  results := by
    rintro ⟨f, k⟩ ha hl
    obtain ⟨hf, -⟩ := (mem_regRange ..).mp ha
    obtain ⟨hf', -⟩ := (mem_regRange ..).mp hl
    cases hf.symm.trans hf'

/-- Settles O51: block X is the DESPREAD's with the loaded register laid over it, and no slot selects block Y. -/
theorem historyLoadBeatsShift : Obligations.HistoryLoadBeatsShift := by
  intro s trs rq thrd trn thrs rm hf hwa hwl
  have hpair := admittedPair_despreadAcc_movThrR .x .x trs rq thrd trn thrs rm
  obtain ⟨ta, hta, -, hdespread⟩ := despreadAccResult .x trs rq thrd trn s hwa
  obtain ⟨tl, htl, -, hload⟩ := (historyLoadsCopy .x thrs rm s).1 hwl
  have hadm := (admittedLine_pair_iff (b := .x) rfl rfl).mpr (.inl hpair)
  have hc : Safety.SlotsComplete s [.despreadAcc .x trs rq thrd trn, .movThrR .x thrs rm] := by
    simp [Safety.SlotsComplete, hta, htl]
  obtain ⟨u, hu, -, -, hblocks⟩ := loadBesideArithmetic s _ hf hadm hc
  obtain ⟨hread, -⟩ := hblocks .x _ _ ta tl ⟨.inl rfl, hpair.share⟩ hta htl
  obtain ⟨u', hu', -, -, hsingle⟩ := differentBlocksShareALine s _ hf hadm hc
  obtain rfl : u' = u := by simpa [hu] using hu'.symm
  obtain ⟨-, -, hshift, -⟩ := hdespread .x rfl
  obtain ⟨hloaded, -⟩ := hload .x rfl
  have hmem (f k) : (⟨f, k⟩ : Reg) ∈ resultsOf (.movThrR .x thrs rm) ↔ f = .thr ∧ k = thrs := mem_regRange_one ..
  simp only [hmem, State.block_x] at hread
  refine ⟨u', ta, hu, hta, ?_, fun j hj hne => ?_, ?_, (hsingle .y).1 rfl⟩
  · rw [hread, if_pos ⟨rfl, rfl⟩]
    exact hloaded
  · rw [hread, if_neg (fun h => hne h.2), Block.read_eq_extractLsb'_readD _ _ _ hj]
    exact congrArg _ ((thrdShifted_iff ..).mp hshift)
  · rw [hread, if_neg (by simp)]

end Sys2Proof.Machine
end
